-- ==== Sys2Proof/Word.lean ====
section
/-! DEFINITION. The widths of the block's values (00_scope.md R7) and the numbering of bits (R9). -/

namespace Sys2Proof

/-- A command word: 64 bits, bit 63 the most significant (R80). -/
abbrev Word := BitVec 64

/-- A 16-bit register value, register address or page number (R7). -/
abbrev Reg := BitVec 16

/-- A 32-bit chip identity or identifier mask (R7). -/
abbrev Ident := BitVec 32

/-- One byte of a name (R14). -/
abbrev Byte := BitVec 8

/-- "Bit n" of a register value: the value `1 << n`, bit 0 the least significant (R9). -/
def bit (n : Nat) : Reg := 1#16 <<< n

end Sys2Proof
end

