-- ==== Sys2Proof/Config.lean ====
section
/-! DEFINITION. What is fixed for one chip: the profile and platform records (10_state.md R26, R28), the named
parameters of 00_scope.md R8 gathered in `Cfg` (the spec's `S.cfg`, R20), the parameters a host of the source would
give (`Config.given`, no body), the answers the outside agents can give (the draws of R8), and the free values those
answers take where nothing scripts them (`Config.free…`, no body). -/

namespace Sys2Proof

/-- The interface modes, one constructor for each code that R86 does not reserve. -/
inductive IfMode where
  | other | rgmii | rgmiiId | rgmiiRxid | rgmiiTxid
deriving DecidableEq, Repr, Inhabited

/-- The interface-mode code of R86. -/
def IfMode.code : IfMode → BitVec 8
  | .other => 0x00
  | .rgmii => 0x01
  | .rgmiiId => 0x02
  | .rgmiiRxid => 0x03
  | .rgmiiTxid => 0x04

/-- The mode a code stands for; codes `0x05` to `0xFF` are reserved (R86). -/
def IfMode.ofCode (c : BitVec 8) : Option IfMode :=
  if c = 0x00 then some .other
  else if c = 0x01 then some .rgmii
  else if c = 0x02 then some .rgmiiId
  else if c = 0x03 then some .rgmiiRxid
  else if c = 0x04 then some .rgmiiTxid
  else none

/-- The four RGMII codes `0x01` to `0x04` (R86, R180). -/
def IfMode.isRgmii : IfMode → Bool
  | .other => false
  | .rgmii | .rgmiiId | .rgmiiRxid | .rgmiiTxid => true

/-- The supported-feature set of a profile; informational (R26, R27). -/
inductive Features where
  | basic | gigabit
deriving DecidableEq, Repr, Inhabited

/-- The interrupt-enable binding (R26): register, optional page, enable mask. -/
structure IerBinding where
  reg : Reg
  page : Option Reg
  mask : Reg
deriving DecidableEq, Repr, Inhabited

/-- The interrupt-acknowledge binding (R26): status register, optional page. -/
structure IsrBinding where
  reg : Reg
  page : Option Reg
deriving DecidableEq, Repr, Inhabited

/-- The timing binding (R26): the timing-control register, its page, the delay bit. -/
structure TimingBinding where
  page : Reg
  reg : Reg
  bit : Reg
deriving DecidableEq, Repr, Inhabited

/-- How a family switches to its LED extended page (R26, R186). -/
inductive LedSelect where
  | single (page : Reg)
  | twoStep (p1 extReg p2 : Reg)
deriving DecidableEq, Repr, Inhabited

/-- The LED binding (R26). -/
structure LedBinding where
  select : LedSelect
  ledReg : Reg
  eeeReg : Reg
deriving DecidableEq, Repr, Inhabited

/-- The init binding (R26): an optional timing step and an optional LED step. -/
structure InitBinding where
  timing : Option TimingBinding
  led : Option LedBinding
deriving DecidableEq, Repr, Inhabited

/-- The power-down assist write bound to suspend or to resume (R26). -/
structure PdBinding where
  reg : Reg
  value : Reg
deriving DecidableEq, Repr, Inhabited

/-- A variant profile (R26). `name`, `features` and `hasIntr` are informational: no rule reads them (R27). -/
structure Profile where
  id : Ident
  mask : Ident
  name : List Byte
  features : Features
  hasIntr : Bool
  pagedRead : Bool
  pagedWrite : Bool
  intrEnable : Option IerBinding
  intrAck : Option IsrBinding
  init : Option InitBinding
  suspend : Option PdBinding
  resume : Option PdBinding
deriving DecidableEq, Repr, Inhabited

/-- How a platform entry's name is compared (R28). -/
inductive PlatformKind where
  | exactName | prefixName
deriving DecidableEq, Repr, Inhabited

/-- A platform record (R28). -/
structure Platform where
  name : List Byte
  kind : PlatformKind
  led : Reg
  eee : Reg
deriving DecidableEq, Repr, Inhabited

/-- The spec's `S.cfg` together with the other parameters of R8, as plain data. Sets of registers are lists:
`unbanked` lists the addresses besides `pageSel` at which `P_BANKED` is false, `unimplemented` the complement of
`P_IMPLEMENTED_PAGES`. `P_STATUS_REGS` is derived (`Cfg.statusRegs`). -/
structure Cfg where
  /-- `P_PAGE_SEL_ADDR` -/
  pageSel : Reg
  /-- the complement of `P_BANKED`, less the page-select address -/
  unbanked : List Reg
  /-- `P_PROFILES`, in declaration order -/
  profiles : List Profile
  /-- `P_PLATFORMS`, in declaration order -/
  platforms : List Platform
  /-- `P_TX_DELAY_MODES` -/
  txDelayModes : List IfMode
  /-- `P_VOLATILE`: (page, address) pairs -/
  volatile : List (Reg × Reg)
  /-- the complement of `P_IMPLEMENTED_PAGES` -/
  unimplemented : List Reg
  /-- `P_INIT_CONTENTS`: ((page, address), value); the first entry for a location gives its value -/
  initContents : List ((Reg × Reg) × Reg)
deriving DecidableEq, Repr, Inhabited

/-- `P_BANKED(a)` (R8, R51): never true of the page-select address. -/
def Cfg.isBanked (c : Cfg) (a : Reg) : Bool := a != c.pageSel && !c.unbanked.contains a

/-- The location an acknowledge binding names: its page, or page 0 when that is absent (R56). -/
def IsrBinding.loc (b : IsrBinding) : Reg × Reg := (b.page.getD 0, b.reg)

/-- `P_STATUS_REGS`: the interrupt-status location of every profile with an acknowledge binding (R8, R56). -/
def Cfg.statusRegs (c : Cfg) : List (Reg × Reg) := c.profiles.filterMap fun p => p.intrAck.map IsrBinding.loc

def Cfg.isStatus (c : Cfg) (p a : Reg) : Bool := c.statusRegs.contains (p, a)

def Cfg.isVolatile (c : Cfg) (p a : Reg) : Bool := c.volatile.contains (p, a)

def Cfg.isImplemented (c : Cfg) (p : Reg) : Bool := !c.unimplemented.contains p

/-- A banked location that keeps what is stored in it (R52, D12): no status location, not volatile, and on an
implemented page. -/
def Cfg.isStorage (c : Cfg) (p a : Reg) : Bool := !c.isStatus p a && !c.isVolatile p a && c.isImplemented p

/-! ## The answers of the outside agents (R6, R8) -/

/-- The transport's error value `e`: opaque to the block and carried verbatim (R10, U3). -/
abbrev BusErr := Nat

/-- One answer of `BusOracle` (R8, R54): the transaction succeeds, or fails with `e`; a failed transaction took its
effect or did not. -/
inductive BusAnswer where
  | ok
  | err (e : BusErr) (tookEffect : Bool)
deriving DecidableEq, Repr, Inhabited

/-- What the device does of itself before one transaction (R58): for each entry ((page, address), x), the bits `x`
are set in the pending bits of that location. -/
abbrev DeviceEvent := List ((Reg × Reg) × Reg)

/-- One answer of the platform-identity provider (R8, R183). -/
inductive PlatAnswer where
  | name (s : List Byte)
  | unavailable
deriving DecidableEq, Repr, Inhabited

/-- One answer of `GenericOracle` (R8, R74): the outcome of the call, and register values the collaborator leaves on
the default page. A default-page storage cell that `left` does not name is left undetermined. -/
structure GenericAnswer where
  error : Option BusErr
  left : List (Reg × Reg)
deriving DecidableEq, Repr, Inhabited

/-! ## Free values: constants with no body. The first argument is the chip, the second counts the answers taken. -/

/-- The parameters the configuring host gives (R8 marks them OPEN): any record whatever. -/
opaque Config.given : Cfg

/-- The bus transport's answers (R52, R53, R54). -/
opaque Config.freeBus : Nat → Nat → BusAnswer

/-- The device's asynchronous events (R58). -/
opaque Config.freeEvent : Nat → Nat → DeviceEvent

/-- The register values `DeviceOracle` draws (R52, R57). -/
opaque Config.freeValue : Nat → Nat → Reg

/-- The platform provider's answers (R184). -/
opaque Config.freePlatform : Nat → Nat → PlatAnswer

/-- The generic collaborator's answers (R190). -/
opaque Config.freeGeneric : Nat → Nat → GenericAnswer

end Sys2Proof
end

