-- ==== Sys2Proof/Syntax.lean ====
section
/-! DEFINITION. The twelve commands of the opcode map (30_encoding.md R89), one constructor for each row of
spec/opcode_table.json. Every operand has the width its field has (R88); the interface mode is a name, so that a
reserved mode code (R92) cannot be written. -/

namespace Sys2Proof

inductive Instr where
  /-- `0x01` READ (R82, R112) -/
  | read (addr : Reg)
  /-- `0x02` WRITE (R82, R113) -/
  | write (addr value : Reg)
  /-- `0x03` READ_PAGED (R83, R114) -/
  | readPaged (page addr : Reg)
  /-- `0x04` WRITE_PAGED (R83, R115) -/
  | writePaged (page addr value : Reg)
  /-- `0x10` RESOLVE (R84, R142) -/
  | resolve (id : Ident)
  /-- `0x20` CONFIG_INTR (R85, R161) -/
  | configIntr (en : Bool)
  /-- `0x21` ACK_INTR (R87, R162) -/
  | ackIntr
  /-- `0x30` INIT (R86, R187) -/
  | init (mode : IfMode)
  /-- `0x31` CONFIG_TIMING (R86, R181) -/
  | configTiming (mode : IfMode)
  /-- `0x32` CONFIG_LED (R87, R185) -/
  | configLed
  /-- `0x40` SUSPEND (R87, R188) -/
  | suspend
  /-- `0x41` RESUME (R87, R189) -/
  | resume
deriving DecidableEq, Repr, Inhabited

/-- The pseudo-instruction `intr.enable` (R96). -/
def Instr.intrEnable : Instr := .configIntr true

/-- The pseudo-instruction `intr.disable` (R96). -/
def Instr.intrDisable : Instr := .configIntr false

end Sys2Proof
end

