-- ==== Sys2Proof/WellFormed.lean ====
section
/-! DEFINITION. The named checks a profile table must pass (41_profile_table.md R145), the constraint on the delay
modes (43_bound_operations.md R180), what the source fixes of the table (R146, R147, R148), the overlap of two
profiles (R149), and TC1, the spec's own test configuration (95_test_vectors.md), which passes them all.

Every term of `Instr` is a well-formed command: its operands have their fields' widths and a reserved mode code cannot
be written. What can be ill-formed is the configuration. -/

namespace Sys2Proof

/-! ## Matching (R141) -/

/-- `matches(p, x)` (R141): both sides are masked with the profile's mask. -/
def Profile.matchesId (p : Profile) (x : Ident) : Bool := (x &&& p.mask) == (p.id &&& p.mask)

/-- The first profile in declaration order that matches (R142), by its index. -/
def resolveIndex (ps : List Profile) (x : Ident) : Option Nat := ps.findIdx? (·.matchesId x)

/-- The two profiles have an identity in common, as R149 computes it. -/
def Profile.overlaps (p q : Profile) : Bool := (p.id &&& p.mask &&& q.mask) == (q.id &&& p.mask &&& q.mask)

/-! ## The checks of R145, each under its own name -/

/-- `t.bit` has exactly one bit set (R36). -/
def oneBit (v : Reg) : Bool := (List.range 16).any fun n => v == bit n

/-- The number of bits set in a mask (R148). -/
def bitCount (v : Reg) : Nat := ((List.range 16).filter fun n => v.getLsbD n).length

/-- `WF_IER_MASK_NONZERO` -/
def wfIerMaskNonzero (p : Profile) : Bool := p.intrEnable.all fun b => b.mask != 0

/-- `WF_IER_PAGED` -/
def wfIerPaged (p : Profile) : Bool := p.intrEnable.all fun b => b.page.isNone || p.pagedWrite

/-- `WF_ISR_PAGED` -/
def wfIsrPaged (p : Profile) : Bool := p.intrAck.all fun b => b.page.isNone || p.pagedRead

/-- `WF_TIMING_PAGED` -/
def wfTimingPaged (p : Profile) : Bool :=
  p.init.all fun i => i.timing.isNone || (p.pagedRead && p.pagedWrite)

/-- `WF_DELAY_ONE_BIT` -/
def wfDelayOneBit (p : Profile) : Bool := p.init.all fun i => i.timing.all fun t => oneBit t.bit

/-- `WF_REG_NOT_PS`: `TwoStep.extReg` alone may be the page-select address. -/
def wfRegNotPs (ps : Reg) (p : Profile) : Bool :=
  p.intrEnable.all (fun b => b.reg != ps) && p.intrAck.all (fun b => b.reg != ps)
    && p.init.all (fun i => i.timing.all (fun t => t.reg != ps)
        && i.led.all (fun l => l.ledReg != ps && l.eeeReg != ps))
    && p.suspend.all (fun d => d.reg != ps) && p.resume.all (fun d => d.reg != ps)

/-- `WF_PD_PAIR` -/
def wfPdPair (p : Profile) : Bool :=
  match p.suspend, p.resume with
  | none, none => true
  | some s, some r => s.reg == r.reg
  | _, _ => false

/-- One record passes every check of R145. -/
def Profile.wf (ps : Reg) (p : Profile) : Bool :=
  wfIerMaskNonzero p && wfIerPaged p && wfIsrPaged p && wfTimingPaged p && wfDelayOneBit p && wfRegNotPs ps p
    && wfPdPair p

/-- `P_TX_DELAY_MODES` holds exactly two of the RGMII codes (R180). -/
def wfTxDelayModes (ms : List IfMode) : Bool := ms.length == 2 && decide ms.Nodup && ms.all IfMode.isRgmii

/-- The configuration is accepted: every profile passes R145's checks, and the delay modes are as R180 says. -/
def Cfg.accepted (c : Cfg) : Bool := c.profiles.all (Profile.wf c.pageSel) && wfTxDelayModes c.txDelayModes

/-! ## What the source fixes of the table -/

/-- What R146 fixes of profile F. -/
def isProfileF (p : Profile) : Bool :=
  p.mask == 0x001fffff && (p.id &&& 0x001fffff) == 0x001cc916 && p.features == .gigabit && p.pagedRead && p.pagedWrite
    && p.init.any (fun i => i.led.isSome)
    && p.intrEnable.any (fun b => b.page == some 0x0a42 && b.mask == 0x0010)

/-- What R147 fixes of profile B. -/
def isProfileB (p : Profile) : Bool := p.intrEnable.isNone && p.intrAck.isNone

/-- The profile an identity selects (R142). -/
def selected (ps : List Profile) (x : Ident) : Option Profile := (resolveIndex ps x).bind fun i => ps[i]?

/-- The table holds a profile F and a profile B (R146, R147). -/
def hasKnownProfiles (ps : List Profile) : Bool :=
  (selected ps 0x001cc916).any isProfileF && (selected ps 0x00008201).any isProfileB

/-- How many profiles have the property. -/
def countProfiles (ps : List Profile) (f : Profile → Bool) : Nat := (ps.filter f).length

/-- The wording's constraints on the known table as a whole (R148). A table that does not meet them is allowed; the
source then says nothing of it. -/
def knownVariantSet (ps : List Profile) : Bool :=
  countProfiles ps (fun p => p.intrEnable.any fun b => b.page.isSome) == 1
    && countProfiles ps (fun p => p.intrEnable.any fun b => b.page.isNone && decide (2 ≤ bitCount b.mask)) == 1
    && decide (2 ≤ countProfiles ps fun p => p.intrEnable.any fun b => bitCount b.mask == 1)
    && countProfiles ps (fun p => p.intrAck.any fun b => b.page.isSome) == 1
    && decide (1 ≤ countProfiles ps fun p => p.intrEnable.isNone && p.intrAck.isNone)
    && countProfiles ps (fun p => p.suspend.isSome && p.resume.isSome) == 1
    && decide (2 ≤ countProfiles ps fun p => p.init.any fun i => i.led.isSome)
    && decide (1 ≤ countProfiles ps fun p => p.init.any fun i => i.led.any fun l =>
        match l.select with | .twoStep _ _ _ => true | .single _ => false)
    && decide (1 ≤ countProfiles ps fun p => p.init.any fun i => i.led.any fun l =>
        match l.select with | .single _ => true | .twoStep _ _ _ => false)
    && decide (ps.Pairwise fun p q => p.overlaps q = false)

/-! ## TC1, the spec's test configuration (95_test_vectors.md, D41): a witness, never a claim about a chip -/

/-- The bytes of a name written as text. -/
def bytes (s : String) : List Byte := s.toList.map fun c => BitVec.ofNat 8 c.toNat

def Tc1.profileB : Profile :=
  { id := 0x00008201, mask := 0x0000ffff, name := bytes "B", features := .basic, hasIntr := false, pagedRead := false,
    pagedWrite := false, intrEnable := none, intrAck := none, init := none, suspend := none, resume := none }

def Tc1.profileL : Profile :=
  { id := 0x001cc912, mask := 0x001fffff, name := bytes "L", features := .gigabit, hasIntr := true, pagedRead := false,
    pagedWrite := false, intrEnable := some { reg := 0x0012, page := none, mask := 0x6400 },
    intrAck := some { reg := 0x0013, page := none }, init := none,
    suspend := some { reg := 0x000e, value := 0x0200 }, resume := some { reg := 0x000e, value := 0x0000 } }

def Tc1.profileE : Profile :=
  { id := 0x001cc915, mask := 0x001fffff, name := bytes "E", features := .gigabit, hasIntr := true, pagedRead := false,
    pagedWrite := false, intrEnable := some { reg := 0x0012, page := none, mask := 0x0400 },
    intrAck := some { reg := 0x0013, page := none },
    init := some { timing := none, led := some { select := .twoStep 0x0007 0x001e 0x002c, ledReg := 0x001a, eeeReg := 0x001b } },
    suspend := none, resume := none }

def Tc1.profileF : Profile :=
  { id := 0x001cc916, mask := 0x001fffff, name := bytes "F", features := .gigabit, hasIntr := true, pagedRead := true,
    pagedWrite := true, intrEnable := some { reg := 0x0012, page := some 0x0a42, mask := 0x0010 },
    intrAck := some { reg := 0x001d, page := some 0x0a43 },
    init := some { timing := some { page := 0x0d08, reg := 0x0011, bit := 0x0100 },
                   led := some { select := .single 0x0d04, ledReg := 0x0010, eeeReg := 0x0011 } },
    suspend := none, resume := none }

/-- TC1 (95_test_vectors.md). -/
def Cfg.tc1 : Cfg :=
  { pageSel := 0x001f, unbanked := [], profiles := [Tc1.profileB, Tc1.profileL, Tc1.profileE, Tc1.profileF],
    platforms := [{ name := bytes "Example Board A", kind := .prefixName, led := 0x6160, eee := 0x0000 },
                  { name := bytes "Example Board B", kind := .exactName, led := 0x0000, eee := 0x0000 },
                  { name := bytes "Example Board C", kind := .exactName, led := 0x0a10, eee := 0x0002 }],
    txDelayModes := [.rgmiiId, .rgmiiTxid], volatile := [], unimplemented := [], initContents := [] }

/-! ## The configuration the machine is reset with -/

/-- The parameters at reset: those the host gives, with the decided `P_BANKED` (R8, D6), once they pass R145 and hold
what R146 and R147 require. Given parameters that do not pass are refused as a configuration, before any command
(R145; `Machine.boot` says so); this constant is then TC1, so that it names an accepted configuration in any case and
nothing can be proved of it but what holds of every accepted one. -/
def Config.params : Cfg :=
  let c := { Config.given with unbanked := [] }
  if c.accepted && hasKnownProfiles c.profiles then c else Cfg.tc1

end Sys2Proof
end

