-- ==== Sys2Proof/Decode.lean ====
section
/-! DEFINITION. The decoder (30_encoding.md R97), total on every 64-bit word, over the opcode map of R89; the encoder,
written from the same formats (R82 to R87); and the decoder as the opcode table's numbering of bits feeds it. -/

namespace Sys2Proof

/-- The commands of the opcode map by name (R89). -/
inductive Opcode where
  | read | write | readPaged | writePaged | resolve | configIntr | ackIntr | init | configTiming | configLed | suspend
  | resume
deriving DecidableEq, Repr

/-- A row of the opcode map: a word selects it when `(w & mask) == pattern` (R89). -/
structure OpRow where
  op : Opcode
  pattern : Word
  mask : Word
deriving DecidableEq, Repr

/-- The opcode map (R89): "match (hex)" and "mask (hex)", row by row. -/
def opcodeTable : List OpRow := [
  { op := .read, pattern := 0x0100000000000000, mask := 0xFFFFFFFF0000FFFF },
  { op := .write, pattern := 0x0200000000000000, mask := 0xFFFFFFFF00000000 },
  { op := .readPaged, pattern := 0x0300000000000000, mask := 0xFFFF00000000FFFF },
  { op := .writePaged, pattern := 0x0400000000000000, mask := 0xFFFF000000000000 },
  { op := .resolve, pattern := 0x1000000000000000, mask := 0xFFFFFFFF00000000 },
  { op := .configIntr, pattern := 0x2000000000000000, mask := 0xFFFFFFFFFFFFFFFE },
  { op := .ackIntr, pattern := 0x2100000000000000, mask := 0xFFFFFFFFFFFFFFFF },
  { op := .init, pattern := 0x3000000000000000, mask := 0xFFFFFFFFFFFFFF00 },
  { op := .configTiming, pattern := 0x3100000000000000, mask := 0xFFFFFFFFFFFFFF00 },
  { op := .configLed, pattern := 0x3200000000000000, mask := 0xFFFFFFFFFFFFFFFF },
  { op := .suspend, pattern := 0x4000000000000000, mask := 0xFFFFFFFFFFFFFFFF },
  { op := .resume, pattern := 0x4100000000000000, mask := 0xFFFFFFFFFFFFFFFF }]

/-! ## The fields of the formats (R82 to R88) -/

/-- `value`, bits [15:0] (R82, R83). -/
def valueField (w : Word) : Reg := w.extractLsb' 0 16

/-- `addr`, bits [31:16] (R82, R83). -/
def addrField (w : Word) : Reg := w.extractLsb' 16 16

/-- `page`, bits [47:32] (R83). -/
def pageField (w : Word) : Reg := w.extractLsb' 32 16

/-- `id`, bits [31:0] (R84). -/
def idField (w : Word) : Ident := w.extractLsb' 0 32

/-- `en`, bit [0] (R85). -/
def enField (w : Word) : Bool := w.getLsbD 0

/-- `mode`, bits [7:0] (R86). -/
def modeField (w : Word) : BitVec 8 := w.extractLsb' 0 8

/-- The command a row stands for, its fields taken from the word; none for a reserved mode code (R92, R97). -/
def Opcode.instr (op : Opcode) (w : Word) : Option Instr :=
  match op with
  | .read => some (.read (addrField w))
  | .write => some (.write (addrField w) (valueField w))
  | .readPaged => some (.readPaged (pageField w) (addrField w))
  | .writePaged => some (.writePaged (pageField w) (addrField w) (valueField w))
  | .resolve => some (.resolve (idField w))
  | .configIntr => some (.configIntr (enField w))
  | .ackIntr => some .ackIntr
  | .init => (IfMode.ofCode (modeField w)).map .init
  | .configTiming => (IfMode.ofCode (modeField w)).map .configTiming
  | .configLed => some .configLed
  | .suspend => some .suspend
  | .resume => some .resume

/-- `decode` (R97). None is the verdict `IllegalCommand`: an opcode outside the map (R90), a nonzero reserved bit
(R91) or a reserved mode code (R92). -/
def decode (w : Word) : Option Instr :=
  (opcodeTable.find? fun r => (w &&& r.mask) == r.pattern).bind fun r => r.op.instr w

/-- The command's word, its format's fields from bit 63 down (R82 to R87). -/
def encode (i : Instr) : Word :=
  match i with
  | .read addr => 0x01#8 ++ 0#24 ++ addr ++ 0#16
  | .write addr value => 0x02#8 ++ 0#24 ++ addr ++ value
  | .readPaged page addr => 0x03#8 ++ 0#8 ++ page ++ addr ++ 0#16
  | .writePaged page addr value => 0x04#8 ++ 0#8 ++ page ++ addr ++ value
  | .resolve id => 0x10#8 ++ 0#24 ++ id
  | .configIntr en => 0x20#8 ++ 0#55 ++ BitVec.ofBool en
  | .ackIntr => 0x21#8 ++ 0#56
  | .init mode => 0x30#8 ++ 0#48 ++ mode.code
  | .configTiming mode => 0x31#8 ++ 0#48 ++ mode.code
  | .configLed => 0x32#8 ++ 0#56
  | .suspend => 0x40#8 ++ 0#56
  | .resume => 0x41#8 ++ 0#56

/-- The decoder as spec/opcode_table.json numbers bits: one 64-bit word, bit 0 its least significant; the bits above
the lowest `nbits` are 0. -/
def decodeTableWord (nbits w : Nat) : Option Instr := decode (BitVec.ofNat 64 (w % 2 ^ nbits))

end Sys2Proof
end

