-- ==== Sys2Proof/Machine/Memory.lean ====
section
/-! DEFINITION. A store of 16-bit registers: the banked registers, the flat registers and the pending bits are each
one. The unit is one whole register (20_memory.md R50, R59): it has no bytes, so a cell is a key and a 16-bit value. -/

namespace Sys2Proof.Machine

/-- Register contents by key, in canonical form (`Memory.wf`). A key that is not listed holds no known value: it is
the `unknown` cell of 10_state.md R31. -/
abbrev Memory := List (Nat × Reg)

/-- What a key that is not listed reads as: `unknown` (R31, R40). -/
abbrev Memory.unlisted : Option Reg := none

/-- The canonical form: keys strictly rising. No entry equals what an unlisted key reads as, since an entry always
holds a value. -/
abbrev Memory.wf (m : Memory) : Prop := m.Pairwise fun x y => x.1 < y.1

/-- The cell at a key: `some v` is the spec's `val(v)`, none its `unknown`. -/
def Memory.look : Memory → Nat → Option Reg
  | [], _ => Memory.unlisted
  | (k, v) :: m, j => if j = k then some v else Memory.look m j

/-- The cell at a key becomes `val(v)`. -/
def Memory.store : Memory → Nat → Reg → Memory
  | [], j, v => [(j, v)]
  | (k, x) :: m, j, v =>
    if j < k then (j, v) :: (k, x) :: m
    else if j = k then (j, v) :: m
    else (k, x) :: Memory.store m j v

/-- Every cell whose key fails the test becomes `unknown`. -/
def Memory.keep (f : Nat → Bool) (m : Memory) : Memory := m.filter fun c => f c.1

/-- The key of the location (page, address). -/
def locKey (p a : Reg) : Nat := p.toNat * 65536 + a.toNat

/-- The page of a key. -/
def keyPage (k : Nat) : Reg := BitVec.ofNat 16 (k / 65536)

/-- The address of a key. -/
def keyAddr (k : Nat) : Reg := BitVec.ofNat 16 k

/-- The banked registers after a device power-on: `P_INIT_CONTENTS` where it is given, else `unknown` (R40). -/
def initialBank (c : Cfg) : Memory :=
  c.initContents.foldr (fun e m => if c.isBanked e.1.2 then m.store (locKey e.1.1 e.1.2) e.2 else m) []

/-- The flat registers after a device power-on (R40). A flat register is on no page; its entry of `P_INIT_CONTENTS` is
the one on the default page. -/
def initialFlat (c : Cfg) : Memory :=
  c.initContents.foldr
    (fun e m => if !c.isBanked e.1.2 && e.1.2 != c.pageSel && e.1.1 == 0 then m.store e.1.2.toNat e.2 else m) []

end Sys2Proof.Machine
end

