-- ==== Sys2Proof/Machine/State.lean ====
section
/-! DEFINITION. The state of one chip instance (10_state.md R20): the core state, the configuration, the device state
and the event log, and beside them the host's pending command words and the scripted answers of the outside agents.
All of it is plain data. -/

namespace Sys2Proof.Machine

/-- `IntrState` (R22). -/
inductive IntrState where
  | disabled | enabled
deriving DecidableEq, Repr, Inhabited

/-- `S.core` (R21 to R24). -/
structure CoreState where
  /-- the index of the bound profile (R21) -/
  bound : Option Nat
  /-- the interrupt state machine (R22) -/
  intr : IntrState
  /-- the derived LedProfile (ledFunction, eee) (R23) -/
  led : Option (Reg × Reg)
  /-- the sticky mark of a refused command (R24) -/
  refused : Bool
deriving DecidableEq, Repr, Inhabited

/-- `S.dev` (R30 to R32). -/
structure DevState where
  /-- the page-select register `PS` (R30) -/
  ps : Reg
  /-- the banked registers, by `locKey page address` (R31) -/
  bank : Memory
  /-- the registers that are not banked, by address (R31) -/
  flat : Memory
  /-- the pending bits of the status locations, by `locKey page address` (R32); `unknown` until drawn (R40) -/
  pending : Memory
deriving DecidableEq, Repr, Inhabited

/-- What a transaction, or a part of a command, answers: a value, or the transport's error (R10). -/
inductive Reply (α : Type) where
  | ok (v : α)
  | err (e : BusErr)
deriving DecidableEq, Repr

/-- The kind of a generic-collaborator call (R41, R190). -/
inductive GenKind where
  | suspend | resume
deriving DecidableEq, Repr, Inhabited

/-- The reason of a refusal (R211, R215). -/
inductive Reason where
  | illegalCommand | unbound | rebind | noPagedBinding
deriving DecidableEq, Repr, Inhabited

/-- What `INIT` reports of its LED step (R187). -/
inductive LedStatus where
  | ok
  | busError (e : BusErr)
deriving DecidableEq, Repr, Inhabited

/-- A command's result (R210, R211). -/
inductive Result where
  /-- `Ok` -/
  | ok
  /-- `Ok(v)`, a value read -/
  | okValue (v : Reg)
  /-- `Ok(i)`, a profile index -/
  | okIndex (i : Nat)
  /-- `Ok(ledStatus)` -/
  | okLed (l : LedStatus)
  | busError (e : BusErr)
  | notFound
  | genericError (e : BusErr)
  | refuse (r : Reason)
deriving DecidableEq, Repr, Inhabited

/-- One event of the log (R41). -/
inductive Ev where
  /-- one `busRead` transaction -/
  | busR (a : Reg) (r : Reply Reg)
  /-- one `busWrite` transaction -/
  | busW (a v : Reg) (r : Reply Unit)
  /-- one platform-identity query -/
  | plat (ans : PlatAnswer)
  /-- one generic-collaborator call -/
  | gen (kind : GenKind) (r : Reply Unit)
  /-- a command is over, with its result -/
  | cmd (word : Word) (result : Result)
deriving DecidableEq, Repr

/-- One outside agent's answers to come (R8): first those of `script`, then the free values, the next of them number
`drawn`. -/
structure Oracle (α : Type) where
  script : List α
  drawn : Nat
deriving DecidableEq, Repr

/-- The answers of every outside agent (R8). -/
structure Draws where
  /-- which chip this is: it keeps the free values of two instances apart (R229) -/
  chip : Nat
  /-- `BusOracle`, one answer a transaction -/
  bus : Oracle BusAnswer
  /-- `DeviceOracle`: what the device does before a transaction (R58), one entry a transaction -/
  events : Oracle DeviceEvent
  /-- `DeviceOracle`: the register values it draws (R52) -/
  values : Oracle Reg
  /-- `PlatformOracle` -/
  platform : Oracle PlatAnswer
  /-- `GenericOracle` -/
  generic : Oracle GenericAnswer
deriving DecidableEq, Repr

/-- The state of one chip instance (R20). -/
structure State where
  /-- `S.core` -/
  core : CoreState
  /-- `S.cfg`, with the other parameters of R8; no command writes it (R27, R29) -/
  cfg : Cfg
  /-- `S.dev` -/
  dev : DevState
  /-- `S.log`, oldest event first (R41) -/
  log : List Ev
  /-- the index of the next command (R42) -/
  index : Nat
  /-- the command words the host has issued and the block has not yet run, the next one first (R42, R70) -/
  commands : List Word
  /-- the answers the outside agents are about to give -/
  draws : Draws
deriving DecidableEq, Repr

/-- A step never stops with a fault: the spec treats no behaviour of the block as one ("No behaviour of the block is
treated as `fault` or `stuck`", 93_implementation_defined.md), so there is no constructor. -/
inductive Fault
deriving DecidableEq, Repr

/-- Why the model gives no next state. -/
inductive Refusal where
  /-- `exec`, in the arm of a command that has no meaning yet. Safe: no claim about the command can be proved. -/
  | notModelled (mnemonic : String)
  /-- `boot`: the configuration does not pass the checks of R145 and is refused before any command runs. Safe. -/
  | configurationRefused
deriving DecidableEq, Repr

/-- The core state at reset (R40). -/
def CoreState.reset : CoreState := { bound := none, intr := .disabled, led := none, refused := false }

/-- The device after a power-on (R40, R241): `P_PS_RESET` is 0, and the pending bits are not yet drawn. -/
def DevState.powerOn (c : Cfg) : DevState :=
  { ps := 0x0000, bank := initialBank c, flat := initialFlat c, pending := [] }

/-- Nothing scripted, nothing drawn. -/
def Draws.fresh (chip : Nat) : Draws :=
  { chip := chip, bus := ⟨[], 0⟩, events := ⟨[], 0⟩, values := ⟨[], 0⟩, platform := ⟨[], 0⟩, generic := ⟨[], 0⟩ }

/-- Reset (R40): process start together with a device power-on, of the given chip under the given configuration. -/
def State.resetWith (chip : Nat) (c : Cfg) : State :=
  { core := .reset, cfg := c, dev := .powerOn c, log := [], index := 0, commands := [], draws := .fresh chip }

/-- The machine right after reset. -/
def State.reset : State := .resetWith 0 Config.params

end Sys2Proof.Machine
end

