-- ==== Sys2Proof/Machine/Flags.lean ====
section
/-! DEFINITION. The block's one status flag, `IntrState` (10_state.md R38), and the latched fields of the core state:
`Bound` (R21), `Led` (R23), `Refused` (R24). These are the only writes any command makes to `S.core`. -/

namespace Sys2Proof.Machine

/-- The state `CONFIG_INTR(en)` asks for (R160, R161). -/
def intrOf (en : Bool) : IntrState := if en then .enabled else .disabled

/-- `S.core.IntrState <- x` (R161). -/
def State.setIntr (s : State) (x : IntrState) : State := { s with core := { s.core with intr := x } }

/-- `S.core.Bound <- some(i)` (R142). -/
def State.setBound (s : State) (i : Nat) : State := { s with core := { s.core with bound := some i } }

/-- `S.core.Led <- some(pair)` (R184). -/
def State.setLed (s : State) (pair : Reg × Reg) : State := { s with core := { s.core with led := some pair } }

/-- `S.core.Refused <- true` (R215). -/
def State.markRefused (s : State) : State := { s with core := { s.core with refused := true } }

end Sys2Proof.Machine
end

