-- ==== Sys2Proof/Machine/Operands.lean ====
section
/-! DEFINITION. What a command's operands and its profile's bindings mean: the location a bus address reaches, the
interface modes that need the delay, the platform lookup, the writes that select an LED page. No operand form of the
block is anything but a raw field (30_encoding.md R88). -/

namespace Sys2Proof.Machine

/-- What a bus address reaches (R51). -/
inductive Loc where
  | psReg
  | bank (page addr : Reg)
  | flat (addr : Reg)
deriving DecidableEq, Repr

/-- `loc(S, a)` for the current page (R51): the page-select register, the bank of the current page, or a register that
is not banked. -/
def locAt (c : Cfg) (page a : Reg) : Loc :=
  if a = c.pageSel then .psReg else if c.isBanked a then .bank page a else .flat a

/-- `loc(S, a)` (R51). -/
def State.loc (s : State) (a : Reg) : Loc := locAt s.cfg s.dev.ps a

/-- The bound profile record `P` (R17). None before a `RESOLVE` has succeeded. -/
def State.profile? (s : State) : Option Profile := s.core.bound.bind fun i => s.cfg.profiles[i]?

/-- `needsTxDelay(mode)` (R180). -/
def needsTxDelay (c : Cfg) (mode : IfMode) : Bool := c.txDelayModes.contains mode

/-- The value the timing step writes back (R181): OR the delay bit, or AND-NOT it. -/
def timingValue (c : Cfg) (t : TimingBinding) (mode : IfMode) (old : Reg) : Reg :=
  if needsTxDelay c mode then old ||| t.bit else old &&& ~~~t.bit

/-- `isPrefix(n, s)` on bytes (R14). -/
def isNamePrefix : List Byte → List Byte → Bool
  | [], _ => true
  | _ :: _, [] => false
  | x :: n, y :: s => x == y && isNamePrefix n s

/-- A platform entry matches the name (R183). -/
def platformMatches (e : Platform) (s : List Byte) : Bool :=
  match e.kind with
  | .exactName => e.name == s
  | .prefixName => isNamePrefix e.name s

/-- `lookupPlatform(ans)` (R183): the first matching entry's pair; no match, and no name at all, give (0, 0). -/
def lookupPlatform (es : List Platform) (ans : PlatAnswer) : Reg × Reg :=
  match ans with
  | .unavailable => (0x0000, 0x0000)
  | .name s =>
    match es.find? (platformMatches · s) with
    | some e => (e.led, e.eee)
    | none => (0x0000, 0x0000)

/-- `selectSeq` (R186): the writes that switch to the LED extended page. -/
def selectSeq (c : Cfg) (sel : LedSelect) : List (Reg × Reg) :=
  match sel with
  | .single p => [(c.pageSel, p)]
  | .twoStep p1 extReg p2 => [(c.pageSel, p1), (extReg, p2)]

/-- The writes of the LED sequence before its restore (R185), in order. -/
def ledWrites (c : Cfg) (l : LedBinding) (pair : Reg × Reg) : List (Reg × Reg) :=
  selectSeq c l.select ++ [(l.ledReg, pair.1), (l.eeeReg, pair.2)]

/-- What `CONFIG_INTR` writes to the IER (R161). -/
def ierValue (b : IerBinding) (en : Bool) : Reg := if en then b.mask else 0x0000

end Sys2Proof.Machine
end

