-- ==== Sys2Proof/Machine/Ops.lean ====
section
/-! DEFINITION. The shared operations: drawing an outside agent's answer, the device's registers, one bus transaction
(20_memory.md R52, R53), the select/operate/restore wrapper (40_register_access.md R111), the LED write sequence, the
generic call (43_bound_operations.md R190), the end of a command and a refusal (60_exceptions.md R215). -/

namespace Sys2Proof.Machine

/-! ## Draws (R8, R13) -/

/-- The next answer, and the answers after it. -/
def Oracle.next {α : Type} (free : Nat → α) (o : Oracle α) : α × Oracle α :=
  match o.script with
  | a :: rest => (a, { o with script := rest })
  | [] => (free o.drawn, { o with drawn := o.drawn + 1 })

/-- The answer `n` places ahead: the `n`th scripted one, or a free value. -/
def Oracle.ahead {α : Type} (free : Nat → α) (o : Oracle α) (n : Nat) : α :=
  match o.script[n]? with
  | some a => a
  | none => free (o.drawn + (n - o.script.length))

/-- The transport's answer to the transaction `n` places ahead. -/
def State.busAhead (s : State) (n : Nat) : BusAnswer := s.draws.bus.ahead (Config.freeBus s.draws.chip) n

/-- `draw BusOracle` -/
def State.drawBus (s : State) : BusAnswer × State :=
  match s.draws.bus.next (Config.freeBus s.draws.chip) with
  | (a, o) => (a, { s with draws := { s.draws with bus := o } })

/-- `draw DeviceOracle`, an event (R58) -/
def State.drawEvent (s : State) : DeviceEvent × State :=
  match s.draws.events.next (Config.freeEvent s.draws.chip) with
  | (a, o) => (a, { s with draws := { s.draws with events := o } })

/-- `draw DeviceOracle`, a register value -/
def State.drawValue (s : State) : Reg × State :=
  match s.draws.values.next (Config.freeValue s.draws.chip) with
  | (a, o) => (a, { s with draws := { s.draws with values := o } })

/-- `draw PlatformOracle` -/
def State.drawPlatform (s : State) : PlatAnswer × State :=
  match s.draws.platform.next (Config.freePlatform s.draws.chip) with
  | (a, o) => (a, { s with draws := { s.draws with platform := o } })

/-- `draw GenericOracle` -/
def State.drawGeneric (s : State) : GenericAnswer × State :=
  match s.draws.generic.next (Config.freeGeneric s.draws.chip) with
  | (a, o) => (a, { s with draws := { s.draws with generic := o } })

/-! ## The device's registers -/

/-- `PS <- v` (R55) -/
def State.setPs (s : State) (v : Reg) : State := { s with dev := { s.dev with ps := v } }

/-- `Bank(p, a) <- val(v)` -/
def State.setBank (s : State) (p a v : Reg) : State :=
  { s with dev := { s.dev with bank := s.dev.bank.store (locKey p a) v } }

/-- `Flat(a) <- val(v)` -/
def State.setFlat (s : State) (a v : Reg) : State :=
  { s with dev := { s.dev with flat := s.dev.flat.store a.toNat v } }

/-- `Pending(p, a) <- v` -/
def State.setPending (s : State) (p a v : Reg) : State :=
  { s with dev := { s.dev with pending := s.dev.pending.store (locKey p a) v } }

/-- The cell `Bank(p, a)` (R31). -/
def State.bankCell (s : State) (p a : Reg) : Option Reg := s.dev.bank.look (locKey p a)

/-- The cell `Flat(a)` (R31). -/
def State.flatCell (s : State) (a : Reg) : Option Reg := s.dev.flat.look a.toNat

/-- `Pending(p, a)` (R32); none where it is not yet drawn (R40). -/
def State.pendingCell (s : State) (p a : Reg) : Option Reg := s.dev.pending.look (locKey p a)

/-- `log(ev)` (R13) -/
def State.addEv (s : State) (e : Ev) : State := { s with log := s.log ++ [e] }

/-- The pending bits of a location, drawn the first time they matter (R40, U1). -/
def takePending (p a : Reg) (s : State) : Reg × State :=
  match s.pendingCell p a with
  | some v => (v, s)
  | none => match s.drawValue with
    | (d, s') => (d, s'.setPending p a d)

/-- The contents of a banked register, drawn and fixed by the first read (R52). -/
def takeBank (p a : Reg) (s : State) : Reg × State :=
  match s.bankCell p a with
  | some v => (v, s)
  | none => match s.drawValue with
    | (d, s') => (d, s'.setBank p a d)

/-- The contents of a register that is not banked, drawn and fixed by the first read (R52). -/
def takeFlat (a : Reg) (s : State) : Reg × State :=
  match s.flatCell a with
  | some v => (v, s)
  | none => match s.drawValue with
    | (d, s') => (d, s'.setFlat a d)

/-- One entry of a device event (R58): `Pending(p, a) <- Pending(p, a) | x`, at a location of `P_STATUS_REGS`. -/
def deviceSets (s : State) (e : (Reg × Reg) × Reg) : State :=
  if s.cfg.isStatus e.1.1 e.1.2 then
    match takePending e.1.1 e.1.2 s with
    | (v, s') => s'.setPending e.1.1 e.1.2 (v ||| e.2)
  else s

/-- What the device does of itself before a transaction (R58). -/
def deviceActs (s : State) : State :=
  match s.drawEvent with
  | (ev, s') => ev.foldl deviceSets s'

/-- What a successful read of `a` returns and does (R52): a status location is read and cleared (R56), a volatile
register or one on an unimplemented page gives a fresh draw (R57), any other gives its contents. -/
def readEffect (a : Reg) (s : State) : Reg × State :=
  match s.loc a with
  | .psReg => (s.dev.ps, s)
  | .bank p a =>
    if s.cfg.isStatus p a then
      match takePending p a s with
      | (v, s') => (v, s'.setPending p a 0x0000)
    else if s.cfg.isStorage p a then takeBank p a s
    else s.drawValue
  | .flat a => takeFlat a s

/-- What a failed read does when its effect was taken (R54): a status location is cleared, nothing else changes. -/
def failedReadEffect (a : Reg) (s : State) : State :=
  match s.loc a with
  | .psReg => s
  | .bank p a => if s.cfg.isStatus p a then s.setPending p a 0x0000 else s
  | .flat _ => s

/-- `effect(a, v)` of R53. -/
def writeEffect (a v : Reg) (s : State) : State :=
  match s.loc a with
  | .psReg => s.setPs v
  | .bank p a =>
    if s.cfg.isStatus p a then
      match s.drawValue with
      | (d, s') => s'.setPending p a d
    else if s.cfg.isImplemented p then s.setBank p a v
    else s
  | .flat a => s.setFlat a v

/-! ## Runs: the steps of a command's body -/

/-- A run of steps: from a state, a reply and the state it leaves. The error of a reply is the transport's (R212). -/
abbrev Run (α : Type) := State → Reply α × State

/-- `MemRead(a, 2)` (R10, R52). -/
def memRead (a : Reg) : Run Reg := fun s =>
  match (deviceActs s).drawBus with
  | (.ok, s') => match readEffect a s' with
    | (v, s'') => (.ok v, s''.addEv (.busR a (.ok v)))
  | (.err e true, s') => (.err e, (failedReadEffect a s').addEv (.busR a (.err e)))
  | (.err e false, s') => (.err e, s'.addEv (.busR a (.err e)))

/-- `MemWrite(a, 2, v)` (R10, R53, R54). -/
def memWrite (a v : Reg) : Run Unit := fun s =>
  match (deviceActs s).drawBus with
  | (.ok, s') => (.ok (), (writeEffect a v s').addEv (.busW a v (.ok ())))
  | (.err e true, s') => (.err e, (writeEffect a v s').addEv (.busW a v (.err e)))
  | (.err e false, s') => (.err e, s'.addEv (.busW a v (.err e)))

/-- One run after another: an error of the first ends both (R216). -/
def Run.andThen {α β : Type} (m : Run α) (f : α → Run β) : Run β := fun s =>
  match m s with
  | (.ok v, s') => f v s'
  | (.err e, s') => (.err e, s')

/-- `try { body } finally { fin }` (R12): `fin` runs on every exit path, and the first error in step order is the
result. -/
def tryFinally {α : Type} (body : Run α) (fin : Run Unit) : Run α := fun s =>
  match body s with
  | (.ok v, s') => match fin s' with
    | (.ok _, s'') => (.ok v, s'')
    | (.err e, s'') => (.err e, s'')
  | (.err e, s') => (.err e, (fin s').2)

/-- `MemWrite(P_PAGE_SEL_ADDR, 2, page)`. -/
def selectPage (page : Reg) : Run Unit := fun s => memWrite s.cfg.pageSel page s

/-- The restoring write of page 0 (R111 step 3). -/
def restorePage : Run Unit := selectPage 0x0000

/-- `PagedAccess(page, op)` (R111): select the page, operate, restore page 0 on every exit path. A failed select skips
the operation. -/
def pagedAccess {α : Type} (page : Reg) (op : Run α) : Run α :=
  tryFinally ((selectPage page).andThen fun _ => op) restorePage

/-- An access at an optional page: the paged procedure, or the plain transaction at the current page (R161, R162). -/
def accessAt {α : Type} (page : Option Reg) (op : Run α) : Run α :=
  match page with
  | some pg => pagedAccess pg op
  | none => op

/-- Writes in order; the first that fails ends the sequence (R185). -/
def writeAll : List (Reg × Reg) → Run Unit
  | [] => fun s => (.ok (), s)
  | (a, v) :: rest => (memWrite a v).andThen fun _ => writeAll rest

/-! ## The generic collaborator -/

/-- A default-page or flat storage cell becomes a value the collaborator leaves (R74). -/
def genericLeaves (s : State) (e : Reg × Reg) : State :=
  match locAt s.cfg 0x0000 e.1 with
  | .psReg => s
  | .bank p a => if s.cfg.isStorage p a then s.setBank p a e.2 else s
  | .flat a => s.setFlat a e.2

/-- Every storage cell `Bank(0, a)` and every `Flat(a)` is forgotten (R74): what it holds is undetermined. -/
def State.forgetDefaultPage (s : State) : State :=
  { s with dev := { s.dev with
      bank := s.dev.bank.keep fun k => keyPage k != 0x0000 || !s.cfg.isStorage (keyPage k) (keyAddr k)
      flat := [] } }

/-- `GenericCall(kind)` (R190) with the effect of R74: the default page's storage cells are draws; PS, the extended
pages and the pending bits stay. -/
def genericCall (kind : GenKind) : Run Unit := fun s =>
  match s.drawGeneric with
  | (g, s') =>
    let t := g.left.foldl genericLeaves s'.forgetDefaultPage
    match g.error with
    | none => (.ok (), t.addEv (.gen kind (.ok ())))
    | some e => (.err e, t.addEv (.gen kind (.err e)))

/-! ## The end of a command -/

/-- A reply that carries no value, as a result (R119). -/
def Reply.result (r : Reply Unit) : Result :=
  match r with
  | .ok _ => .ok
  | .err e => .busError e

/-- A reply that carries a register value, as a result (R119). -/
def Reply.valueResult (r : Reply Reg) : Result :=
  match r with
  | .ok v => .okValue v
  | .err e => .busError e

/-- The code of an outcome (R211). Code 3, `Unavailable`, is never a result. -/
def Result.code : Result → Nat
  | .ok | .okValue _ | .okIndex _ | .okLed _ => 0
  | .busError _ => 1
  | .notFound => 2
  | .genericError _ => 4
  | .refuse .illegalCommand => 16
  | .refuse .unbound => 17
  | .refuse .rebind => 18
  | .refuse .noPagedBinding => 19

/-- A refusal (R215): no transaction, no draw, and of the core state only the mark. -/
def refuse (r : Reason) (s : State) : Result × State := (.refuse r, s.markRefused)

/-- The end of a command (R110 step 4, R42): its `Cmd` event, and the index of the next command. -/
def finish (w : Word) (p : Result × State) : State :=
  { p.2 with log := p.2.log ++ [.cmd w p.1], index := p.2.index + 1 }

/-- A command that needs a bound profile (R110 steps 2 to 4): refused `Unbound` before a `RESOLVE` has succeeded, else
its rule runs with the profile record `P` (R17). -/
def boundCommand (i : Instr) (rule : Profile → State → Result × State) (s : State) :
    Host.Outcome State Fault Refusal :=
  .next (finish (encode i) (match s.profile? with
    | none => refuse .unbound s
    | some p => rule p s))

/-- A word the decoder gives no command for (R90, R91, R92, R110 step 1). -/
def illegalCommand (w : Word) (s : State) : State := finish w (refuse .illegalCommand s)

/-- The host's next word, and the state once the block has it (R42). -/
def fetch (s : State) : Option (Word × State) :=
  match s.commands with
  | [] => none
  | w :: rest => some (w, { s with commands := rest })

/-- The host issues a word that the block takes before any other. -/
def State.issue (s : State) (w : Word) : State := { s with commands := w :: s.commands }

end Sys2Proof.Machine
end

