-- ==== Sys2Proof/Machine/Access.lean ====
section
/-! DEFINITION. READ, WRITE, READ_PAGED and WRITE_PAGED (40_register_access.md). -/

namespace Sys2Proof.Machine

/-- READ (R112): one transaction at the current page; the value as it was read. -/
def execRead (addr : Reg) (s : State) : Host.Outcome State Fault Refusal :=
  boundCommand (.read addr) (fun _ s => match memRead addr s with
    | (r, s') => (r.valueResult, s')) s

/-- WRITE (R113): one transaction at the current page. -/
def execWrite (addr value : Reg) (s : State) : Host.Outcome State Fault Refusal :=
  boundCommand (.write addr value) (fun _ s => match memWrite addr value s with
    | (r, s') => (r.result, s')) s

/-- READ_PAGED (R114): refused without the paged-read binding, else `PagedAccess(page, Read(addr))`. -/
def execReadPaged (page addr : Reg) (s : State) : Host.Outcome State Fault Refusal :=
  boundCommand (.readPaged page addr) (fun p s =>
    if p.pagedRead then match pagedAccess page (memRead addr) s with
      | (r, s') => (r.valueResult, s')
    else refuse .noPagedBinding s) s

/-- WRITE_PAGED (R115): refused without the paged-write binding, else `PagedAccess(page, Write(addr, value))`. -/
def execWritePaged (page addr value : Reg) (s : State) : Host.Outcome State Fault Refusal :=
  boundCommand (.writePaged page addr value) (fun p s =>
    if p.pagedWrite then match pagedAccess page (memWrite addr value) s with
      | (r, s') => (r.result, s')
    else refuse .noPagedBinding s) s

end Sys2Proof.Machine
end

