-- ==== Sys2Proof/Machine/BoundOps.lean ====
section
/-! DEFINITION. INIT, CONFIG_TIMING, CONFIG_LED, SUSPEND and RESUME (43_bound_operations.md). -/

namespace Sys2Proof.Machine

/-- The body of CONFIG_TIMING for a timing binding (R181): a paged read, then a paged write of the value with the delay
bit set or cleared. A failed read writes nothing back. -/
def timingSteps (t : TimingBinding) (mode : IfMode) : Run Unit := fun s =>
  (pagedAccess t.page (memRead t.reg)).andThen
    (fun old => pagedAccess t.page (memWrite t.reg (timingValue s.cfg t mode old))) s

/-- The body of CONFIG_TIMING (R181): without a timing binding there is no transaction. -/
def timingBody (p : Profile) (mode : IfMode) : Run Unit := fun s =>
  match p.init.bind InitBinding.timing with
  | none => (.ok (), s)
  | some t => timingSteps t mode s

/-- The LedProfile, derived by one platform query the first time and stored (R184). -/
def ledProfile (s : State) : (Reg × Reg) × State :=
  match s.core.led with
  | some pair => (pair, s)
  | none => match s.drawPlatform with
    | (ans, s') =>
      let pair := lookupPlatform s.cfg.platforms ans
      (pair, (s'.addEv (.plat ans)).setLed pair)

/-- The LED sequence (R185): select, LED register, EEE register, and the restore on every exit path. -/
def ledSteps (l : LedBinding) (pair : Reg × Reg) : Run Unit := fun s =>
  tryFinally (writeAll (ledWrites s.cfg l pair)) restorePage s

/-- The body of CONFIG_LED (R185): no LED binding, no query and no transaction; the pair (0, 0), no transaction. -/
def ledBody (p : Profile) : Run Unit := fun s =>
  match p.init.bind InitBinding.led with
  | none => (.ok (), s)
  | some l => match ledProfile s with
    | (pair, s') => if pair.1 = 0x0000 ∧ pair.2 = 0x0000 then (.ok (), s') else ledSteps l pair s'

/-- `ledStatus` (R187). -/
def Reply.ledStatus (r : Reply Unit) : LedStatus :=
  match r with
  | .ok _ => .ok
  | .err e => .busError e

/-- The rule of INIT (R187): timing first, its failure ends the command; then LED, its failure is reported and INIT
still succeeds. -/
def initRule (mode : IfMode) (p : Profile) (s : State) : Result × State :=
  match p.init with
  | none => (.okLed .ok, s)
  | some _ => match timingBody p mode s with
    | (.err e, s') => (.busError e, s')
    | (.ok _, s') => match ledBody p s' with
      | (r, s'') => (.okLed r.ledStatus, s'')

/-- The power-down assist write, where the profile binds one (R188, R189). -/
def assistWrite (d : Option PdBinding) : Run Unit := fun s =>
  match d with
  | none => (.ok (), s)
  | some d => memWrite d.reg d.value s

/-- The rule of SUSPEND (R188): the assist write, then the generic suspend; a failed write ends the command first. -/
def suspendRule (p : Profile) (s : State) : Result × State :=
  match assistWrite p.suspend s with
  | (.err e, s') => (.busError e, s')
  | (.ok _, s') => match genericCall .suspend s' with
    | (.ok _, s'') => (.ok, s'')
    | (.err e, s'') => (.genericError e, s'')

/-- The rule of RESUME (R189): the generic resume, then the assist write; a failed call ends the command first. -/
def resumeRule (p : Profile) (s : State) : Result × State :=
  match genericCall .resume s with
  | (.err e, s') => (.genericError e, s')
  | (.ok _, s') => match assistWrite p.resume s' with
    | (r, s'') => (r.result, s'')

/-- INIT (R187). -/
def execInit (mode : IfMode) (s : State) : Host.Outcome State Fault Refusal :=
  boundCommand (.init mode) (initRule mode) s

/-- CONFIG_TIMING (R181). -/
def execConfigTiming (mode : IfMode) (s : State) : Host.Outcome State Fault Refusal :=
  boundCommand (.configTiming mode) (fun p s => match timingBody p mode s with
    | (r, s') => (r.result, s')) s

/-- CONFIG_LED (R185). -/
def execConfigLed (s : State) : Host.Outcome State Fault Refusal :=
  boundCommand .configLed (fun p s => match ledBody p s with
    | (r, s') => (r.result, s')) s

/-- SUSPEND (R188). -/
def execSuspend (s : State) : Host.Outcome State Fault Refusal :=
  boundCommand .suspend suspendRule s

/-- RESUME (R189). -/
def execResume (s : State) : Host.Outcome State Fault Refusal :=
  boundCommand .resume resumeRule s

end Sys2Proof.Machine
end

