-- ==== Sys2Proof/Machine/Interrupts.lean ====
section
/-! DEFINITION. CONFIG_INTR and ACK_INTR (42_interrupts.md). -/

namespace Sys2Proof.Machine

/-- The rule of CONFIG_INTR (R161): the whole mask, or 0, is written to the IER, paged or plain; no binding, no
transaction. `IntrState` is written on `Ok` only (R160). -/
def configIntrRule (en : Bool) (p : Profile) (s : State) : Result × State :=
  match p.intrEnable with
  | none => (.ok, s.setIntr (intrOf en))
  | some b => match accessAt b.page (memWrite b.reg (ierValue b en)) s with
    | (.ok _, s') => (.ok, s'.setIntr (intrOf en))
    | (.err e, s') => (.busError e, s')

/-- The rule of ACK_INTR (R162, R166): the status register is read, paged or plain, and the value is discarded. -/
def ackIntrRule (p : Profile) (s : State) : Result × State :=
  match p.intrAck with
  | none => (.ok, s)
  | some b => match accessAt b.page (memRead b.reg) s with
    | (.ok _, s') => (.ok, s')
    | (.err e, s') => (.busError e, s')

/-- CONFIG_INTR (R161). -/
def execConfigIntr (en : Bool) (s : State) : Host.Outcome State Fault Refusal :=
  boundCommand (.configIntr en) (configIntrRule en) s

/-- ACK_INTR (R162). -/
def execAckIntr (s : State) : Host.Outcome State Fault Refusal :=
  boundCommand .ackIntr ackIntrRule s

end Sys2Proof.Machine
end

