-- ==== Sys2Proof/Machine/Resolve.lean ====
section
/-! DEFINITION. RESOLVE (41_profile_table.md R142): the one command that needs no bound profile. -/

namespace Sys2Proof.Machine

/-- The rule of RESOLVE (R142): refused `Rebind` once bound; else the first match in declaration order is bound, or the
result is `NotFound` (R144, R213). It makes no transaction and draws nothing (R73). -/
def resolveRule (id : Ident) (s : State) : Result × State :=
  match s.core.bound with
  | some _ => refuse .rebind s
  | none => match resolveIndex s.cfg.profiles id with
    | some i => (.okIndex i, s.setBound i)
    | none => (.notFound, s)

/-- RESOLVE (R142). -/
def execResolve (id : Ident) (s : State) : Host.Outcome State Fault Refusal :=
  .next (finish (encode (.resolve id)) (resolveRule id s))

end Sys2Proof.Machine
end

