-- ==== Sys2Proof/Machine/Dispatch.lean ====
section
/-! DEFINITION. The commands' meanings, one arm for each constructor (30_encoding.md R89). -/

namespace Sys2Proof.Machine

def exec (i : Instr) (s : State) : Host.Outcome State Fault Refusal :=
  match i with
  | .read addr => Sys2Proof.Machine.execRead addr s
  | .write addr value => Sys2Proof.Machine.execWrite addr value s
  | .readPaged page addr => Sys2Proof.Machine.execReadPaged page addr s
  | .writePaged page addr value => Sys2Proof.Machine.execWritePaged page addr value s
  | .resolve id => Sys2Proof.Machine.execResolve id s
  | .configIntr en => Sys2Proof.Machine.execConfigIntr en s
  | .ackIntr => Sys2Proof.Machine.execAckIntr s
  | .init mode => Sys2Proof.Machine.execInit mode s
  | .configTiming mode => Sys2Proof.Machine.execConfigTiming mode s
  | .configLed => Sys2Proof.Machine.execConfigLed s
  | .suspend => Sys2Proof.Machine.execSuspend s
  | .resume => Sys2Proof.Machine.execResume s

end Sys2Proof.Machine
end

