-- ==== Sys2Proof/Machine/Step.lean ====
section
/-! DEFINITION. One step is one whole command (40_register_access.md R110): take the host's next word, decode it, run
it. With no word issued, nothing happens. -/

namespace Sys2Proof.Machine

def step (s : State) : Host.Outcome State Fault Refusal :=
  match fetch s with
  | none => .next s
  | some (w, s') =>
    match decode w with
    | none => .next (illegalCommand w s')
    | some i => exec i s'

/-- The state in which the host has issued the word `w` (bits above the lowest `nbits` are 0), to be taken next. -/
def State.withFetchWord (s : State) (nbits w : Nat) : State := s.issue (BitVec.ofNat 64 (w % 2 ^ nbits))

end Sys2Proof.Machine
end

