-- ==== Sys2Proof/Machine/Assembler.lean ====
section
/-! DEFINITION. The assembler's text (30_encoding.md R95, R96): one command a line, a mnemonic and its operands with
commas between them. A tool of the host: the block itself is given words. -/

namespace Sys2Proof.Machine

/-- What one line of text is. -/
inductive AsmLine where
  /-- no command: white space or a comment only -/
  | empty
  | command (i : Instr)
  /-- an assembly error -/
  | error
deriving DecidableEq, Repr

def isSpace (c : Char) : Bool := c == ' ' || c == '\t'

/-- A text without the white space around it. -/
def trim (cs : List Char) : List Char := ((cs.dropWhile isSpace).reverse.dropWhile isSpace).reverse

/-- The parts of a text between its commas. -/
def splitCommas : List Char → List (List Char)
  | [] => [[]]
  | c :: cs =>
    if c = ',' then [] :: splitCommas cs
    else match splitCommas cs with
      | [] => [[c]]
      | part :: parts => (c :: part) :: parts

def decDigit (c : Char) : Option Nat := if 48 ≤ c.toNat ∧ c.toNat ≤ 57 then some (c.toNat - 48) else none

def hexDigit (c : Char) : Option Nat :=
  if 48 ≤ c.toNat ∧ c.toNat ≤ 57 then some (c.toNat - 48)
  else if 97 ≤ c.toNat ∧ c.toNat ≤ 102 then some (c.toNat - 87)
  else if 65 ≤ c.toNat ∧ c.toNat ≤ 70 then some (c.toNat - 55)
  else none

/-- The number the digits stand for, after those already read. -/
def digitsValue (base : Nat) (digit : Char → Option Nat) (acc : Nat) : List Char → Option Nat
  | [] => some acc
  | c :: cs => match digit c with
    | some d => digitsValue base digit (acc * base + d) cs
    | none => none

/-- A numeral: hexadecimal `0x...` or decimal (R95). -/
def numeral : List Char → Option Nat
  | [] => none
  | ['0', 'x'] => none
  | '0' :: 'x' :: ds => digitsValue 16 hexDigit 0 ds
  | ds => digitsValue 10 decDigit 0 ds

/-- A numeral that fits in `w` bits; one that does not is an error and is not truncated (R95). -/
def fitting (w : Nat) (cs : List Char) : Option (BitVec w) :=
  (numeral cs).bind fun n => if n < 2 ^ w then some (BitVec.ofNat w n) else none

/-- `EN`: `0` or `1` (R95). -/
def enOperand (cs : List Char) : Option Bool :=
  if cs = ['0'] then some false else if cs = ['1'] then some true else none

/-- The names of the interface modes (R95). -/
def modeNames : List (String × IfMode) :=
  [("other", .other), ("rgmii", .rgmii), ("rgmii-id", .rgmiiId), ("rgmii-rxid", .rgmiiRxid), ("rgmii-txid", .rgmiiTxid)]

/-- `MODE`: a name, or a numeral from 0 to 4 (R95). -/
def modeOperand (cs : List Char) : Option IfMode :=
  match modeNames.find? fun e => e.1.toList == cs with
  | some e => some e.2
  | none => (fitting 8 cs).bind IfMode.ofCode

/-- The mnemonics of the syntax table (R95). -/
def asmNames : List (String × Opcode) :=
  [("read", .read), ("write", .write), ("read.paged", .readPaged), ("write.paged", .writePaged), ("resolve", .resolve),
   ("intr.config", .configIntr), ("intr.ack", .ackIntr), ("init", .init), ("timing.config", .configTiming),
   ("led.config", .configLed), ("suspend", .suspend), ("resume", .resume)]

/-- The pseudo-instructions and the one command each expands to (R96). -/
def pseudoNames : List (String × Instr) := [("intr.enable", .intrEnable), ("intr.disable", .intrDisable)]

/-- The command of a mnemonic with its operands (R95). -/
def asmCommand (op : Opcode) (args : List (List Char)) : Option Instr :=
  match op, args with
  | .read, [a] => (fitting 16 a).map .read
  | .write, [a, v] => (fitting 16 a).bind fun a => (fitting 16 v).map (.write a)
  | .readPaged, [p, a] => (fitting 16 p).bind fun p => (fitting 16 a).map (.readPaged p)
  | .writePaged, [p, a, v] =>
    (fitting 16 p).bind fun p => (fitting 16 a).bind fun a => (fitting 16 v).map (.writePaged p a)
  | .resolve, [x] => (fitting 32 x).map .resolve
  | .configIntr, [e] => (enOperand e).map .configIntr
  | .ackIntr, [] => some .ackIntr
  | .init, [m] => (modeOperand m).map .init
  | .configTiming, [m] => (modeOperand m).map .configTiming
  | .configLed, [] => some .configLed
  | .suspend, [] => some .suspend
  | .resume, [] => some .resume
  | _, _ => none

/-- The operands after a mnemonic. -/
def operandTexts (rest : List Char) : List (List Char) :=
  if trim rest = [] then [] else (splitCommas rest).map trim

/-- The command a line's text (without its comment, trimmed) stands for. -/
def asmText (cs : List Char) : Option Instr :=
  let name := cs.takeWhile fun c => !isSpace c
  let args := operandTexts (cs.dropWhile fun c => !isSpace c)
  match pseudoNames.find? fun e => e.1.toList == name with
  | some e => if args = [] then some e.2 else none
  | none => match asmNames.find? fun e => e.1.toList == name with
    | some e => asmCommand e.2 args
    | none => none

/-- One line of assembler text (R95): comments start with `;`. -/
def assembleLine (line : List Char) : AsmLine :=
  let text := trim (line.takeWhile fun c => c != ';')
  if text = [] then .empty
  else match asmText text with
    | some i => .command i
    | none => .error

end Sys2Proof.Machine
end

