-- ==== Sys2Proof/Machine/Boot.lean ====
section
/-! DEFINITION. What the outside does to a chip instance that is no command: process start with a configuration
(41_profile_table.md R145, 70_reset_and_hazards.md R240), a core reset without a device power-on, and a device power-on
(R241). -/

namespace Sys2Proof.Machine

/-- Process start and device power-on with a given configuration (R145, R240): a table that fails a check is refused as
a configuration, before any command runs. -/
def boot (chip : Nat) (c : Cfg) : Host.Outcome State Fault Refusal :=
  if c.accepted then .next (.resetWith chip c) else .refused .configurationRefused

/-- A core reset without a device power-on (R240, R241): the core state, the log and the command index as at reset, no
command pending; the device stays as it was. -/
def coreReset (s : State) : State := { s with core := .reset, log := [], index := 0, commands := [] }

/-- A device power-on (R241): the device's registers as at reset; the core does not notice. -/
def devicePowerOn (s : State) : State := { s with dev := .powerOn s.cfg }

end Sys2Proof.Machine
end

