-- ==== Sys2Proof/Machine/System.lean ====
section
/-! DEFINITION. Several chip instances side by side (60_exceptions.md R229, 20_memory.md R66). Each is a separate
machine; they share only the immutable configuration. -/

namespace Sys2Proof.Machine

/-- The instances, by number. -/
abbrev System := List State

/-- The instances share one `S.cfg` (R20, R229). -/
def System.shares (y : System) (c : Cfg) : Prop := ∀ s ∈ y, s.cfg = c

/-- `n` instances at reset under one configuration, each its own chip (R229). -/
def System.start (n : Nat) (c : Cfg) : System := (List.range n).map fun k => .resetWith k c

/-- Instance `k` takes one step; the others stay as they are. A number with no instance steps nothing. -/
def System.stepAt (k : Nat) (y : System) : Host.Outcome System Fault Refusal :=
  match y[k]? with
  | none => .next y
  | some s =>
    match step s with
    | .next s' => .next (y.set k s')
    | .fault f => .fault f
    | .refused r => .refused r

end Sys2Proof.Machine
end

