-- ==== Sys2Proof/Safety.lean ====
section
/-! DEFINITION. The terms claims are stated in: the register at a location, what pending bits can become, what a log
says, the page window and its premise, the invariant of the state, and the runs of 70_reset_and_hazards.md R254. -/

namespace Sys2Proof.Machine

/-! ## Registers by location -/

/-- The register that address `a` reaches when the page is `p` (R51): what it is known to hold. -/
def State.cellAt (s : State) (p a : Reg) : Option Reg :=
  match locAt s.cfg p a with
  | .psReg => some s.dev.ps
  | .bank p a => s.bankCell p a
  | .flat a => s.flatCell a

/-- Address `a` reaches a storage register when the page is `p`: one that is not the page-select register, not a status
location, not volatile and not on an unimplemented page (R52, D12). -/
def storesAt (c : Cfg) (p a : Reg) : Bool :=
  match locAt c p a with
  | .psReg => false
  | .bank p a => c.isStorage p a
  | .flat _ => true

/-- Pending bits before and after the device has acted (R58): a bit that was set stays set. What is not yet drawn can
become anything. -/
def Grew : Option Reg → Option Reg → Prop
  | some v, some v' => v ||| v' = v'
  | some _, none => False
  | none, _ => True

/-- Every status location's pending bits only grew. -/
def PendingGrew (s t : State) : Prop := ∀ p a, Grew (s.pendingCell p a) (t.pendingCell p a)

/-- What the device does before the transaction `n` places ahead. -/
def State.eventAhead (s : State) (n : Nat) : DeviceEvent := s.draws.events.ahead (Config.freeEvent s.draws.chip) n

/-- The bits that an event sets at a location (R58). -/
def eventBits (ev : DeviceEvent) (p a : Reg) : Reg :=
  ev.foldl (fun x e => if e.1 = (p, a) then x ||| e.2 else x) 0

/-- The bits that the device sets at a status location before the `n` transactions from the one `k` places ahead on. -/
def State.setsAhead (s : State) (k n : Nat) (p a : Reg) : Reg :=
  (List.range n).foldl (fun x i => x ||| eventBits (s.eventAhead (k + i)) p a) 0

/-- Over `n` transactions the pending bits changed by nothing but the device's own events, except at the locations of
`ls` (each an address and the page it was reached at). -/
def PendingOnlySet (ls : List (Reg × Reg)) (n : Nat) (s t : State) : Prop :=
  ∀ p a v, (∀ l ∈ ls, locAt s.cfg l.1 l.2 ≠ .bank p a) → s.pendingCell p a = some v →
    t.pendingCell p a = some (if s.cfg.isStatus p a then v ||| s.setsAhead 0 n p a else v)

/-- Every banked and flat register is as it was, except at the locations of `ls`. -/
def SameRegsBut (ls : List (Reg × Reg)) (s t : State) : Prop :=
  (∀ p a, (∀ l ∈ ls, locAt s.cfg l.1 l.2 ≠ .bank p a) → t.bankCell p a = s.bankCell p a)
    ∧ ∀ a, (∀ l ∈ ls, locAt s.cfg l.1 l.2 ≠ .flat a) → t.flatCell a = s.flatCell a

/-- What a successful read of `a` while the page is `p` returned (`v`) and did (R52, R56, R57), as the last of the
command's first `n` transactions; `m` more follow it. -/
def ReadDone (n m : Nat) (p a v : Reg) (s t : State) : Prop :=
  match locAt s.cfg p a with
  | .psReg => v = p ∧ SameRegsBut [] s t ∧ PendingOnlySet [] (n + m) s t
  | .bank p a =>
    if s.cfg.isStatus p a then
      (∀ w, s.pendingCell p a = some w → v = w ||| s.setsAhead 0 n p a)
        ∧ t.pendingCell p a = some (s.setsAhead n m p a)
        ∧ SameRegsBut [] s t ∧ PendingOnlySet [(p, a)] (n + m) s t
    else if s.cfg.isStorage p a then
      (∀ w, s.bankCell p a = some w → v = w) ∧ t.bankCell p a = some v
        ∧ SameRegsBut [(p, a)] s t ∧ PendingOnlySet [] (n + m) s t
    else SameRegsBut [] s t ∧ PendingOnlySet [] (n + m) s t
  | .flat a =>
    (∀ w, s.flatCell a = some w → v = w) ∧ t.flatCell a = some v
      ∧ SameRegsBut [(p, a)] s t ∧ PendingOnlySet [] (n + m) s t

/-- What a write of `v` to `a` while the page was `p` did when it took effect (R53, R55, R37), in a command of `n`
transactions that changes nothing else. What PS holds after it is said apart. -/
def WriteDone (n : Nat) (p a v : Reg) (s t : State) : Prop :=
  match locAt s.cfg p a with
  | .psReg => SameRegsBut [] s t ∧ PendingOnlySet [] n s t
  | .bank p a =>
    if s.cfg.isStatus p a then
      t.pendingCell p a ≠ none ∧ SameRegsBut [] s t ∧ PendingOnlySet [(p, a)] n s t
    else if s.cfg.isImplemented p then
      t.bankCell p a = some v ∧ SameRegsBut [(p, a)] s t ∧ PendingOnlySet [] n s t
    else SameRegsBut [] s t ∧ PendingOnlySet [] n s t
  | .flat a => t.flatCell a = some v ∧ SameRegsBut [(p, a)] s t ∧ PendingOnlySet [] n s t

/-- The value the generic collaborator leaves for an address, if it names it (R74): the last one it names. -/
def genericCell (g : GenericAnswer) (a : Reg) : Option Reg :=
  ((g.left.filter fun e => e.1 == a).getLast?).map (·.2)

/-- The registers after a command with a generic call (R74): a default-page storage register, and a flat one, holds what
the collaborator left, known or not; every other register is as it was. The locations of `before` were also written
before the call, those of `after` after it. -/
def AfterGeneric (g : GenericAnswer) (before after : List (Reg × Reg)) (s t : State) : Prop :=
  (∀ a, s.cfg.isBanked a = true → s.cfg.isStorage 0x0000 a = true →
      (∀ l ∈ after, locAt s.cfg l.1 l.2 ≠ .bank 0x0000 a) → t.bankCell 0x0000 a = genericCell g a)
    ∧ (∀ p a, (p ≠ 0x0000 ∨ s.cfg.isStorage p a = false) →
      (∀ l ∈ before ++ after, locAt s.cfg l.1 l.2 ≠ .bank p a) → t.bankCell p a = s.bankCell p a)
    ∧ ∀ a, s.cfg.isBanked a = false → a ≠ s.cfg.pageSel →
      (∀ l ∈ after, locAt s.cfg l.1 l.2 ≠ .flat a) → t.flatCell a = genericCell g a

/-- What no command changes but for its own place in the stream: the configuration, the commands still to come and the
chip; and the command index goes up by one (R27, R29, R42). -/
def CommandFrame (s t : State) : Prop :=
  t.cfg = s.cfg ∧ t.commands = s.commands ∧ t.draws.chip = s.draws.chip ∧ t.index = s.index + 1

/-! ## What a log says -/

/-- The result of the last command of the log. -/
def State.lastResult (s : State) : Option Result :=
  match s.log.getLast? with
  | some (.cmd _ r) => some r
  | _ => none

def Ev.isCmd : Ev → Bool
  | .cmd _ _ => true
  | _ => false

def Ev.isPlat : Ev → Bool
  | .plat _ => true
  | _ => false

/-- The event is a bus transaction. -/
def Ev.isBus : Ev → Bool
  | .busR _ _ | .busW _ _ _ => true
  | _ => false

/-- The transport's error, where the event is a transaction that failed. -/
def Ev.busErr? : Ev → Option BusErr
  | .busR _ (.err e) | .busW _ _ (.err e) => some e
  | _ => none

/-- The event is a bus transaction at the address. -/
def Ev.atAddr (a : Reg) : Ev → Bool
  | .busR b _ | .busW b _ _ => b == a
  | _ => false

/-- The error of the first transaction that failed. -/
def firstBusErr (l : List Ev) : Option BusErr := l.findSome? Ev.busErr?

/-- The number of bus transactions. -/
def busCount (l : List Ev) : Nat := (l.filter Ev.isBus).length

/-- One event's effect on the interrupt state machine as R160's table has it: `CONFIG_INTR` that returned `Ok`. -/
def intrStep (x : IntrState) : Ev → IntrState
  | .cmd w .ok =>
    if w = encode .intrEnable then .enabled else if w = encode .intrDisable then .disabled else x
  | _ => x

/-- The interrupt state that a log leaves, from reset (R160, R167). -/
def intrAfter (l : List Ev) : IntrState := l.foldl intrStep .disabled

/-- The bus answer says that the transaction took effect: it succeeded, or failed after its effect (R54). -/
def landed : BusAnswer → Bool
  | .ok => true
  | .err _ took => took

/-- The transport's answer, as the log's reply. -/
def answerReply : BusAnswer → Reply Unit
  | .ok => .ok ()
  | .err e _ => .err e

/-- The platform provider's next answer. -/
def State.platformAhead (s : State) : PlatAnswer := s.draws.platform.ahead (Config.freePlatform s.draws.chip) 0

/-- The generic collaborator's next answer. -/
def State.genericAhead (s : State) : GenericAnswer := s.draws.generic.ahead (Config.freeGeneric s.draws.chip) 0

/-- The pair that `CONFIG_LED` uses: the stored one, or the one it derives (R184). -/
def State.ledPair (s : State) : Reg × Reg := s.core.led.getD (lookupPlatform s.cfg.platforms s.platformAhead)

/-! ## The events of a command that meets no failure -/

/-- A write transaction that succeeded. -/
def okWrite (e : Reg × Reg) : Ev := .busW e.1 e.2 (.ok ())

/-- A read transaction that succeeded. -/
def okRead (a v : Reg) : Ev := .busR a (.ok v)

/-- The three transactions of a paged access (R111, R116). -/
def pagedEvs (c : Cfg) (page : Reg) (operate : Ev) : List Ev :=
  [okWrite (c.pageSel, page), operate, okWrite (c.pageSel, 0x0000)]

/-- The six transactions of the timing step (R181), for the value read and the value written back. -/
def timingEvs (c : Cfg) (t : TimingBinding) (old new : Reg) : List Ev :=
  pagedEvs c t.page (okRead t.reg old) ++ pagedEvs c t.page (okWrite (t.reg, new))

/-- The platform query, if the LED step makes one (R184). -/
def platformEvs (s : State) : List Ev := if s.core.led = none then [.plat s.platformAhead] else []

/-- The transactions of the LED step (R185): none for the pair (0, 0). -/
def ledEvs (c : Cfg) (l : LedBinding) (pair : Reg × Reg) : List Ev :=
  if pair = (0x0000, 0x0000) then [] else (ledWrites c l pair).map okWrite ++ [okWrite (c.pageSel, 0x0000)]

/-- The page at which the LED and EEE registers are reached (R186): the last page written to PS. -/
def ledPage (c : Cfg) (sel : LedSelect) : Reg :=
  match sel with
  | .single p => p
  | .twoStep p1 extReg p2 => if extReg = c.pageSel then p2 else p1

/-- The locations the LED step writes, besides PS (R185, R186). -/
def ledLocs (c : Cfg) (l : LedBinding) : List (Reg × Reg) :=
  (match l.select with
    | .single _ => []
    | .twoStep p1 extReg _ => [(p1, extReg)])
    ++ [(ledPage c l.select, l.ledReg), (ledPage c l.select, l.eeeReg)]

/-- The `n` transactions from the one `k` places ahead on all succeed. -/
def BusOk (s : State) (k n : Nat) : Prop := ∀ i, i < n → s.busAhead (k + i) = .ok

/-- The command appended the events `l`, in order, and then its one `Cmd` event with the result `r` (R41, R110). -/
def Logged (i : Instr) (l : List Ev) (r : Result) (s t : State) : Prop :=
  t.log = s.log ++ l ++ [.cmd (encode i) r]

/-! ## The page window and the invariant -/

/-- The page window is open (R39): PS holds a page other than the default. -/
def State.WindowOpen (s : State) : Prop := s.dev.ps ≠ 0x0000

/-- The premise `PS_CLEAN` (R243). -/
def State.PsClean (s : State) : Prop := s.dev.ps = 0x0000

/-- No command has been refused: what a run must show to count as going right (R24). -/
def State.NoRefusal (s : State) : Prop := s.core.refused = false

/-- The invariant of the state: it holds at reset and every step keeps it. -/
structure State.Inv (s : State) : Prop where
  /-- the register stores are in canonical form -/
  bankWf : s.dev.bank.wf
  flatWf : s.dev.flat.wf
  pendingWf : s.dev.pending.wf
  /-- the banked cells are at banked addresses (R31, R51) -/
  bankBanked : ∀ c ∈ s.dev.bank, ∃ p a, s.cfg.isBanked a = true ∧ c.1 = locKey p a
  /-- the flat cells are at addresses that are neither banked nor the page-select address (R31) -/
  flatUnbanked : ∀ c ∈ s.dev.flat, ∃ a, s.cfg.isBanked a = false ∧ a ≠ s.cfg.pageSel ∧ c.1 = a.toNat
  /-- pending bits are kept for the locations of `P_STATUS_REGS` only (R32) -/
  pendingAtStatus : ∀ c ∈ s.dev.pending, ∃ p a, s.cfg.isStatus p a = true ∧ c.1 = locKey p a
  /-- the configuration passes the checks of R145 -/
  accepted : s.cfg.accepted = true
  /-- the bound index is in the table (R21) -/
  boundInTable : ∀ i, s.core.bound = some i → i < s.cfg.profiles.length
  /-- a LedProfile is derived only on a profile with an LED binding (R184) -/
  ledBound : s.core.led ≠ none → ∃ p l, s.profile? = some p ∧ p.init.bind InitBinding.led = some l
  /-- the command index counts the commands of the log (R42) -/
  indexCounts : s.index = (s.log.filter Ev.isCmd).length
  /-- the mark is set exactly when the log holds a refusal (R24) -/
  refusedLogged : s.core.refused = true ↔ ∃ w r, Ev.cmd w (.refuse r) ∈ s.log
  /-- at most one platform query, and exactly one once the pair is derived (R184) -/
  platformOnce : (s.log.filter Ev.isPlat).length = if s.core.led.isSome then 1 else 0
  /-- `IntrState` records the last configuration that succeeded (R160, R167) -/
  intrLogged : s.core.intr = intrAfter s.log

/-! ## The runs of R254 -/

/-- The host's next word does not write a nonzero page to the page-select register by a plain WRITE (R254, condition
3). -/
def KeepsPageSelect (s : State) : Prop :=
  ∀ w rest v, s.commands = w :: rest → decode w = some (.write s.cfg.pageSel v) → v = 0x0000

/-- The step from `s` to `t` was a command whose last transaction is a restoring write of page 0 that failed and took
no effect (R247; against R254, condition 4). A plain WRITE restores nothing: its one transaction is the host's own. -/
def RestoreLost (s t : State) : Prop :=
  ∃ l e w r, t.log = s.log ++ l ++ [.busW s.cfg.pageSel 0x0000 (.err e), .cmd w r]
    ∧ s.busAhead (busCount l) = .err e false
    ∧ ∀ a v, decode w ≠ some (.write a v)

/-- The host gives the block any words to run next; it has no other way in (R6, R67, R232). -/
def State.withCommands (s : State) (ws : List Word) : State := { s with commands := ws }

/-- A run under the conditions 2, 3 and 4 of R254: whole commands one after another, none of which writes a nonzero
page to PS by a plain WRITE, and every restoring write succeeds or takes effect. -/
inductive CleanRun : State → State → Prop where
  | start (s : State) : CleanRun s s
  | hosts {s t : State} (ws : List Word) : CleanRun s t → CleanRun s (t.withCommands ws)
  | step {s t u : State} : CleanRun s t → KeepsPageSelect t → Machine.step t = .next u → ¬ RestoreLost t u →
      CleanRun s u

end Sys2Proof.Machine
end

