-- ==== Sys2Proof/Certificates/Slice0/Obligations.lean ====
section
/-! DEFINITION. The statements for the provers. Each docstring names the rule of spec/ it states or rests on. -/

open Sys2Proof Sys2Proof.Machine

/-! ## Encoding -/

/-- Every command's word decodes to the command, with every operand (R82 to R88, R97). -/
def Obligations.DecodeOfEncodeIsTheCommand : Prop := ∀ i : Instr, decode (encode i) = some i

/-- A word that decodes to a command is that command's one word: no bit of it is dropped (R80, R81, R91). -/
def Obligations.EveryDecodedWordIsTheEncoding : Prop := ∀ (w : Word) (i : Instr), decode w = some i → encode i = w

/-- The twelve opcodes of R89. -/
def legalOpcodes : List (BitVec 8) := [0x01, 0x02, 0x03, 0x04, 0x10, 0x20, 0x21, 0x30, 0x31, 0x32, 0x40, 0x41]

/-- The state after a refused command (R215): the mark is set, the log has its `Cmd` event and the index goes up by one
(R42); nothing else differs, not even an oracle. -/
def afterRefusal (w : Word) (r : Reason) (s : State) : State :=
  { s with core := { s.core with refused := true }, log := s.log ++ [.cmd w (.refuse r)], index := s.index + 1 }

/-- R90: every opcode outside the map is illegal, there are 244 of them, and a word with one is refused with
`IllegalCommand`, bound or not: no transaction, and no core state but the mark changes. -/
def Obligations.IllegalOpcodesAreRefused : Prop :=
  ((List.range 256).filter fun n => !legalOpcodes.contains (BitVec.ofNat 8 n)).length = 244
    ∧ ∀ (s : State) (w : Word) (rest : List Word), s.commands = w :: rest → w.extractLsb' 56 8 ∉ legalOpcodes →
      decode w = none ∧ step s = .next (afterRefusal w .illegalCommand { s with commands := rest })

/-- The opcodes with the reserved bits their formats leave (R82 to R87, R91). -/
def reservedBits : List (BitVec 8 × Word) :=
  [(0x01, 0x00FFFFFF0000FFFF), (0x02, 0x00FFFFFF00000000), (0x03, 0x00FF00000000FFFF), (0x04, 0x00FF000000000000),
   (0x10, 0x00FFFFFF00000000), (0x20, 0x00FFFFFFFFFFFFFE), (0x21, 0x00FFFFFFFFFFFFFF), (0x30, 0x00FFFFFFFFFFFF00),
   (0x31, 0x00FFFFFFFFFFFF00), (0x32, 0x00FFFFFFFFFFFFFF), (0x40, 0x00FFFFFFFFFFFFFF), (0x41, 0x00FFFFFFFFFFFFFF)]

/-- R91: a word with a legal opcode and a nonzero reserved bit is refused with `IllegalCommand`; the reserved bits of an
opcode are those of its row's mask outside [63:56]. -/
def Obligations.NonzeroReservedBitsAreRefused : Prop :=
  (∀ r ∈ opcodeTable, (r.pattern.extractLsb' 56 8, r.mask &&& 0x00FFFFFFFFFFFFFF) ∈ reservedBits)
    ∧ ∀ (s : State) (w : Word) (rest : List Word) (e : BitVec 8 × Word), s.commands = w :: rest → e ∈ reservedBits →
      w.extractLsb' 56 8 = e.1 → w &&& e.2 ≠ 0 →
      step s = .next (afterRefusal w .illegalCommand { s with commands := rest })

/-- R92: an INIT or CONFIG_TIMING word whose mode field is `0x05` or above is refused with `IllegalCommand`. -/
def Obligations.ReservedModesAreRefused : Prop :=
  ∀ (s : State) (w : Word) (rest : List Word), s.commands = w :: rest →
    (w.extractLsb' 56 8 = 0x30 ∨ w.extractLsb' 56 8 = 0x31) → 5 ≤ (w.extractLsb' 0 8).toNat →
    step s = .next (afterRefusal w .illegalCommand { s with commands := rest })

/-- Words written out from the formats of R82 to R87 (95_test_vectors.md V-DEC) decode to what they stand for. -/
def Obligations.SampleWordsDecode : Prop :=
  decode 0x0100000000120000 = some (.read 0x0012)
    ∧ decode 0x02000000001F0A42 = some (.write 0x001F 0x0a42)
    ∧ decode 0x04000A4200120010 = some (.writePaged 0x0a42 0x0012 0x0010)
    ∧ decode 0x10000000ABDCC916 = some (.resolve 0xabdcc916)
    ∧ decode 0x2000000000000001 = some (.configIntr true)
    ∧ decode 0x3000000000000004 = some (.init .rgmiiTxid)
    ∧ decode 0x4100000000000000 = some .resume
    ∧ decode 0x0100000000120001 = none

/-- R96: the two pseudo-instructions, and the one command and word each expands to. -/
def Obligations.PseudoInstructionsExpand : Prop :=
  assembleLine "intr.enable".toList = .command (.configIntr true)
    ∧ assembleLine "intr.disable".toList = .command (.configIntr false)
    ∧ pseudoNames.length = 2
    ∧ encode (.configIntr true) = 0x2000000000000001 ∧ encode (.configIntr false) = 0x2000000000000000

/-! ## The step -/

/-- R110: the next word is decoded first; where it decodes to a command, the step is that command's `exec` once the word
is taken from the stream, and the word is the one that encodes the command. -/
def Obligations.StepRunsTheDecodedCommand : Prop :=
  ∀ (s : State) (w : Word) (rest : List Word) (i : Instr), s.commands = w :: rest → decode w = some i →
    step s = exec i { s with commands := rest } ∧ encode i = w

/-- Every step answers a next state: nothing the block does is a fault or a stop (R210; 93_implementation_defined.md).
With no word issued it changes nothing, which is the model's choice (assumption log 2). -/
def Obligations.EveryStepAnswersANextState : Prop := ∀ s : State, ∃ t, step s = .next t ∧ (s.commands = [] → t = s)

/-- R110 and R42: a command appends its own events, then exactly one `Cmd` event with its word, and the index goes up by
one. -/
def Obligations.EachCommandLogsOneResult : Prop :=
  ∀ (i : Instr) (s t : State), exec i s = .next t →
    CommandFrame s t ∧ ∃ l r, Logged i l r s t ∧ ∀ e ∈ l, e.isCmd = false

/-- R29: the platform table, like the profile table, is never mutated: no command writes the configuration. -/
def Obligations.NoCommandWritesTheTables : Prop :=
  ∀ s t : State, step s = .next t → t.cfg.platforms = s.cfg.platforms ∧ t.cfg.profiles = s.cfg.profiles

/-- Every command is a bounded sequence (R5, R25): at most eleven transactions, and at most thirteen events. -/
def Obligations.CommandsAreBounded : Prop :=
  ∀ (i : Instr) (s t : State), exec i s = .next t →
    ∃ l r, Logged i l r s t ∧ busCount l ≤ 11 ∧ l.length ≤ 12

/-! ## Refusals -/

/-- R215: a command refused has made no transaction, drawn nothing, changed no core state but the mark, and logged only
its `Cmd` event. -/
def Obligations.RefusalChangesOnlyTheMark : Prop :=
  ∀ (s t : State) (w : Word) (rest : List Word) (r : Reason), s.commands = w :: rest → step s = .next t →
    t.lastResult = some (.refuse r) → t = afterRefusal w r { s with commands := rest }

/-- R24: the mark is false at reset, becomes true when any command is refused, and no command clears it. -/
def Obligations.RefusedMarkIsSticky : Prop :=
  State.reset.core.refused = false
    ∧ ∀ s t : State, s.commands ≠ [] → step s = .next t →
      (t.core.refused = true ↔ s.core.refused = true ∨ ∃ r, t.lastResult = some (.refuse r))

/-- R110 step 2 and R242: before a RESOLVE has succeeded every other command is refused `Unbound`. -/
def Obligations.UnboundCommandsAreRefused : Prop :=
  ∀ (i : Instr) (s : State), s.core.bound = none → (∀ id, i ≠ .resolve id) →
    exec i s = .next (afterRefusal (encode i) .unbound s)

/-- R114 and R115: a paged command on a profile without the paged binding is refused `NoPagedBinding`. -/
def Obligations.MissingPagedBindingIsRefused : Prop :=
  ∀ (s : State) (q : Profile) (page addr value : Reg), s.profile? = some q →
    (q.pagedRead = false →
      exec (.readPaged page addr) s = .next (afterRefusal (encode (.readPaged page addr)) .noPagedBinding s))
    ∧ (q.pagedWrite = false →
      exec (.writePaged page addr value) s
        = .next (afterRefusal (encode (.writePaged page addr value)) .noPagedBinding s))

/-! ## RESOLVE and the profile table -/

/-- R141: a profile matches by the masked comparison; bits outside the mask never affect it; mask 0 matches every
identity, and the full mask exactly one. -/
def Obligations.MatchUsesTheMaskedBits : Prop :=
  ∀ (p : Profile) (x y : Ident),
    (p.matchesId x = true ↔ x &&& p.mask = p.id &&& p.mask)
    ∧ (x &&& p.mask = y &&& p.mask → (p.matchesId x = true ↔ p.matchesId y = true))
    ∧ (∀ z : Ident, z &&& p.mask = p.id &&& p.mask → ({ p with id := z }.matchesId x = p.matchesId x))
    ∧ (p.mask = 0x00000000 → p.matchesId x = true)
    ∧ (p.mask = 0xFFFFFFFF → (p.matchesId x = true ↔ x = p.id))

/-- R142: RESOLVE is refused `Rebind` once bound; else the first profile in declaration order that matches is bound and
its index is the result; with none the result is `NotFound` and nothing is bound. No transaction, no draw. -/
def Obligations.ResolveBindsTheFirstMatch : Prop :=
  ∀ (s : State) (id : Ident),
    (∀ b, s.core.bound = some b → exec (.resolve id) s = .next (afterRefusal (encode (.resolve id)) .rebind s))
    ∧ (∀ (i : Nat) (p : Profile), s.core.bound = none → s.cfg.profiles[i]? = some p →
        id &&& p.mask = p.id &&& p.mask →
        (∀ j q, j < i → s.cfg.profiles[j]? = some q → id &&& q.mask ≠ q.id &&& q.mask) →
        exec (.resolve id) s = .next { s with
          core := { s.core with bound := some i }
          log := s.log ++ [.cmd (encode (.resolve id)) (.okIndex i)]
          index := s.index + 1 })
    ∧ (s.core.bound = none → (∀ q ∈ s.cfg.profiles, id &&& q.mask ≠ q.id &&& q.mask) →
        exec (.resolve id) s = .next { s with
          log := s.log ++ [.cmd (encode (.resolve id)) .notFound]
          index := s.index + 1 })

/-- R149, its first sentences: two profiles overlap, as the rule computes it, exactly when some identity matches both;
and an identity that selects a profile matches none of the earlier ones. (That the identities of both go to the earlier
of the two holds where no third profile stands before it.) -/
def Obligations.OverlapMeansACommonIdentity : Prop :=
  (∀ p q : Profile, p.overlaps q = true ↔ ∃ x, p.matchesId x = true ∧ q.matchesId x = true)
    ∧ ∀ (ps : List Profile) (x : Ident) (i j : Nat) (p : Profile), resolveIndex ps x = some j → i < j →
      ps[i]? = some p → p.matchesId x = false

/-- R213: `NotFound` is raised only by RESOLVE, when no profile matches; it makes no transaction and leaves
`Bound == none`. -/
def Obligations.NotFoundIsOnlyResolves : Prop :=
  ∀ (i : Instr) (s t : State), exec i s = .next t → t.lastResult = some .notFound →
    ∃ id, i = .resolve id ∧ (∀ q ∈ s.cfg.profiles, id &&& q.mask ≠ q.id &&& q.mask)
      ∧ Logged i [] .notFound s t ∧ t.core.bound = none ∧ t.dev = s.dev

/-- R151: the bound profile cannot change: once `Bound` is written no command writes it, only a successful RESOLVE
writes it first, and the record it names stays the same. -/
def Obligations.BoundIsWrittenOnce : Prop :=
  ∀ (i : Instr) (s t : State), exec i s = .next t →
    (∀ b, s.core.bound = some b → t.core.bound = some b ∧ t.profile? = s.profile?)
    ∧ (s.core.bound = none → t.core.bound ≠ none →
        ∃ id b, i = .resolve id ∧ t.core.bound = some b ∧ t.lastResult = some (.okIndex b))

/-- R146 and R147: from reset, identity `0x001cc916` binds a gigabit, paged, LED-capable profile whose interrupt-enable
register is on page `0x0a42` with mask `0x0010`, and identity `0x00008201` binds a profile with no interrupt bindings.
What the reset configuration is, is the model's choice (assumption log 1). -/
def Obligations.KnownIdentitiesBindTheirProfiles : Prop :=
  (∃ t f, exec (.resolve 0x001cc916) State.reset = .next t ∧ t.profile? = some f
      ∧ f.mask = 0x001fffff ∧ f.id &&& 0x001fffff = 0x001cc916 ∧ f.features = .gigabit
      ∧ f.pagedRead = true ∧ f.pagedWrite = true ∧ (∃ i l, f.init = some i ∧ i.led = some l)
      ∧ ∃ r, f.intrEnable = some { reg := r, page := some 0x0a42, mask := 0x0010 })
    ∧ ∃ t b, exec (.resolve 0x00008201) State.reset = .next t ∧ t.profile? = some b
      ∧ b.intrEnable = none ∧ b.intrAck = none

/-! ## Reset and configuration -/

/-- R40, the values the spec gives, for every chip and every configuration: the core state, PS, the banked registers by
`P_INIT_CONTENTS` or unknown, no pending bits drawn, an empty log and index 0. (Flat registers: assumption log 5.) -/
def Obligations.ResetLeavesTheSpecifiedValues : Prop :=
  ∀ (chip : Nat) (c : Cfg),
    (State.resetWith chip c).core = { bound := none, intr := .disabled, led := none, refused := false }
    ∧ (State.resetWith chip c).cfg = c ∧ (State.resetWith chip c).dev.ps = 0x0000
    ∧ (∀ p a, c.isBanked a = true → (State.resetWith chip c).bankCell p a = c.initContents.lookup (p, a))
    ∧ (∀ p a, c.initContents.lookup (p, a) = none → (State.resetWith chip c).bankCell p a = none)
    ∧ (∀ p a, (State.resetWith chip c).pendingCell p a = none)
    ∧ (State.resetWith chip c).log = [] ∧ (State.resetWith chip c).index = 0

/-- R145 with R180's constraint: a configuration is taken exactly when every profile passes the seven named checks and
the delay modes are two of the RGMII codes; else it is refused before any command runs. That the second constraint is
checked with the first is the model's choice (assumption log 13). -/
def Obligations.BootRefusesIllFormedTables : Prop :=
  ∀ (chip : Nat) (c : Cfg),
    let good := (∀ p ∈ c.profiles,
        (∀ b, p.intrEnable = some b → b.mask ≠ 0)
        ∧ (∀ b, p.intrEnable = some b → b.page ≠ none → p.pagedWrite = true)
        ∧ (∀ b, p.intrAck = some b → b.page ≠ none → p.pagedRead = true)
        ∧ (∀ i, p.init = some i → i.timing ≠ none → p.pagedRead = true ∧ p.pagedWrite = true)
        ∧ (∀ i t, p.init = some i → i.timing = some t → ∃ n, n < 16 ∧ t.bit = bit n)
        ∧ (∀ b, p.intrEnable = some b → b.reg ≠ c.pageSel) ∧ (∀ b, p.intrAck = some b → b.reg ≠ c.pageSel)
        ∧ (∀ i t, p.init = some i → i.timing = some t → t.reg ≠ c.pageSel)
        ∧ (∀ i l, p.init = some i → i.led = some l → l.ledReg ≠ c.pageSel ∧ l.eeeReg ≠ c.pageSel)
        ∧ (∀ d, p.suspend = some d → d.reg ≠ c.pageSel) ∧ (∀ d, p.resume = some d → d.reg ≠ c.pageSel)
        ∧ (p.suspend = none ↔ p.resume = none)
        ∧ ∀ d e, p.suspend = some d → p.resume = some e → d.reg = e.reg)
      ∧ ∃ m n : IfMode, m ≠ n ∧ m ≠ .other ∧ n ≠ .other ∧ c.txDelayModes = [m, n]
    (good → boot chip c = .next (.resetWith chip c)) ∧ (¬ good → boot chip c = .refused .configurationRefused)

/-- R241: a core reset without a device power-on leaves the device as it was; after a device power-on PS is 0, and the
core does not notice. The two operations stand outside the step, which is the model's choice (assumption log 12). -/
def Obligations.CoreAndDeviceResetApart : Prop :=
  ∀ s : State,
    (coreReset s).dev = s.dev ∧ (coreReset s).core = CoreState.reset ∧ (coreReset s).log = [] ∧ (coreReset s).cfg = s.cfg
    ∧ (devicePowerOn s).dev.ps = 0x0000 ∧ (devicePowerOn s).core = s.core ∧ (devicePowerOn s).log = s.log
    ∧ ∀ p a, s.cfg.initContents.lookup (p, a) = none → (devicePowerOn s).bankCell p a = none

/-! ## Transactions -/

/-- R58: before a transaction the device may set any bits of any pending bits, and does nothing else: PS, the registers
and the core stay as they were. -/
def Obligations.DeviceOnlySetsPendingBits : Prop :=
  ∀ s : State,
    (∀ p a v, s.cfg.isStatus p a = true → s.pendingCell p a = some v →
        (deviceActs s).pendingCell p a = some (v ||| eventBits (s.eventAhead 0) p a))
    ∧ (∀ p a, s.cfg.isStatus p a = false → (deviceActs s).pendingCell p a = s.pendingCell p a)
    ∧ (deviceActs s).dev.ps = s.dev.ps ∧ (deviceActs s).dev.bank = s.dev.bank ∧ (deviceActs s).dev.flat = s.dev.flat
    ∧ (deviceActs s).core = s.core ∧ (deviceActs s).log = s.log

/-- R55: a successful write to the page-select address sets PS to the value written, whatever it is; from then on every
banked address reaches that page's bank; no bank's contents change. -/
def Obligations.PageSelectWriteSetsPs : Prop :=
  ∀ (s : State) (v : Reg), s.busAhead 0 = .ok →
    (memWrite s.cfg.pageSel v s).1 = .ok () ∧ (memWrite s.cfg.pageSel v s).2.dev.ps = v
    ∧ (∀ a, s.cfg.isBanked a = true → (memWrite s.cfg.pageSel v s).2.loc a = .bank v a)
    ∧ ∀ p a, (memWrite s.cfg.pageSel v s).2.bankCell p a = s.bankCell p a

/-- R54: a transaction can fail whatever its address; a failed write took its full effect, as a successful one has it,
or none at all; a failed read cleared its status location's pending bits or not, and changed nothing else. -/
def Obligations.FailedTransactionTookEffectOrNot : Prop :=
  ∀ (s : State) (a v : Reg) (e : BusErr) (took : Bool), s.busAhead 0 = .err e took →
    (memWrite a v s).1 = .err e ∧ (memRead a s).1 = .err e
    ∧ (memWrite a v s).2.dev.ps = (if took ∧ a = s.cfg.pageSel then v else s.dev.ps)
    ∧ (took = true → WriteDone 1 s.dev.ps a v s (memWrite a v s).2)
    ∧ (took = false → SameRegsBut [] s (memWrite a v s).2 ∧ PendingOnlySet [] 1 s (memWrite a v s).2)
    ∧ (memRead a s).2.dev.ps = s.dev.ps ∧ SameRegsBut [] s (memRead a s).2
    ∧ (took = false → PendingOnlySet [] 1 s (memRead a s).2)
    ∧ (took = true → PendingOnlySet [(s.dev.ps, a)] 1 s (memRead a s).2
        ∧ ∀ p a', locAt s.cfg s.dev.ps a = .bank p a' → s.cfg.isStatus p a' = true →
          (memRead a s).2.pendingCell p a' = some 0x0000)

/-! ## READ, WRITE, READ_PAGED, WRITE_PAGED -/

/-- R112: READ whose transaction succeeds completes with the value read at the current page; one event; no flag, no
other register and no pending bit changes but as the read itself and the device's events say (R52, R56, R57). -/
def Obligations.ReadReturnsTheRegister : Prop :=
  ∀ (s : State) (q : Profile) (a : Reg), s.profile? = some q → s.busAhead 0 = .ok →
    ∃ t v, exec (.read a) s = .next t ∧ Logged (.read a) [okRead a v] (.okValue v) s t ∧ CommandFrame s t
      ∧ t.core = s.core ∧ t.dev.ps = s.dev.ps ∧ ReadDone 1 0 s.dev.ps a v s t

/-- R113: WRITE whose transaction succeeds completes with `Ok`; the register that the address reaches at the current page
holds the value; the page-select address sets PS (R55). -/
def Obligations.WriteStoresTheValue : Prop :=
  ∀ (s : State) (q : Profile) (a v : Reg), s.profile? = some q → s.busAhead 0 = .ok →
    ∃ t, exec (.write a v) s = .next t ∧ Logged (.write a v) [okWrite (a, v)] .ok s t ∧ CommandFrame s t
      ∧ t.core = s.core ∧ t.dev.ps = (if a = s.cfg.pageSel then v else s.dev.ps) ∧ WriteDone 1 s.dev.ps a v s t

/-- R114 and R111: READ_PAGED whose three transactions succeed completes with the value read on the page, and PS is 0;
the page-select address reads as the page. -/
def Obligations.PagedReadReturnsTheRegister : Prop :=
  ∀ (s : State) (q : Profile) (page a : Reg), s.profile? = some q → q.pagedRead = true → BusOk s 0 3 →
    ∃ t v, exec (.readPaged page a) s = .next t
      ∧ Logged (.readPaged page a) (pagedEvs s.cfg page (okRead a v)) (.okValue v) s t ∧ CommandFrame s t
      ∧ t.core = s.core ∧ t.dev.ps = 0x0000 ∧ ReadDone 2 1 page a v s t

/-- R115 and R111: WRITE_PAGED whose three transactions succeed completes with `Ok`; the register on the page holds the
value, and PS is 0. -/
def Obligations.PagedWriteStoresTheValue : Prop :=
  ∀ (s : State) (q : Profile) (page a v : Reg), s.profile? = some q → q.pagedWrite = true → BusOk s 0 3 →
    ∃ t, exec (.writePaged page a v) s = .next t
      ∧ Logged (.writePaged page a v) (pagedEvs s.cfg page (okWrite (a, v))) .ok s t ∧ CommandFrame s t
      ∧ t.core = s.core ∧ t.dev.ps = 0x0000 ∧ WriteDone 3 page a v s t

/-- R116: the transactions and the result of a paged access for each outcome; the last transaction is always a write of 0
to the page-select register. -/
def Obligations.PagedAccessOutcomes : Prop :=
  ∀ (s : State) (page a v : Reg),
    let ps := s.cfg.pageSel
    let rd := pagedAccess page (memRead a) s
    let wr := pagedAccess page (memWrite a v) s
    (s.busAhead 0 = .ok → s.busAhead 1 = .ok →
      (∃ x, rd.1 = (match s.busAhead 2 with | .ok => .ok x | .err e _ => .err e)
        ∧ rd.2.log = s.log ++ [okWrite (ps, page), okRead a x, .busW ps 0x0000 (answerReply (s.busAhead 2))])
      ∧ wr.1 = answerReply (s.busAhead 2)
      ∧ wr.2.log = s.log ++ [okWrite (ps, page), okWrite (a, v), .busW ps 0x0000 (answerReply (s.busAhead 2))])
    ∧ (∀ e took, s.busAhead 0 = .err e took →
      rd.1 = .err e ∧ wr.1 = .err e
      ∧ rd.2.log = s.log ++ [.busW ps page (.err e), .busW ps 0x0000 (answerReply (s.busAhead 1))]
      ∧ wr.2.log = s.log ++ [.busW ps page (.err e), .busW ps 0x0000 (answerReply (s.busAhead 1))])
    ∧ (∀ e took, s.busAhead 0 = .ok → s.busAhead 1 = .err e took →
      rd.1 = .err e ∧ wr.1 = .err e
      ∧ rd.2.log = s.log ++ [okWrite (ps, page), .busR a (.err e), .busW ps 0x0000 (answerReply (s.busAhead 2))]
      ∧ wr.2.log = s.log ++ [okWrite (ps, page), .busW a v (.err e), .busW ps 0x0000 (answerReply (s.busAhead 2))])

/-- R117: after a paged access PS is 0 if the restoring write succeeded or took effect; otherwise it holds what the
select and the operation left there, whatever their outcomes: the page if the select took effect (and the value of a
write to the page-select register), or what it held before. -/
def Obligations.PagedAccessRestoresPageZero : Prop :=
  ∀ (s : State) (page a v : Reg),
    let restored := landed (s.busAhead (if s.busAhead 0 = .ok then 2 else 1))
    let selected := if landed (s.busAhead 0) then page else s.dev.ps
    (pagedAccess page (memRead a) s).2.dev.ps = (if restored then 0x0000 else selected)
    ∧ (pagedAccess page (memWrite a v) s).2.dev.ps =
        (if restored then 0x0000
         else if s.busAhead 0 = .ok ∧ a = s.cfg.pageSel ∧ landed (s.busAhead 1) then v else selected)

/-! ## Errors -/

/-- R212: `BusError(e)` is raised by a transaction that yields `err(e)` and by nothing else, the first to fail giving the
error (R219). The one exception is the LED step inside INIT. INIT's events are those that CONFIG_TIMING logs on the same
state and then, if none of these is a failure, those of the LED step: the first failure among the former is the result
`BusError(e)`, and the first among the latter becomes `ledStatus`. -/
def Obligations.BusErrorIsTheFirstFailedTransaction : Prop :=
  ∀ (i : Instr) (s t : State) (l : List Ev) (r : Result) (e : BusErr), exec i s = .next t → Logged i l r s t →
    ((∀ m, i ≠ .init m) → (firstBusErr l = some e ↔ r = .busError e) ∧ r ≠ .okLed (.busError e))
    ∧ ∀ m, i = .init m →
      ∃ u timing led r', exec (.configTiming m) s = .next u ∧ Logged (.configTiming m) timing r' s u ∧ l = timing ++ led
        ∧ (r = .busError e ↔ firstBusErr timing = some e)
        ∧ (firstBusErr timing ≠ none → led = [])
        ∧ (r = .okLed (.busError e) ↔ firstBusErr timing = none ∧ firstBusErr led = some e)

/-- R250: a pending condition stays pending until its status register is accessed: over a command that makes no
transaction at its address, every pending bit stays set. -/
def Obligations.PendingStaysUntilAccessed : Prop :=
  ∀ (i : Instr) (s t : State) (l : List Ev) (r : Result) (p a : Reg), exec i s = .next t → Logged i l r s t →
    (∀ ev ∈ l, ev.atAddr a = false) → Grew (s.pendingCell p a) (t.pendingCell p a)

/-! ## CONFIG_INTR and ACK_INTR -/

/-- R160: `IntrState` changes on a CONFIG_INTR that returns `Ok`, to what it asks for, and on nothing else. -/
def Obligations.IntrStateFollowsConfigIntr : Prop :=
  ∀ (i : Instr) (s t : State), exec i s = .next t →
    (∀ en, i = .configIntr en → t.lastResult = some .ok → t.core.intr = if en then .enabled else .disabled)
    ∧ (∀ en, i = .configIntr en → t.lastResult ≠ some .ok → t.core.intr = s.core.intr)
    ∧ ((∀ en, i ≠ .configIntr en) → t.core.intr = s.core.intr)

/-- R161: CONFIG_INTR whose transactions succeed completes with `Ok` and sets `IntrState`; it writes the whole mask, or
0, to the interrupt-enable register, plain or paged, and without the binding makes no transaction. -/
def Obligations.ConfigIntrWritesTheEnableRegister : Prop :=
  ∀ (s : State) (q : Profile) (en : Bool), s.profile? = some q → s.cfg.accepted = true →
    let x : IntrState := if en then .enabled else .disabled
    (q.intrEnable = none → ∃ t, exec (.configIntr en) s = .next t ∧ Logged (.configIntr en) [] .ok s t
      ∧ CommandFrame s t ∧ t.core = { s.core with intr := x } ∧ t.dev = s.dev)
    ∧ (∀ b, q.intrEnable = some b → b.page = none → s.busAhead 0 = .ok →
      let v := if en then b.mask else 0x0000
      ∃ t, exec (.configIntr en) s = .next t ∧ Logged (.configIntr en) [okWrite (b.reg, v)] .ok s t
        ∧ CommandFrame s t ∧ t.core = { s.core with intr := x } ∧ t.dev.ps = s.dev.ps
        ∧ WriteDone 1 s.dev.ps b.reg v s t)
    ∧ (∀ b pg, q.intrEnable = some b → b.page = some pg → BusOk s 0 3 →
      let v := if en then b.mask else 0x0000
      ∃ t, exec (.configIntr en) s = .next t
        ∧ Logged (.configIntr en) (pagedEvs s.cfg pg (okWrite (b.reg, v))) .ok s t
        ∧ CommandFrame s t ∧ t.core = { s.core with intr := x } ∧ t.dev.ps = 0x0000 ∧ WriteDone 3 pg b.reg v s t)

/-- R163: of repeated CONFIG_INTR commands with the same operand that return `Ok`, each makes the same transactions and
leaves the same value in the interrupt-enable register and the same `IntrState`. -/
def Obligations.ConfigIntrIsIdempotent : Prop :=
  ∀ (s t u : State) (q : Profile) (en : Bool), s.profile? = some q → s.cfg.accepted = true → s.PsClean →
    exec (.configIntr en) s = .next t → t.lastResult = some .ok →
    exec (.configIntr en) t = .next u → u.lastResult = some .ok →
    (∃ l, Logged (.configIntr en) l .ok s t ∧ Logged (.configIntr en) l .ok t u)
    ∧ t.core.intr = u.core.intr
    ∧ ∀ b, q.intrEnable = some b → storesAt s.cfg (b.page.getD 0) b.reg = true →
      t.cellAt (b.page.getD 0) b.reg = some (if en then b.mask else 0x0000)
      ∧ u.cellAt (b.page.getD 0) b.reg = some (if en then b.mask else 0x0000)

/-- R164: enable then disable, both `Ok`, leaves the interrupt-enable register at 0 and `IntrState` disabled; the reverse
order leaves it at the mask, enabled. -/
def Obligations.EnableThenDisableClears : Prop :=
  ∀ (s t u : State) (q : Profile) (b : IerBinding) (en : Bool), s.profile? = some q → s.cfg.accepted = true →
    s.PsClean → q.intrEnable = some b → storesAt s.cfg (b.page.getD 0) b.reg = true →
    exec (.configIntr en) s = .next t → t.lastResult = some .ok →
    exec (.configIntr (!en)) t = .next u → u.lastResult = some .ok →
    (en = true → u.cellAt (b.page.getD 0) b.reg = some 0x0000 ∧ u.core.intr = .disabled)
    ∧ (en = false → u.cellAt (b.page.getD 0) b.reg = some b.mask ∧ u.core.intr = .enabled)

/-- R162 and R166: ACK_INTR whose transactions succeed completes with `Ok` whatever was pending; it reads, and so clears,
the profile's status register, plain or paged, and without the binding makes no transaction. `IntrState` stays. -/
def Obligations.AckIntrReadsTheStatusRegister : Prop :=
  ∀ (s : State) (q : Profile), s.profile? = some q → s.cfg.accepted = true →
    (q.intrAck = none → ∃ t, exec .ackIntr s = .next t ∧ Logged .ackIntr [] .ok s t ∧ CommandFrame s t
      ∧ t.core = s.core ∧ t.dev = s.dev)
    ∧ (∀ b, q.intrAck = some b → b.page = none → s.busAhead 0 = .ok →
      ∃ t v, exec .ackIntr s = .next t ∧ Logged .ackIntr [okRead b.reg v] .ok s t ∧ CommandFrame s t
        ∧ t.core = s.core ∧ t.dev.ps = s.dev.ps ∧ ReadDone 1 0 s.dev.ps b.reg v s t)
    ∧ (∀ b pg, q.intrAck = some b → b.page = some pg → BusOk s 0 3 →
      ∃ t v, exec .ackIntr s = .next t ∧ Logged .ackIntr (pagedEvs s.cfg pg (okRead b.reg v)) .ok s t
        ∧ CommandFrame s t ∧ t.core = s.core ∧ t.dev.ps = 0x0000 ∧ ReadDone 2 1 pg b.reg v s t)
    ∧ ∀ b, q.intrAck = some b → s.cfg.isStatus (b.page.getD 0) b.reg = true

/-! ## CONFIG_TIMING -/

/-- R181: CONFIG_TIMING whose six transactions succeed completes with `Ok`: it reads the timing register on its page, sets
the delay bit for a mode that needs it and clears it for any other, and writes the value back; without the binding it
makes no transaction. -/
def Obligations.ConfigTimingSetsTheDelayBit : Prop :=
  ∀ (s : State) (q : Profile) (mode : IfMode), s.profile? = some q → s.cfg.accepted = true →
    (q.init.bind InitBinding.timing = none →
      ∃ t, exec (.configTiming mode) s = .next t ∧ Logged (.configTiming mode) [] .ok s t ∧ CommandFrame s t
        ∧ t.core = s.core ∧ t.dev = s.dev)
    ∧ (∀ b, q.init.bind InitBinding.timing = some b → BusOk s 0 6 →
      ∃ t old, let new := if mode ∈ s.cfg.txDelayModes then old ||| b.bit else old &&& ~~~b.bit
        exec (.configTiming mode) s = .next t ∧ Logged (.configTiming mode) (timingEvs s.cfg b old new) .ok s t
        ∧ CommandFrame s t ∧ t.core = s.core ∧ t.dev.ps = 0x0000
        ∧ (storesAt s.cfg b.page b.reg = true → (∀ w, s.cellAt b.page b.reg = some w → old = w)
            ∧ t.cellAt b.page b.reg = some new)
        ∧ SameRegsBut [(b.page, b.reg)] s t ∧ PendingOnlySet [(b.page, b.reg)] 6 s t)

/-- R182: when CONFIG_TIMING returns `Ok` on a storage register that held `old`, the register holds `old` with the delay
bit set or cleared, and every other bit as in `old`. -/
def Obligations.TimingKeepsEveryOtherBit : Prop :=
  ∀ (s t : State) (q : Profile) (b : TimingBinding) (mode : IfMode) (old : Reg), s.profile? = some q →
    s.cfg.accepted = true → q.init.bind InitBinding.timing = some b → storesAt s.cfg b.page b.reg = true →
    s.cellAt b.page b.reg = some old → exec (.configTiming mode) s = .next t → t.lastResult = some .ok →
    t.cellAt b.page b.reg = some (if mode ∈ s.cfg.txDelayModes then old ||| b.bit else old &&& ~~~b.bit)
    ∧ ∀ new, t.cellAt b.page b.reg = some new →
      ∀ n, b.bit.getLsbD n = false → new.getLsbD n = old.getLsbD n

/-- R181: a failed read of the timing register writes nothing back; the page is restored and the error is the result. -/
def Obligations.TimingReadFailureWritesNothing : Prop :=
  ∀ (s : State) (q : Profile) (b : TimingBinding) (mode : IfMode) (e : BusErr) (took : Bool), s.profile? = some q →
    q.init.bind InitBinding.timing = some b → s.busAhead 0 = .ok → s.busAhead 1 = .err e took →
    ∃ t, exec (.configTiming mode) s = .next t
      ∧ Logged (.configTiming mode) [okWrite (s.cfg.pageSel, b.page), .busR b.reg (.err e),
          .busW s.cfg.pageSel 0x0000 (answerReply (s.busAhead 2))] (.busError e) s t
      ∧ t.core = s.core ∧ SameRegsBut [] s t

/-! ## CONFIG_LED -/

/-- R183 with R14: the pair of the first entry, in declaration order, that equals the name (Exact) or begins it (Prefix);
`(0, 0)` where none does and where there is no name. -/
def Obligations.PlatformLookupTakesTheFirstMatch : Prop :=
  let hit := fun (e : Platform) (s : List Byte) => (e.kind = .exactName ∧ e.name = s)
    ∨ (e.kind = .prefixName ∧ e.name.length ≤ s.length ∧ ∀ i, i < e.name.length → s[i]? = e.name[i]?)
  (∀ es, lookupPlatform es .unavailable = (0x0000, 0x0000))
    ∧ (∀ es s, (∀ e ∈ es, ¬ hit e s) → lookupPlatform es (.name s) = (0x0000, 0x0000))
    ∧ ∀ pre e post s, (∀ d ∈ pre, ¬ hit d s) → hit e s → lookupPlatform (pre ++ e :: post) (.name s) = (e.led, e.eee)

/-- R185 and R186: CONFIG_LED whose transactions succeed completes with `Ok`: at most one query, the pair kept, no write
for the pair (0, 0), else the select writes (a two-step select leaves its final page value in the register it names on
the intermediate page), the LED and the EEE register on the LED page, and the restore; without the binding, nothing. -/
def Obligations.ConfigLedWritesThePair : Prop :=
  ∀ (s : State) (q : Profile), s.profile? = some q → s.cfg.accepted = true →
    (q.init.bind InitBinding.led = none → ∃ t, exec .configLed s = .next t ∧ Logged .configLed [] .ok s t
      ∧ CommandFrame s t ∧ t.core = s.core ∧ t.dev = s.dev)
    ∧ (∀ l, q.init.bind InitBinding.led = some l → s.ledPair = (0x0000, 0x0000) →
      ∃ t, exec .configLed s = .next t ∧ Logged .configLed (platformEvs s) .ok s t ∧ CommandFrame s t
        ∧ t.core = { s.core with led := some (0x0000, 0x0000) } ∧ t.dev = s.dev)
    ∧ (∀ l, q.init.bind InitBinding.led = some l → s.ledPair ≠ (0x0000, 0x0000) →
      BusOk s 0 ((ledWrites s.cfg l s.ledPair).length + 1) →
      ∃ t, exec .configLed s = .next t
        ∧ Logged .configLed (platformEvs s ++ ledEvs s.cfg l s.ledPair) .ok s t ∧ CommandFrame s t
        ∧ t.core = { s.core with led := some s.ledPair } ∧ t.dev.ps = 0x0000
        ∧ (storesAt s.cfg (ledPage s.cfg l.select) l.eeeReg = true →
            t.cellAt (ledPage s.cfg l.select) l.eeeReg = some s.ledPair.2)
        ∧ (storesAt s.cfg (ledPage s.cfg l.select) l.ledReg = true → l.ledReg ≠ l.eeeReg →
            t.cellAt (ledPage s.cfg l.select) l.ledReg = some s.ledPair.1)
        ∧ (∀ p1 x p2, l.select = .twoStep p1 x p2 → storesAt s.cfg p1 x = true → x ≠ s.cfg.pageSel → x ≠ l.ledReg →
            x ≠ l.eeeReg → t.cellAt p1 x = some p2)
        ∧ SameRegsBut (ledLocs s.cfg l) s t
        ∧ PendingOnlySet (ledLocs s.cfg l) ((ledWrites s.cfg l s.ledPair).length + 1) s t)

/-- R184: the LedProfile is derived at most once. The first CONFIG_LED on a profile with an LED binding queries the
platform and stores the pair; once it is stored no command changes it or queries again; without the binding CONFIG_LED
does neither. -/
def Obligations.LedProfileIsDerivedOnce : Prop :=
  (∀ (s t : State) (q : Profile) (l : LedBinding), s.profile? = some q → q.init.bind InitBinding.led = some l →
      s.core.led = none → exec .configLed s = .next t →
      t.core.led = some (lookupPlatform s.cfg.platforms s.platformAhead)
      ∧ ∃ r evs, Logged .configLed (.plat s.platformAhead :: evs) r s t ∧ ∀ e ∈ evs, e.isPlat = false)
    ∧ (∀ (i : Instr) (s t : State) (pair : Reg × Reg), s.core.led = some pair → exec i s = .next t →
      t.core.led = some pair ∧ ∃ l r, Logged i l r s t ∧ ∀ e ∈ l, e.isPlat = false)
    ∧ ∀ (s t : State) (q : Profile), s.profile? = some q → q.init.bind InitBinding.led = none →
      exec .configLed s = .next t → t.core.led = s.core.led ∧ Logged .configLed [] .ok s t

/-- R185: the first write of the LED sequence that fails ends it; the restore still runs, and the error is the result
(D23). -/
def Obligations.LedFailureStopsAndRestores : Prop :=
  ∀ (s : State) (q : Profile) (l : LedBinding) (k : Nat) (w : Reg × Reg) (e : BusErr) (took : Bool),
    s.profile? = some q → q.init.bind InitBinding.led = some l → s.ledPair ≠ (0x0000, 0x0000) →
    (ledWrites s.cfg l s.ledPair)[k]? = some w → BusOk s 0 k → s.busAhead k = .err e took →
    ∃ t, exec .configLed s = .next t ∧ t.core.led = some s.ledPair
      ∧ Logged .configLed (platformEvs s ++ ((ledWrites s.cfg l s.ledPair).take k).map okWrite
          ++ [.busW w.1 w.2 (.err e), .busW s.cfg.pageSel 0x0000 (answerReply (s.busAhead (k + 1)))]) (.busError e) s t

/-- R214: `Unavailable` never becomes a result: the pair is (0, 0), and the LED step writes nothing. -/
def Obligations.UnavailablePlatformWritesNothing : Prop :=
  ∀ (s : State) (q : Profile) (l : LedBinding), s.profile? = some q → q.init.bind InitBinding.led = some l →
    s.core.led = none → s.platformAhead = .unavailable →
    ∃ t, exec .configLed s = .next t ∧ Logged .configLed [.plat .unavailable] .ok s t
      ∧ t.core = { s.core with led := some (0x0000, 0x0000) } ∧ t.dev = s.dev

/-! ## INIT -/

/-- R187: INIT whose transactions succeed completes with `Ok(ledStatus = Ok)`: the timing events, then the LED events, as
the profile binds them. For the pair (0, 0) no LED location is written (R185). -/
def Obligations.InitRunsTimingThenLed : Prop :=
  ∀ (s : State) (q : Profile) (mode : IfMode), s.profile? = some q → s.cfg.accepted = true →
    (q.init = none → ∃ t, exec (.init mode) s = .next t ∧ Logged (.init mode) [] (.okLed .ok) s t ∧ CommandFrame s t
      ∧ t.core = s.core ∧ t.dev = s.dev)
    ∧ (∀ b, q.init = some b → BusOk s 0 11 →
      ∃ t old, let new := fun d : TimingBinding =>
          if mode ∈ s.cfg.txDelayModes then old ||| d.bit else old &&& ~~~d.bit
        let evs := (match b.timing with | none => [] | some d => timingEvs s.cfg d old (new d))
          ++ (match b.led with | none => [] | some l => platformEvs s ++ ledEvs s.cfg l s.ledPair)
        let locs := (match b.timing with | none => [] | some d => [(d.page, d.reg)])
          ++ (match b.led with
            | none => []
            | some l => if s.ledPair = (0x0000, 0x0000) then [] else ledLocs s.cfg l)
        exec (.init mode) s = .next t ∧ Logged (.init mode) evs (.okLed .ok) s t ∧ CommandFrame s t
        ∧ t.core = (match b.led with | none => s.core | some _ => { s.core with led := some s.ledPair })
        ∧ t.dev.ps = (if busCount evs = 0 then s.dev.ps else 0x0000)
        ∧ (∀ d, b.timing = some d → b.led = none ∨ s.ledPair = (0x0000, 0x0000) → storesAt s.cfg d.page d.reg = true →
            (∀ w, s.cellAt d.page d.reg = some w → old = w) ∧ t.cellAt d.page d.reg = some (new d))
        ∧ SameRegsBut locs s t ∧ PendingOnlySet locs (busCount evs) s t)

/-- R187: INIT is the body of CONFIG_TIMING and then, if that succeeds, the body of CONFIG_LED: it leaves the device, the
core and the draws as those two commands do one after the other, logs their events, and reports the LED step's outcome
as `ledStatus`; a failed timing step is its result and the LED step is not run. -/
def Obligations.InitIsTimingThenLed : Prop :=
  ∀ (s t : State) (q : Profile) (b : InitBinding) (mode : IfMode) (l : List Ev) (r : Result), s.profile? = some q →
    q.init = some b → exec (.configTiming mode) s = .next t → Logged (.configTiming mode) l r s t →
    (∀ e, r = .busError e → ∃ z, exec (.init mode) s = .next z ∧ Logged (.init mode) l (.busError e) s z
      ∧ z.core = t.core ∧ z.dev = t.dev ∧ z.draws = t.draws)
    ∧ (r = .ok → ∀ u l' r', exec .configLed t = .next u → Logged .configLed l' r' t u →
      ∃ z, exec (.init mode) s = .next z ∧ z.core = u.core ∧ z.dev = u.dev ∧ z.draws = u.draws
        ∧ (r' = .ok → Logged (.init mode) (l ++ l') (.okLed .ok) s z)
        ∧ ∀ e, r' = .busError e → Logged (.init mode) (l ++ l') (.okLed (.busError e)) s z)

/-! ## SUSPEND and RESUME -/

/-- R74: a generic call leaves PS, the extended pages, the pending bits and every register that is no storage as they
were; a default-page storage register, and a flat one, is a draw of `GenericOracle`: the value the answer names, or
undetermined (assumption log 9). -/
def Obligations.GenericCallChangesOnlyTheDefaultPage : Prop :=
  ∀ (s : State) (k : GenKind),
    let t := (genericCall k s).2
    AfterGeneric s.genericAhead [] [] s t ∧ t.dev.ps = s.dev.ps ∧ t.dev.pending = s.dev.pending ∧ t.core = s.core
    ∧ (genericCall k s).1 = (match s.genericAhead.error with | none => .ok () | some e => .err e)
    ∧ t.log = s.log ++ [.gen k (match s.genericAhead.error with | none => .ok () | some e => .err e)]

/-- R188: SUSPEND whose steps succeed completes with `Ok`: the power-down assist write, if the profile has one, and then
the generic suspend; `IntrState` and the rest of the core stay. What a default-page register holds after the call is as
assumption log 9 has it. -/
def Obligations.SuspendWritesThenCalls : Prop :=
  ∀ (s : State) (q : Profile), s.profile? = some q → s.cfg.accepted = true → s.genericAhead.error = none →
    (q.suspend = none → ∃ t, exec .suspend s = .next t ∧ Logged .suspend [.gen .suspend (.ok ())] .ok s t
      ∧ CommandFrame s t ∧ t.core = s.core ∧ t.dev.ps = s.dev.ps ∧ AfterGeneric s.genericAhead [] [] s t
      ∧ t.dev.pending = s.dev.pending)
    ∧ ∀ d, q.suspend = some d → s.busAhead 0 = .ok →
      ∃ t, exec .suspend s = .next t
        ∧ Logged .suspend [okWrite (d.reg, d.value), .gen .suspend (.ok ())] .ok s t ∧ CommandFrame s t
        ∧ t.core = s.core ∧ t.dev.ps = s.dev.ps ∧ AfterGeneric s.genericAhead [(s.dev.ps, d.reg)] [] s t
        ∧ (∀ p a, locAt s.cfg s.dev.ps d.reg = .bank p a → p ≠ 0x0000 → s.cfg.isStorage p a = true →
            t.bankCell p a = some d.value)
        ∧ PendingOnlySet [(s.dev.ps, d.reg)] 1 s t

/-- R189: RESUME whose steps succeed completes with `Ok`: the generic resume, and then the power-down assist write, if the
profile has one; interrupts are not enabled again, and the core stays. What a default-page register holds after the call
is as assumption log 9 has it. -/
def Obligations.ResumeCallsThenWrites : Prop :=
  ∀ (s : State) (q : Profile), s.profile? = some q → s.cfg.accepted = true → s.genericAhead.error = none →
    (q.resume = none → ∃ t, exec .resume s = .next t ∧ Logged .resume [.gen .resume (.ok ())] .ok s t
      ∧ CommandFrame s t ∧ t.core = s.core ∧ t.dev.ps = s.dev.ps ∧ AfterGeneric s.genericAhead [] [] s t
      ∧ t.dev.pending = s.dev.pending)
    ∧ ∀ d, q.resume = some d → s.busAhead 0 = .ok →
      ∃ t, exec .resume s = .next t
        ∧ Logged .resume [.gen .resume (.ok ()), okWrite (d.reg, d.value)] .ok s t ∧ CommandFrame s t
        ∧ t.core = s.core ∧ t.dev.ps = s.dev.ps ∧ AfterGeneric s.genericAhead [] [(s.dev.ps, d.reg)] s t
        ∧ (storesAt s.cfg s.dev.ps d.reg = true → t.cellAt s.dev.ps d.reg = some d.value)
        ∧ PendingOnlySet [(s.dev.ps, d.reg)] 1 s t

/-- R219, its last item, with R188 and R189: SUSPEND and RESUME end at the first of their steps that fails. In SUSPEND a
failed assist write is `BusError` and the generic call is not made; a failed generic call, with or without an assist
write before it, is `GenericError`. In RESUME a failed generic call is `GenericError` and the assist write is not made; a
failed assist write after it is `BusError`. The core and PS stay. What a default-page register holds after the call is as
assumption log 9 has it. -/
def Obligations.SuspendAndResumeStopAtTheFirstFailure : Prop :=
  ∀ (s : State) (q : Profile) (e : BusErr), s.profile? = some q →
    (∀ d took, q.suspend = some d → s.busAhead 0 = .err e took →
      ∃ t, exec .suspend s = .next t ∧ Logged .suspend [.busW d.reg d.value (.err e)] (.busError e) s t
        ∧ CommandFrame s t ∧ t.core = s.core ∧ (s.cfg.accepted = true → t.dev.ps = s.dev.ps)
        ∧ t.draws.generic = s.draws.generic ∧ SameRegsBut [(s.dev.ps, d.reg)] s t)
    ∧ (q.suspend = none → s.genericAhead.error = some e →
      ∃ t, exec .suspend s = .next t ∧ Logged .suspend [.gen .suspend (.err e)] (.genericError e) s t
        ∧ CommandFrame s t ∧ t.core = s.core ∧ t.dev.ps = s.dev.ps ∧ AfterGeneric s.genericAhead [] [] s t)
    ∧ (∀ d, q.suspend = some d → s.busAhead 0 = .ok → s.genericAhead.error = some e →
      ∃ t, exec .suspend s = .next t
        ∧ Logged .suspend [okWrite (d.reg, d.value), .gen .suspend (.err e)] (.genericError e) s t
        ∧ CommandFrame s t ∧ t.core = s.core ∧ (s.cfg.accepted = true → t.dev.ps = s.dev.ps)
        ∧ AfterGeneric s.genericAhead [(s.dev.ps, d.reg)] [] s t)
    ∧ (s.genericAhead.error = some e →
      ∃ t, exec .resume s = .next t ∧ Logged .resume [.gen .resume (.err e)] (.genericError e) s t
        ∧ CommandFrame s t ∧ t.core = s.core ∧ t.dev.ps = s.dev.ps ∧ t.draws.bus = s.draws.bus
        ∧ AfterGeneric s.genericAhead [] [] s t)
    ∧ ∀ d took, q.resume = some d → s.genericAhead.error = none → s.busAhead 0 = .err e took →
      ∃ t, exec .resume s = .next t
        ∧ Logged .resume [.gen .resume (.ok ()), .busW d.reg d.value (.err e)] (.busError e) s t
        ∧ CommandFrame s t ∧ t.core = s.core ∧ (s.cfg.accepted = true → t.dev.ps = s.dev.ps)
        ∧ AfterGeneric s.genericAhead [] [(s.dev.ps, d.reg)] s t

/-! ## Invariants and runs -/

/-- The invariant holds at reset, with the model's reset configuration (assumption log 1). -/
def Obligations.ResetMeetsTheInvariant : Prop := State.reset.Inv

/-- Every step keeps the invariant, from every state that meets it. -/
def Obligations.StepKeepsTheInvariant : Prop := ∀ s t : State, s.Inv → step s = .next t → t.Inv

/-- R247 and R117, over every command: from PS = 0 and an accepted configuration, PS is 0 again after any command but a
plain WRITE of a nonzero page to PS, unless the command's last transaction is a restoring write that failed and took no
effect. -/
def Obligations.OnlyALostRestoreStrandsThePage : Prop :=
  ∀ (i : Instr) (s t : State), s.cfg.accepted = true → s.PsClean →
    (∀ v, i = .write s.cfg.pageSel v → v = 0x0000) → exec i s = .next t → t.PsClean ∨ RestoreLost s t

/-- R254: under its four conditions PS is 0 at every command boundary, and every plain access to a banked address reaches
the default page. -/
def Obligations.PsIsZeroAtEveryBoundary : Prop :=
  ∀ s t : State, s.cfg.accepted = true → s.PsClean → CleanRun s t →
    t.dev.ps = 0x0000 ∧ ∀ a, t.cfg.isBanked a = true → t.loc a = .bank 0x0000 a

/-- R66: a step of one instance changes no other instance, and steps of two instances can be taken in either order with
the same outcome, logs included. -/
def Obligations.InstancesAreIndependent : Prop :=
  ∀ (y z : System) (j k : Nat), j ≠ k → System.stepAt j y = .next z →
    z[k]? = y[k]?
    ∧ ∀ x, System.stepAt k z = .next x → ∃ w, System.stepAt k y = .next w ∧ System.stepAt j w = .next x
end

