-- ==== Sys2Proof/Laws/State.lean ====
section
/-! SUPPORT. What each update of the state does to each field: one lemma a field, true by definition. -/

namespace Sys2Proof.Machine

/-! ## setPs -/

@[simp] theorem State.setPs_core (s : State) (v : Reg) : (s.setPs v).core = s.core := rfl
@[simp] theorem State.setPs_cfg (s : State) (v : Reg) : (s.setPs v).cfg = s.cfg := rfl
@[simp] theorem State.setPs_dev_ps (s : State) (v : Reg) : (s.setPs v).dev.ps = v := rfl
@[simp] theorem State.setPs_dev_bank (s : State) (v : Reg) : (s.setPs v).dev.bank = s.dev.bank := rfl
@[simp] theorem State.setPs_dev_flat (s : State) (v : Reg) : (s.setPs v).dev.flat = s.dev.flat := rfl
@[simp] theorem State.setPs_dev_pending (s : State) (v : Reg) : (s.setPs v).dev.pending = s.dev.pending := rfl
@[simp] theorem State.setPs_log (s : State) (v : Reg) : (s.setPs v).log = s.log := rfl
@[simp] theorem State.setPs_index (s : State) (v : Reg) : (s.setPs v).index = s.index := rfl
@[simp] theorem State.setPs_commands (s : State) (v : Reg) : (s.setPs v).commands = s.commands := rfl
@[simp] theorem State.setPs_draws (s : State) (v : Reg) : (s.setPs v).draws = s.draws := rfl

/-! ## setBank -/

@[simp] theorem State.setBank_core (s : State) (p a v : Reg) : (s.setBank p a v).core = s.core := rfl
@[simp] theorem State.setBank_cfg (s : State) (p a v : Reg) : (s.setBank p a v).cfg = s.cfg := rfl
@[simp] theorem State.setBank_dev_ps (s : State) (p a v : Reg) : (s.setBank p a v).dev.ps = s.dev.ps := rfl
@[simp] theorem State.setBank_dev_bank (s : State) (p a v : Reg) : (s.setBank p a v).dev.bank = s.dev.bank.store (locKey p a) v := rfl
@[simp] theorem State.setBank_dev_flat (s : State) (p a v : Reg) : (s.setBank p a v).dev.flat = s.dev.flat := rfl
@[simp] theorem State.setBank_dev_pending (s : State) (p a v : Reg) : (s.setBank p a v).dev.pending = s.dev.pending := rfl
@[simp] theorem State.setBank_log (s : State) (p a v : Reg) : (s.setBank p a v).log = s.log := rfl
@[simp] theorem State.setBank_index (s : State) (p a v : Reg) : (s.setBank p a v).index = s.index := rfl
@[simp] theorem State.setBank_commands (s : State) (p a v : Reg) : (s.setBank p a v).commands = s.commands := rfl
@[simp] theorem State.setBank_draws (s : State) (p a v : Reg) : (s.setBank p a v).draws = s.draws := rfl

/-! ## setFlat -/

@[simp] theorem State.setFlat_core (s : State) (a v : Reg) : (s.setFlat a v).core = s.core := rfl
@[simp] theorem State.setFlat_cfg (s : State) (a v : Reg) : (s.setFlat a v).cfg = s.cfg := rfl
@[simp] theorem State.setFlat_dev_ps (s : State) (a v : Reg) : (s.setFlat a v).dev.ps = s.dev.ps := rfl
@[simp] theorem State.setFlat_dev_bank (s : State) (a v : Reg) : (s.setFlat a v).dev.bank = s.dev.bank := rfl
@[simp] theorem State.setFlat_dev_flat (s : State) (a v : Reg) : (s.setFlat a v).dev.flat = s.dev.flat.store a.toNat v := rfl
@[simp] theorem State.setFlat_dev_pending (s : State) (a v : Reg) : (s.setFlat a v).dev.pending = s.dev.pending := rfl
@[simp] theorem State.setFlat_log (s : State) (a v : Reg) : (s.setFlat a v).log = s.log := rfl
@[simp] theorem State.setFlat_index (s : State) (a v : Reg) : (s.setFlat a v).index = s.index := rfl
@[simp] theorem State.setFlat_commands (s : State) (a v : Reg) : (s.setFlat a v).commands = s.commands := rfl
@[simp] theorem State.setFlat_draws (s : State) (a v : Reg) : (s.setFlat a v).draws = s.draws := rfl

/-! ## setPending -/

@[simp] theorem State.setPending_core (s : State) (p a v : Reg) : (s.setPending p a v).core = s.core := rfl
@[simp] theorem State.setPending_cfg (s : State) (p a v : Reg) : (s.setPending p a v).cfg = s.cfg := rfl
@[simp] theorem State.setPending_dev_ps (s : State) (p a v : Reg) : (s.setPending p a v).dev.ps = s.dev.ps := rfl
@[simp] theorem State.setPending_dev_bank (s : State) (p a v : Reg) : (s.setPending p a v).dev.bank = s.dev.bank := rfl
@[simp] theorem State.setPending_dev_flat (s : State) (p a v : Reg) : (s.setPending p a v).dev.flat = s.dev.flat := rfl
@[simp] theorem State.setPending_dev_pending (s : State) (p a v : Reg) : (s.setPending p a v).dev.pending = s.dev.pending.store (locKey p a) v := rfl
@[simp] theorem State.setPending_log (s : State) (p a v : Reg) : (s.setPending p a v).log = s.log := rfl
@[simp] theorem State.setPending_index (s : State) (p a v : Reg) : (s.setPending p a v).index = s.index := rfl
@[simp] theorem State.setPending_commands (s : State) (p a v : Reg) : (s.setPending p a v).commands = s.commands := rfl
@[simp] theorem State.setPending_draws (s : State) (p a v : Reg) : (s.setPending p a v).draws = s.draws := rfl

/-! ## setIntr -/

@[simp] theorem State.setIntr_core_bound (s : State) (x : IntrState) : (s.setIntr x).core.bound = s.core.bound := rfl
@[simp] theorem State.setIntr_core_intr (s : State) (x : IntrState) : (s.setIntr x).core.intr = x := rfl
@[simp] theorem State.setIntr_core_led (s : State) (x : IntrState) : (s.setIntr x).core.led = s.core.led := rfl
@[simp] theorem State.setIntr_core_refused (s : State) (x : IntrState) : (s.setIntr x).core.refused = s.core.refused := rfl
@[simp] theorem State.setIntr_cfg (s : State) (x : IntrState) : (s.setIntr x).cfg = s.cfg := rfl
@[simp] theorem State.setIntr_dev (s : State) (x : IntrState) : (s.setIntr x).dev = s.dev := rfl
@[simp] theorem State.setIntr_log (s : State) (x : IntrState) : (s.setIntr x).log = s.log := rfl
@[simp] theorem State.setIntr_index (s : State) (x : IntrState) : (s.setIntr x).index = s.index := rfl
@[simp] theorem State.setIntr_commands (s : State) (x : IntrState) : (s.setIntr x).commands = s.commands := rfl
@[simp] theorem State.setIntr_draws (s : State) (x : IntrState) : (s.setIntr x).draws = s.draws := rfl

/-! ## setBound -/

@[simp] theorem State.setBound_core_bound (s : State) (i : Nat) : (s.setBound i).core.bound = some i := rfl
@[simp] theorem State.setBound_core_intr (s : State) (i : Nat) : (s.setBound i).core.intr = s.core.intr := rfl
@[simp] theorem State.setBound_core_led (s : State) (i : Nat) : (s.setBound i).core.led = s.core.led := rfl
@[simp] theorem State.setBound_core_refused (s : State) (i : Nat) : (s.setBound i).core.refused = s.core.refused := rfl
@[simp] theorem State.setBound_cfg (s : State) (i : Nat) : (s.setBound i).cfg = s.cfg := rfl
@[simp] theorem State.setBound_dev (s : State) (i : Nat) : (s.setBound i).dev = s.dev := rfl
@[simp] theorem State.setBound_log (s : State) (i : Nat) : (s.setBound i).log = s.log := rfl
@[simp] theorem State.setBound_index (s : State) (i : Nat) : (s.setBound i).index = s.index := rfl
@[simp] theorem State.setBound_commands (s : State) (i : Nat) : (s.setBound i).commands = s.commands := rfl
@[simp] theorem State.setBound_draws (s : State) (i : Nat) : (s.setBound i).draws = s.draws := rfl

/-! ## setLed -/

@[simp] theorem State.setLed_core_bound (s : State) (pair : Reg × Reg) : (s.setLed pair).core.bound = s.core.bound := rfl
@[simp] theorem State.setLed_core_intr (s : State) (pair : Reg × Reg) : (s.setLed pair).core.intr = s.core.intr := rfl
@[simp] theorem State.setLed_core_led (s : State) (pair : Reg × Reg) : (s.setLed pair).core.led = some pair := rfl
@[simp] theorem State.setLed_core_refused (s : State) (pair : Reg × Reg) : (s.setLed pair).core.refused = s.core.refused := rfl
@[simp] theorem State.setLed_cfg (s : State) (pair : Reg × Reg) : (s.setLed pair).cfg = s.cfg := rfl
@[simp] theorem State.setLed_dev (s : State) (pair : Reg × Reg) : (s.setLed pair).dev = s.dev := rfl
@[simp] theorem State.setLed_log (s : State) (pair : Reg × Reg) : (s.setLed pair).log = s.log := rfl
@[simp] theorem State.setLed_index (s : State) (pair : Reg × Reg) : (s.setLed pair).index = s.index := rfl
@[simp] theorem State.setLed_commands (s : State) (pair : Reg × Reg) : (s.setLed pair).commands = s.commands := rfl
@[simp] theorem State.setLed_draws (s : State) (pair : Reg × Reg) : (s.setLed pair).draws = s.draws := rfl

/-! ## markRefused -/

@[simp] theorem State.markRefused_core_bound (s : State) : s.markRefused.core.bound = s.core.bound := rfl
@[simp] theorem State.markRefused_core_intr (s : State) : s.markRefused.core.intr = s.core.intr := rfl
@[simp] theorem State.markRefused_core_led (s : State) : s.markRefused.core.led = s.core.led := rfl
@[simp] theorem State.markRefused_core_refused (s : State) : s.markRefused.core.refused = true := rfl
@[simp] theorem State.markRefused_cfg (s : State) : s.markRefused.cfg = s.cfg := rfl
@[simp] theorem State.markRefused_dev (s : State) : s.markRefused.dev = s.dev := rfl
@[simp] theorem State.markRefused_log (s : State) : s.markRefused.log = s.log := rfl
@[simp] theorem State.markRefused_index (s : State) : s.markRefused.index = s.index := rfl
@[simp] theorem State.markRefused_commands (s : State) : s.markRefused.commands = s.commands := rfl
@[simp] theorem State.markRefused_draws (s : State) : s.markRefused.draws = s.draws := rfl

/-! ## addEv -/

@[simp] theorem State.addEv_core (s : State) (e : Ev) : (s.addEv e).core = s.core := rfl
@[simp] theorem State.addEv_cfg (s : State) (e : Ev) : (s.addEv e).cfg = s.cfg := rfl
@[simp] theorem State.addEv_dev (s : State) (e : Ev) : (s.addEv e).dev = s.dev := rfl
@[simp] theorem State.addEv_log (s : State) (e : Ev) : (s.addEv e).log = s.log ++ [e] := rfl
@[simp] theorem State.addEv_index (s : State) (e : Ev) : (s.addEv e).index = s.index := rfl
@[simp] theorem State.addEv_commands (s : State) (e : Ev) : (s.addEv e).commands = s.commands := rfl
@[simp] theorem State.addEv_draws (s : State) (e : Ev) : (s.addEv e).draws = s.draws := rfl

/-! ## issue -/

@[simp] theorem State.issue_core (s : State) (w : Word) : (s.issue w).core = s.core := rfl
@[simp] theorem State.issue_cfg (s : State) (w : Word) : (s.issue w).cfg = s.cfg := rfl
@[simp] theorem State.issue_dev (s : State) (w : Word) : (s.issue w).dev = s.dev := rfl
@[simp] theorem State.issue_log (s : State) (w : Word) : (s.issue w).log = s.log := rfl
@[simp] theorem State.issue_index (s : State) (w : Word) : (s.issue w).index = s.index := rfl
@[simp] theorem State.issue_commands (s : State) (w : Word) : (s.issue w).commands = w :: s.commands := rfl
@[simp] theorem State.issue_draws (s : State) (w : Word) : (s.issue w).draws = s.draws := rfl

end Sys2Proof.Machine
end

