-- ==== Sys2Proof/Laws/Memory.lean ====
section
/-! SUPPORT. The register stores: a read after a write, and the canonical form, which every operation keeps. -/

namespace Sys2Proof.Machine

@[simp] theorem Memory.look_nil (j : Nat) : Memory.look [] j = none := rfl

theorem Memory.look_cons (k : Nat) (v : Reg) (m : Memory) (j : Nat) :
    Memory.look ((k, v) :: m) j = if j = k then some v else Memory.look m j := rfl

/-- A read after a write to the same key gives the value written. -/
@[simp] theorem Memory.look_store_same (m : Memory) (j : Nat) (v : Reg) : (Memory.store m j v).look j = some v := by
  induction m with
  | nil => simp [Memory.store, Memory.look]
  | cons c m ih =>
    obtain ⟨k, x⟩ := c
    by_cases h1 : j < k
    · simp [Memory.store, Memory.look, h1]
    · by_cases h2 : j = k <;> simp [Memory.store, Memory.look, h1, h2]
      simpa [h2] using ih

/-- A write leaves every other key alone. -/
theorem Memory.look_store_ne (m : Memory) {i j : Nat} (v : Reg) (h : i ≠ j) :
    (Memory.store m j v).look i = m.look i := by
  induction m with
  | nil => simp [Memory.store, Memory.look, h]
  | cons c m ih =>
    obtain ⟨k, x⟩ := c
    by_cases h1 : j < k
    · simp [Memory.store, Memory.look, h1, h]
    · by_cases h2 : j = k
      · subst h2; simp [Memory.store, Memory.look, h]
      · simp [Memory.store, Memory.look, h1, h2, ih]

theorem Memory.look_store (m : Memory) (i j : Nat) (v : Reg) :
    (Memory.store m j v).look i = if i = j then some v else m.look i := by
  by_cases h : i = j
  · subst h; simp
  · simp [h, Memory.look_store_ne m v h]

/-- The cells a write leaves: the one written, and others that were there. -/
theorem Memory.mem_store {m : Memory} {j : Nat} {v : Reg} {c : Nat × Reg} (h : c ∈ Memory.store m j v) :
    c = (j, v) ∨ c ∈ m := by
  induction m with
  | nil => simpa [Memory.store] using h
  | cons d m ih =>
    obtain ⟨k, x⟩ := d
    by_cases h1 : j < k
    · simpa [Memory.store, h1] using h
    · by_cases h2 : j = k
      · simp only [Memory.store, h2, if_true, if_false, List.mem_cons, lt_irrefl] at h
        rcases h with h | h
        · exact .inl (h2 ▸ h)
        · exact .inr (List.mem_cons_of_mem _ h)
      · simp only [Memory.store, h1, h2, if_false, List.mem_cons] at h
        rcases h with h | h
        · exact .inr (h ▸ List.mem_cons_self)
        · rcases ih h with h | h
          · exact .inl h
          · exact .inr (List.mem_cons_of_mem _ h)

/-- A write keeps the canonical form. -/
theorem Memory.wf_store {m : Memory} (h : m.wf) (j : Nat) (v : Reg) : (Memory.store m j v).wf := by
  induction m with
  | nil => simp [Memory.store]
  | cons c m ih =>
    obtain ⟨k, x⟩ := c
    have hk := List.pairwise_cons.mp h
    by_cases h1 : j < k
    · simp only [Memory.store, h1, if_true]
      refine List.pairwise_cons.mpr ⟨fun d hd => ?_, h⟩
      rcases List.mem_cons.mp hd with rfl | hd
      · exact h1
      · exact lt_trans h1 (hk.1 d hd)
    · by_cases h2 : j = k
      · subst h2
        simp only [Memory.store, lt_irrefl, if_true, if_false]
        exact List.pairwise_cons.mpr ⟨hk.1, hk.2⟩
      · simp only [Memory.store, h1, h2, if_false]
        refine List.pairwise_cons.mpr ⟨fun d hd => ?_, ih hk.2⟩
        rcases Memory.mem_store hd with rfl | hd
        · exact lt_of_le_of_ne (not_lt.mp h1) (Ne.symm h2)
        · exact hk.1 d hd

/-- Forgetting cells keeps the canonical form. -/
theorem Memory.wf_keep {m : Memory} (h : m.wf) (f : Nat → Bool) : (m.keep f).wf := List.Pairwise.filter _ h

/-- A cell that passes the test is kept, and the others are unknown. -/
theorem Memory.look_keep (m : Memory) (f : Nat → Bool) (j : Nat) :
    (m.keep f).look j = if f j then m.look j else none := by
  induction m with
  | nil => simp [Memory.keep]
  | cons c m ih =>
    obtain ⟨k, x⟩ := c
    by_cases hf : f k
    · by_cases hj : j = k
      · subst hj; simp [Memory.keep, Memory.look, hf]
      · simp only [Memory.keep, List.filter, hf, Memory.look, hj, if_false]; exact ih
    · by_cases hj : j = k
      · subst hj
        have := ih
        simp only [hf] at this ⊢
        simpa [Memory.keep, List.filter, hf] using this
      · simp only [Memory.keep, List.filter, hf, Memory.look, hj, if_false]; exact ih

theorem wf_initialBank (c : Cfg) : (initialBank c).wf := by
  unfold initialBank
  induction c.initContents with
  | nil => exact List.Pairwise.nil
  | cons e es ih =>
    rw [List.foldr_cons]
    split
    · exact Memory.wf_store ih _ _
    · exact ih

theorem wf_initialFlat (c : Cfg) : (initialFlat c).wf := by
  unfold initialFlat
  induction c.initContents with
  | nil => exact List.Pairwise.nil
  | cons e es ih =>
    rw [List.foldr_cons]
    split
    · exact Memory.wf_store ih _ _
    · exact ih

/-- The canonical form at reset. -/
theorem wf_powerOn (c : Cfg) :
    (DevState.powerOn c).bank.wf ∧ (DevState.powerOn c).flat.wf ∧ (DevState.powerOn c).pending.wf :=
  ⟨wf_initialBank c, wf_initialFlat c, List.Pairwise.nil⟩

/-! ## Keys -/

theorem locKey_inj {p a p' a' : Reg} (h : locKey p a = locKey p' a') : p = p' ∧ a = a' := by
  simp only [locKey] at h
  have h1 := p.isLt; have h2 := a.isLt; have h3 := p'.isLt; have h4 := a'.isLt
  exact ⟨BitVec.eq_of_toNat_eq (by omega), BitVec.eq_of_toNat_eq (by omega)⟩

@[simp] theorem locKey_eq_iff {p a p' a' : Reg} : locKey p a = locKey p' a' ↔ p = p' ∧ a = a' :=
  ⟨locKey_inj, fun h => by rw [h.1, h.2]⟩

@[simp] theorem keyPage_locKey (p a : Reg) : keyPage (locKey p a) = p := by
  apply BitVec.eq_of_toNat_eq
  have h1 := p.isLt; have h2 := a.isLt
  simp only [keyPage, locKey, BitVec.toNat_ofNat]
  omega

@[simp] theorem keyAddr_locKey (p a : Reg) : keyAddr (locKey p a) = a := by
  apply BitVec.eq_of_toNat_eq
  have h2 := a.isLt
  simp only [keyAddr, locKey, BitVec.toNat_ofNat]
  omega

end Sys2Proof.Machine
end

