-- ==== Sys2Proof/Laws/Draws.lean ====
section
/-! SUPPORT. The outside agents' answers: the next one is the one 0 places ahead, and taking it moves the others one
place nearer. One lemma a field for each draw. -/

namespace Sys2Proof.Machine

@[simp] theorem Oracle.next_fst {α : Type} (free : Nat → α) (o : Oracle α) : (o.next free).1 = o.ahead free 0 := by
  unfold Oracle.next Oracle.ahead
  cases o.script <;> simp

@[simp] theorem Oracle.ahead_next {α : Type} (free : Nat → α) (o : Oracle α) (n : Nat) :
    (o.next free).2.ahead free n = o.ahead free (n + 1) := by
  unfold Oracle.next Oracle.ahead
  cases h : o.script with
  | nil => simp; congr 1; omega
  | cons a rest => simp

/-! ## drawBus -/

@[simp] theorem State.drawBus_fst (s : State) : s.drawBus.1 = s.busAhead 0 := Oracle.next_fst _ _

@[simp] theorem State.drawBus_core (s : State) : s.drawBus.2.core = s.core := rfl
@[simp] theorem State.drawBus_cfg (s : State) : s.drawBus.2.cfg = s.cfg := rfl
@[simp] theorem State.drawBus_dev (s : State) : s.drawBus.2.dev = s.dev := rfl
@[simp] theorem State.drawBus_log (s : State) : s.drawBus.2.log = s.log := rfl
@[simp] theorem State.drawBus_index (s : State) : s.drawBus.2.index = s.index := rfl
@[simp] theorem State.drawBus_commands (s : State) : s.drawBus.2.commands = s.commands := rfl
@[simp] theorem State.drawBus_chip (s : State) : s.drawBus.2.draws.chip = s.draws.chip := rfl
@[simp] theorem State.drawBus_bus (s : State) : s.drawBus.2.draws.bus = (s.draws.bus.next (Config.freeBus s.draws.chip)).2 := rfl
@[simp] theorem State.drawBus_events (s : State) : s.drawBus.2.draws.events = s.draws.events := rfl
@[simp] theorem State.drawBus_values (s : State) : s.drawBus.2.draws.values = s.draws.values := rfl
@[simp] theorem State.drawBus_platform (s : State) : s.drawBus.2.draws.platform = s.draws.platform := rfl
@[simp] theorem State.drawBus_generic (s : State) : s.drawBus.2.draws.generic = s.draws.generic := rfl

/-! ## drawEvent -/

@[simp] theorem State.drawEvent_fst (s : State) : s.drawEvent.1 = s.eventAhead 0 := Oracle.next_fst _ _

@[simp] theorem State.drawEvent_core (s : State) : s.drawEvent.2.core = s.core := rfl
@[simp] theorem State.drawEvent_cfg (s : State) : s.drawEvent.2.cfg = s.cfg := rfl
@[simp] theorem State.drawEvent_dev (s : State) : s.drawEvent.2.dev = s.dev := rfl
@[simp] theorem State.drawEvent_log (s : State) : s.drawEvent.2.log = s.log := rfl
@[simp] theorem State.drawEvent_index (s : State) : s.drawEvent.2.index = s.index := rfl
@[simp] theorem State.drawEvent_commands (s : State) : s.drawEvent.2.commands = s.commands := rfl
@[simp] theorem State.drawEvent_chip (s : State) : s.drawEvent.2.draws.chip = s.draws.chip := rfl
@[simp] theorem State.drawEvent_bus (s : State) : s.drawEvent.2.draws.bus = s.draws.bus := rfl
@[simp] theorem State.drawEvent_events (s : State) : s.drawEvent.2.draws.events = (s.draws.events.next (Config.freeEvent s.draws.chip)).2 := rfl
@[simp] theorem State.drawEvent_values (s : State) : s.drawEvent.2.draws.values = s.draws.values := rfl
@[simp] theorem State.drawEvent_platform (s : State) : s.drawEvent.2.draws.platform = s.draws.platform := rfl
@[simp] theorem State.drawEvent_generic (s : State) : s.drawEvent.2.draws.generic = s.draws.generic := rfl

/-! ## drawValue -/

@[simp] theorem State.drawValue_core (s : State) : s.drawValue.2.core = s.core := rfl
@[simp] theorem State.drawValue_cfg (s : State) : s.drawValue.2.cfg = s.cfg := rfl
@[simp] theorem State.drawValue_dev (s : State) : s.drawValue.2.dev = s.dev := rfl
@[simp] theorem State.drawValue_log (s : State) : s.drawValue.2.log = s.log := rfl
@[simp] theorem State.drawValue_index (s : State) : s.drawValue.2.index = s.index := rfl
@[simp] theorem State.drawValue_commands (s : State) : s.drawValue.2.commands = s.commands := rfl
@[simp] theorem State.drawValue_chip (s : State) : s.drawValue.2.draws.chip = s.draws.chip := rfl
@[simp] theorem State.drawValue_bus (s : State) : s.drawValue.2.draws.bus = s.draws.bus := rfl
@[simp] theorem State.drawValue_events (s : State) : s.drawValue.2.draws.events = s.draws.events := rfl
@[simp] theorem State.drawValue_values (s : State) : s.drawValue.2.draws.values = (s.draws.values.next (Config.freeValue s.draws.chip)).2 := rfl
@[simp] theorem State.drawValue_platform (s : State) : s.drawValue.2.draws.platform = s.draws.platform := rfl
@[simp] theorem State.drawValue_generic (s : State) : s.drawValue.2.draws.generic = s.draws.generic := rfl

/-! ## drawPlatform -/

@[simp] theorem State.drawPlatform_fst (s : State) : s.drawPlatform.1 = s.platformAhead := Oracle.next_fst _ _

@[simp] theorem State.drawPlatform_core (s : State) : s.drawPlatform.2.core = s.core := rfl
@[simp] theorem State.drawPlatform_cfg (s : State) : s.drawPlatform.2.cfg = s.cfg := rfl
@[simp] theorem State.drawPlatform_dev (s : State) : s.drawPlatform.2.dev = s.dev := rfl
@[simp] theorem State.drawPlatform_log (s : State) : s.drawPlatform.2.log = s.log := rfl
@[simp] theorem State.drawPlatform_index (s : State) : s.drawPlatform.2.index = s.index := rfl
@[simp] theorem State.drawPlatform_commands (s : State) : s.drawPlatform.2.commands = s.commands := rfl
@[simp] theorem State.drawPlatform_chip (s : State) : s.drawPlatform.2.draws.chip = s.draws.chip := rfl
@[simp] theorem State.drawPlatform_bus (s : State) : s.drawPlatform.2.draws.bus = s.draws.bus := rfl
@[simp] theorem State.drawPlatform_events (s : State) : s.drawPlatform.2.draws.events = s.draws.events := rfl
@[simp] theorem State.drawPlatform_values (s : State) : s.drawPlatform.2.draws.values = s.draws.values := rfl
@[simp] theorem State.drawPlatform_platform (s : State) : s.drawPlatform.2.draws.platform = (s.draws.platform.next (Config.freePlatform s.draws.chip)).2 := rfl
@[simp] theorem State.drawPlatform_generic (s : State) : s.drawPlatform.2.draws.generic = s.draws.generic := rfl

/-! ## drawGeneric -/

@[simp] theorem State.drawGeneric_fst (s : State) : s.drawGeneric.1 = s.genericAhead := Oracle.next_fst _ _

@[simp] theorem State.drawGeneric_core (s : State) : s.drawGeneric.2.core = s.core := rfl
@[simp] theorem State.drawGeneric_cfg (s : State) : s.drawGeneric.2.cfg = s.cfg := rfl
@[simp] theorem State.drawGeneric_dev (s : State) : s.drawGeneric.2.dev = s.dev := rfl
@[simp] theorem State.drawGeneric_log (s : State) : s.drawGeneric.2.log = s.log := rfl
@[simp] theorem State.drawGeneric_index (s : State) : s.drawGeneric.2.index = s.index := rfl
@[simp] theorem State.drawGeneric_commands (s : State) : s.drawGeneric.2.commands = s.commands := rfl
@[simp] theorem State.drawGeneric_chip (s : State) : s.drawGeneric.2.draws.chip = s.draws.chip := rfl
@[simp] theorem State.drawGeneric_bus (s : State) : s.drawGeneric.2.draws.bus = s.draws.bus := rfl
@[simp] theorem State.drawGeneric_events (s : State) : s.drawGeneric.2.draws.events = s.draws.events := rfl
@[simp] theorem State.drawGeneric_values (s : State) : s.drawGeneric.2.draws.values = s.draws.values := rfl
@[simp] theorem State.drawGeneric_platform (s : State) : s.drawGeneric.2.draws.platform = s.draws.platform := rfl
@[simp] theorem State.drawGeneric_generic (s : State) : s.drawGeneric.2.draws.generic = (s.draws.generic.next (Config.freeGeneric s.draws.chip)).2 := rfl

end Sys2Proof.Machine
end

