-- ==== Sys2Proof/Laws/Ops.lean ====
section
/-! SUPPORT. What each shared operation can do, said once. A transaction is the device's own action and the transport's
answer (`turn`), then the effect of R52 or R53 and one event. -/

namespace Sys2Proof.Machine

/-! ## Pending bits only grow -/

theorem Grew.refl (o : Option Reg) : Grew o o := by cases o <;> simp [Grew]

theorem Grew.trans {a b c : Option Reg} (h1 : Grew a b) (h2 : Grew b c) : Grew a c := by
  cases a with
  | none => trivial
  | some x =>
    cases b with
    | none => exact absurd h1 (by simp [Grew])
    | some y =>
      cases c with
      | none => exact absurd h2 (by simp [Grew])
      | some z =>
        simp only [Grew] at *
        rw [← h2, ← BitVec.or_assoc, h1]

theorem Grew.or (v x : Reg) : Grew (some v) (some (v ||| x)) := by
  simp only [Grew]; rw [← BitVec.or_assoc, BitVec.or_self]

theorem PendingGrew.refl (s : State) : PendingGrew s s := fun _ _ => Grew.refl _

theorem PendingGrew.trans {s t u : State} (h1 : PendingGrew s t) (h2 : PendingGrew t u) : PendingGrew s u :=
  fun p a => (h1 p a).trans (h2 p a)

/-! ## The cells after an update -/

@[simp] theorem State.bankCell_setBank (s : State) (p a v p' a' : Reg) :
    (s.setBank p a v).bankCell p' a' = if p' = p ∧ a' = a then some v else s.bankCell p' a' := by
  simp [State.bankCell, Memory.look_store]

@[simp] theorem State.pendingCell_setPending (s : State) (p a v p' a' : Reg) :
    (s.setPending p a v).pendingCell p' a' = if p' = p ∧ a' = a then some v else s.pendingCell p' a' := by
  simp [State.pendingCell, Memory.look_store]

@[simp] theorem State.flatCell_setFlat (s : State) (a v a' : Reg) :
    (s.setFlat a v).flatCell a' = if a' = a then some v else s.flatCell a' := by
  simp [State.flatCell, Memory.look_store, ← BitVec.toNat_inj]

/-! ## Taking a register's contents -/

/-- The state after `takePending`, said field by field: only the pending bits and the value draws can differ. -/
structure PendingOnly (s t : State) : Prop where
  core : t.core = s.core
  cfg : t.cfg = s.cfg
  ps : t.dev.ps = s.dev.ps
  bank : t.dev.bank = s.dev.bank
  flat : t.dev.flat = s.dev.flat
  log : t.log = s.log
  index : t.index = s.index
  commands : t.commands = s.commands
  chip : t.draws.chip = s.draws.chip
  bus : t.draws.bus = s.draws.bus
  events : t.draws.events = s.draws.events
  platform : t.draws.platform = s.draws.platform
  generic : t.draws.generic = s.draws.generic
  pendingWf : s.dev.pending.wf → t.dev.pending.wf
  pendingAtStatus : (∀ c ∈ s.dev.pending, ∃ p a, s.cfg.isStatus p a = true ∧ c.1 = locKey p a) →
    ∀ c ∈ t.dev.pending, ∃ p a, s.cfg.isStatus p a = true ∧ c.1 = locKey p a

theorem PendingOnly.refl (s : State) : PendingOnly s s := by
  constructor <;> first | rfl | exact id

theorem PendingOnly.trans {s t u : State} (h1 : PendingOnly s t) (h2 : PendingOnly t u) : PendingOnly s u where
  core := h2.core.trans h1.core
  cfg := h2.cfg.trans h1.cfg
  ps := h2.ps.trans h1.ps
  bank := h2.bank.trans h1.bank
  flat := h2.flat.trans h1.flat
  log := h2.log.trans h1.log
  index := h2.index.trans h1.index
  commands := h2.commands.trans h1.commands
  chip := h2.chip.trans h1.chip
  bus := h2.bus.trans h1.bus
  events := h2.events.trans h1.events
  platform := h2.platform.trans h1.platform
  generic := h2.generic.trans h1.generic
  pendingWf h := h2.pendingWf (h1.pendingWf h)
  pendingAtStatus h := h1.cfg ▸ h2.pendingAtStatus (h1.cfg ▸ h1.pendingAtStatus h)

theorem pendingOnly_setPending {s : State} {p a : Reg} (v : Reg) (h : s.cfg.isStatus p a = true) :
    PendingOnly s (s.setPending p a v) := by
  constructor <;> first | rfl | skip
  · exact fun hw => Memory.wf_store hw _ _
  · intro hs c hc
    rcases Memory.mem_store hc with rfl | hc
    · exact ⟨p, a, h, rfl⟩
    · exact hs c hc

theorem pendingOnly_drawValue (s : State) : PendingOnly s s.drawValue.2 := by
  constructor <;> first | rfl | exact id

/-- `takePending` gives the pending bits, drawn where they were not yet known. -/
theorem takePending_some {s : State} {p a v : Reg} (h : s.pendingCell p a = some v) : takePending p a s = (v, s) := by
  simp [takePending, h]

theorem takePending_none {s : State} {p a : Reg} (h : s.pendingCell p a = none) :
    takePending p a s = (s.drawValue.1, s.drawValue.2.setPending p a s.drawValue.1) := by
  simp [takePending, h]

theorem takePending_frame {s : State} {p a : Reg} (h : s.cfg.isStatus p a = true) :
    PendingOnly s (takePending p a s).2 := by
  cases hc : s.pendingCell p a with
  | some v => rw [takePending_some hc]; exact PendingOnly.refl s
  | none =>
    rw [takePending_none hc]
    exact (pendingOnly_drawValue s).trans (pendingOnly_setPending _ (by simpa using h))

theorem takePending_cell (s : State) (p a : Reg) :
    (takePending p a s).2.pendingCell p a = some (takePending p a s).1 := by
  cases hc : s.pendingCell p a with
  | some v => rw [takePending_some hc]; exact hc
  | none => rw [takePending_none hc]; simp

theorem takePending_other {s : State} {p a p' a' : Reg} (h : (p', a') ≠ (p, a)) :
    (takePending p a s).2.pendingCell p' a' = s.pendingCell p' a' := by
  cases hc : s.pendingCell p a with
  | some v => rw [takePending_some hc]
  | none =>
    rw [takePending_none hc]
    simp only [State.pendingCell_setPending]
    rw [if_neg (fun hh => h (Prod.ext hh.1 hh.2))]; rfl

/-! ## The device's own action (R58) -/

theorem deviceSets_frame (s : State) (e : (Reg × Reg) × Reg) : PendingOnly s (deviceSets s e) := by
  unfold deviceSets
  split
  · rename_i h
    have h1 := takePending_frame h
    exact h1.trans (pendingOnly_setPending _ (by rw [h1.cfg]; exact h))
  · exact PendingOnly.refl s

theorem deviceSets_grew (s : State) (e : (Reg × Reg) × Reg) : PendingGrew s (deviceSets s e) := by
  unfold deviceSets
  split
  · intro p a
    by_cases hp : (p, a) = (e.1.1, e.1.2)
    · obtain ⟨rfl, rfl⟩ := Prod.mk.inj hp
      simp only [State.pendingCell_setPending, and_self, if_true]
      cases hc : s.pendingCell e.1.1 e.1.2 with
      | none => trivial
      | some v => rw [takePending_some hc]; exact Grew.or v _
    · simp only [State.pendingCell_setPending]
      rw [if_neg (fun hh => hp (Prod.ext hh.1 hh.2)), takePending_other hp]
      exact Grew.refl _
  · exact PendingGrew.refl s

theorem deviceSets_foldl (ev : DeviceEvent) (s : State) :
    PendingOnly s (ev.foldl deviceSets s) ∧ PendingGrew s (ev.foldl deviceSets s) := by
  induction ev generalizing s with
  | nil => exact ⟨PendingOnly.refl s, PendingGrew.refl s⟩
  | cons e ev ih =>
    exact ⟨(deviceSets_frame s e).trans (ih _).1, (deviceSets_grew s e).trans (ih _).2⟩

theorem eventBits_foldl (ev : DeviceEvent) (p a x : Reg) :
    ev.foldl (fun x e => if e.1 = (p, a) then x ||| e.2 else x) x = x ||| eventBits ev p a := by
  unfold eventBits
  induction ev generalizing x with
  | nil => simp
  | cons e ev ih =>
    simp only [List.foldl_cons]
    split
    · rw [ih, ih (0 ||| e.2)]; simp [BitVec.or_assoc]
    · exact ih x

/-- An event sets its bits, and no others, in the pending bits of a status location (R58). -/
theorem deviceSets_bits (ev : DeviceEvent) {s : State} {p a v : Reg} (hs : s.cfg.isStatus p a = true)
    (h : s.pendingCell p a = some v) :
    (ev.foldl deviceSets s).pendingCell p a = some (v ||| eventBits ev p a) := by
  induction ev generalizing s v with
  | nil => simpa [eventBits] using h
  | cons e ev ih =>
    rw [List.foldl_cons]
    have key : (deviceSets s e).pendingCell p a = some (if e.1 = (p, a) then v ||| e.2 else v) := by
      unfold deviceSets
      by_cases he : e.1 = (p, a)
      · simp [he, hs, takePending_some h]
      · rw [if_neg he]
        split
        · simp only [State.pendingCell_setPending]
          rw [if_neg (fun hh => he (Prod.ext hh.1.symm hh.2.symm)), takePending_other, h]
          exact fun hh => he hh.symm
        · exact h
    rw [ih (by rw [(deviceSets_frame s e).cfg]; exact hs) key]
    simp only [eventBits, List.foldl_cons]
    split
    · rw [eventBits_foldl ev p a (0 ||| e.2)]
      simp [BitVec.or_assoc, eventBits]
    · rfl

/-- What a transaction begins with: the device has acted and the transport has answered. -/
def State.turn (s : State) : State := (deviceActs s).drawBus.2

theorem deviceActs_eq (s : State) : deviceActs s = (s.eventAhead 0).foldl deviceSets s.drawEvent.2 := by
  unfold deviceActs
  rw [← State.drawEvent_fst]

theorem deviceActs_pendingCell (s : State) (p a : Reg) : s.drawEvent.2.pendingCell p a = s.pendingCell p a := rfl

/-- All that a turn can do. -/
structure TurnFrame (s t : State) : Prop where
  core : t.core = s.core
  cfg : t.cfg = s.cfg
  ps : t.dev.ps = s.dev.ps
  bank : t.dev.bank = s.dev.bank
  flat : t.dev.flat = s.dev.flat
  log : t.log = s.log
  index : t.index = s.index
  commands : t.commands = s.commands
  chip : t.draws.chip = s.draws.chip
  platform : t.draws.platform = s.draws.platform
  generic : t.draws.generic = s.draws.generic
  busAhead : ∀ n, t.busAhead n = s.busAhead (n + 1)
  eventAhead : ∀ n, t.eventAhead n = s.eventAhead (n + 1)
  pendingWf : s.dev.pending.wf → t.dev.pending.wf
  pendingAtStatus : (∀ c ∈ s.dev.pending, ∃ p a, s.cfg.isStatus p a = true ∧ c.1 = locKey p a) →
    ∀ c ∈ t.dev.pending, ∃ p a, s.cfg.isStatus p a = true ∧ c.1 = locKey p a
  grew : PendingGrew s t

theorem turn_frame (s : State) : TurnFrame s s.turn := by
  have h := deviceSets_foldl (s.eventAhead 0) s.drawEvent.2
  rw [← deviceActs_eq] at h
  obtain ⟨h, hg⟩ := h
  exact {
    core := h.core, cfg := h.cfg, ps := h.ps, bank := h.bank, flat := h.flat, log := h.log, index := h.index
    commands := h.commands, chip := h.chip, platform := h.platform, generic := h.generic
    busAhead := fun n => by
      have hb : (deviceActs s).draws.bus = s.draws.bus := h.bus
      have hc : (deviceActs s).draws.chip = s.draws.chip := h.chip
      simp only [State.turn, State.busAhead, State.drawBus_bus, State.drawBus_chip, hb, hc, Oracle.ahead_next]
    eventAhead := fun n => by
      have hb : (deviceActs s).draws.events = s.drawEvent.2.draws.events := h.events
      have hc : (deviceActs s).draws.chip = s.draws.chip := h.chip
      simp only [State.turn, State.eventAhead, State.drawBus_events, State.drawBus_chip, hb, hc,
        State.drawEvent_events, Oracle.ahead_next]
    pendingWf := h.pendingWf
    pendingAtStatus := h.pendingAtStatus
    grew := hg }

theorem deviceActs_busAhead (s : State) : (deviceActs s).busAhead 0 = s.busAhead 0 := by
  have h := (deviceSets_foldl (s.eventAhead 0) s.drawEvent.2).1
  rw [← deviceActs_eq] at h
  have hb : (deviceActs s).draws.bus = s.draws.bus := h.bus
  have hc : (deviceActs s).draws.chip = s.draws.chip := h.chip
  simp only [State.busAhead, hb, hc]

theorem deviceActs_drawBus (s : State) : (deviceActs s).drawBus = (s.busAhead 0, s.turn) := by
  rw [← deviceActs_busAhead, ← State.drawBus_fst]; rfl

/-! ## One transaction -/

/-- `MemRead` by the transport's answer (R52, R54). -/
theorem memRead_ok {s : State} (a : Reg) (h : s.busAhead 0 = .ok) :
    memRead a s = (.ok (readEffect a s.turn).1,
      (readEffect a s.turn).2.addEv (.busR a (.ok (readEffect a s.turn).1))) := by
  simp [memRead, deviceActs_drawBus, h]

theorem memRead_err {s : State} (a : Reg) {e : BusErr} {took : Bool} (h : s.busAhead 0 = .err e took) :
    memRead a s = (.err e, (if took then failedReadEffect a s.turn else s.turn).addEv (.busR a (.err e))) := by
  cases took <;> simp [memRead, deviceActs_drawBus, h]

/-- `MemWrite` by the transport's answer (R53, R54). -/
theorem memWrite_ok {s : State} (a v : Reg) (h : s.busAhead 0 = .ok) :
    memWrite a v s = (.ok (), (writeEffect a v s.turn).addEv (.busW a v (.ok ()))) := by
  simp [memWrite, deviceActs_drawBus, h]

theorem memWrite_err {s : State} (a v : Reg) {e : BusErr} {took : Bool} (h : s.busAhead 0 = .err e took) :
    memWrite a v s = (.err e, (if took then writeEffect a v s.turn else s.turn).addEv (.busW a v (.err e))) := by
  cases took <;> simp [memWrite, deviceActs_drawBus, h]

/-- `MemWrite` whatever the answer. -/
theorem memWrite_eq (s : State) (a v : Reg) :
    memWrite a v s = (answerReply (s.busAhead 0),
      (if landed (s.busAhead 0) then writeEffect a v s.turn else s.turn).addEv
        (.busW a v (answerReply (s.busAhead 0)))) := by
  cases h : s.busAhead 0 with
  | ok => simp [memWrite_ok a v h, answerReply, landed]
  | err e took => cases took <;> simp [memWrite_err a v h, answerReply, landed]

end Sys2Proof.Machine
end

