-- ==== Sys2Proof/Laws/Tx.lean ====
section
/-! SUPPORT. What transactions can do, in the terms of the statements: `Tx n ls s t` says that `n` transactions led from
`s` to `t` and that no register but those at the locations of `ls` was touched. It composes, so the lemma of a longer
run is put together from those of its transactions. -/

namespace Sys2Proof.Machine

/-! ## The bits the device sets over several transactions -/

theorem foldl_or_bits (f : Nat → Reg) (l : List Nat) (x : Reg) :
    l.foldl (fun x i => x ||| f i) x = x ||| l.foldl (fun x i => x ||| f i) 0 := by
  induction l generalizing x with
  | nil => simp
  | cons i l ih => rw [List.foldl_cons, List.foldl_cons, ih, ih (0 ||| f i)]; simp [BitVec.or_assoc]

@[simp] theorem setsAhead_zero (s : State) (k : Nat) (p a : Reg) : s.setsAhead k 0 p a = 0 := rfl

theorem setsAhead_one (s : State) (k : Nat) (p a : Reg) : s.setsAhead k 1 p a = eventBits (s.eventAhead k) p a := by
  simp [State.setsAhead]

theorem setsAhead_add (s : State) (k n m : Nat) (p a : Reg) :
    s.setsAhead k (n + m) p a = s.setsAhead k n p a ||| s.setsAhead (k + n) m p a := by
  simp only [State.setsAhead, List.range_add, List.foldl_append, List.foldl_map]
  rw [foldl_or_bits (fun i => eventBits (s.eventAhead (k + (n + i))) p a)]
  simp only [Nat.add_assoc]

theorem setsAhead_shift {s t : State} {n : Nat} (h : ∀ k, t.eventAhead k = s.eventAhead (n + k)) (k m : Nat) (p a : Reg) :
    t.setsAhead k m p a = s.setsAhead (n + k) m p a := by
  simp only [State.setsAhead, h, Nat.add_assoc]

/-! ## The store invariants -/

/-- The part of the invariant that is about the register stores. -/
structure State.RegsOk (s : State) : Prop where
  bankWf : s.dev.bank.wf
  flatWf : s.dev.flat.wf
  pendingWf : s.dev.pending.wf
  bankBanked : ∀ c ∈ s.dev.bank, ∃ p a, s.cfg.isBanked a = true ∧ c.1 = locKey p a
  flatUnbanked : ∀ c ∈ s.dev.flat, ∃ a, s.cfg.isBanked a = false ∧ a ≠ s.cfg.pageSel ∧ c.1 = a.toNat
  pendingAtStatus : ∀ c ∈ s.dev.pending, ∃ p a, s.cfg.isStatus p a = true ∧ c.1 = locKey p a

theorem locAt_bank {c : Cfg} {page a p a' : Reg} (h : locAt c page a = .bank p a') :
    p = page ∧ a' = a ∧ c.isBanked a = true := by
  unfold locAt at h
  split at h
  · cases h
  · split at h
    · rename_i hb; cases h; exact ⟨rfl, rfl, hb⟩
    · cases h

theorem locAt_flat {c : Cfg} {page a a' : Reg} (h : locAt c page a = .flat a') :
    a' = a ∧ c.isBanked a = false ∧ a ≠ c.pageSel := by
  unfold locAt at h
  split at h
  · cases h
  · split at h
    · cases h
    · rename_i h1 h2; cases h; exact ⟨rfl, by simpa using h2, h1⟩

theorem locAt_psReg {c : Cfg} {page a : Reg} : locAt c page a = .psReg ↔ a = c.pageSel := by
  unfold locAt
  split
  · simp [*]
  · split <;> simp [*]

@[simp] theorem locAt_pageSel (c : Cfg) (page : Reg) : locAt c page c.pageSel = .psReg := locAt_psReg.mpr rfl

theorem regsOk_setBank {s : State} {p a : Reg} (h : s.RegsOk) (hb : s.cfg.isBanked a = true) (v : Reg) :
    (s.setBank p a v).RegsOk where
  bankWf := Memory.wf_store h.bankWf _ _
  flatWf := h.flatWf
  pendingWf := h.pendingWf
  bankBanked c hc := by
    rcases Memory.mem_store hc with rfl | hc
    · exact ⟨p, a, hb, rfl⟩
    · exact h.bankBanked c hc
  flatUnbanked := h.flatUnbanked
  pendingAtStatus := h.pendingAtStatus

theorem regsOk_setFlat {s : State} {a : Reg} (h : s.RegsOk) (hb : s.cfg.isBanked a = false) (ha : a ≠ s.cfg.pageSel)
    (v : Reg) : (s.setFlat a v).RegsOk where
  bankWf := h.bankWf
  flatWf := Memory.wf_store h.flatWf _ _
  pendingWf := h.pendingWf
  bankBanked := h.bankBanked
  flatUnbanked c hc := by
    rcases Memory.mem_store hc with rfl | hc
    · exact ⟨a, hb, ha, rfl⟩
    · exact h.flatUnbanked c hc
  pendingAtStatus := h.pendingAtStatus

theorem regsOk_setPending {s : State} {p a : Reg} (h : s.RegsOk) (hs : s.cfg.isStatus p a = true) (v : Reg) :
    (s.setPending p a v).RegsOk where
  bankWf := h.bankWf
  flatWf := h.flatWf
  pendingWf := Memory.wf_store h.pendingWf _ _
  bankBanked := h.bankBanked
  flatUnbanked := h.flatUnbanked
  pendingAtStatus c hc := by
    rcases Memory.mem_store hc with rfl | hc
    · exact ⟨p, a, hs, rfl⟩
    · exact h.pendingAtStatus c hc

theorem State.RegsOk.congr {s t : State} (h : s.RegsOk) (hd : t.dev.bank = s.dev.bank) (hf : t.dev.flat = s.dev.flat)
    (hp : t.dev.pending = s.dev.pending) (hc : t.cfg = s.cfg) : t.RegsOk := by
  obtain ⟨h1, h2, h3, h4, h5, h6⟩ := h
  exact ⟨hd ▸ h1, hf ▸ h2, hp ▸ h3, by rw [hd, hc]; exact h4, by rw [hf, hc]; exact h5, by rw [hp, hc]; exact h6⟩

/-! ## Registers and pending bits over two stretches -/

theorem SameRegsBut.refl (ls : List (Reg × Reg)) (s : State) : SameRegsBut ls s s :=
  ⟨fun _ _ _ => rfl, fun _ _ => rfl⟩

theorem SameRegsBut.trans {rs rs' : List (Reg × Reg)} {s t u : State} (hc : t.cfg = s.cfg) (h1 : SameRegsBut rs s t)
    (h2 : SameRegsBut rs' t u) : SameRegsBut (rs ++ rs') s u := by
  refine ⟨fun p a h => ?_, fun a h => ?_⟩
  · rw [h2.1 p a fun l hl => hc ▸ h l (List.mem_append_right _ hl), h1.1 p a fun l hl => h l (List.mem_append_left _ hl)]
  · rw [h2.2 a fun l hl => hc ▸ h l (List.mem_append_right _ hl), h1.2 a fun l hl => h l (List.mem_append_left _ hl)]

theorem SameRegsBut.mono {rs rs' : List (Reg × Reg)} {s t : State} (h : SameRegsBut rs s t) (hr : ∀ l ∈ rs, l ∈ rs') :
    SameRegsBut rs' s t :=
  ⟨fun p a hp => h.1 p a fun l hl => hp l (hr l hl), fun a ha => h.2 a fun l hl => ha l (hr l hl)⟩

theorem PendingOnlySet.trans {qs qs' : List (Reg × Reg)} {n m : Nat} {s t u : State} (hc : t.cfg = s.cfg)
    (he : ∀ k, t.eventAhead k = s.eventAhead (n + k)) (h1 : PendingOnlySet qs n s t) (h2 : PendingOnlySet qs' m t u) :
    PendingOnlySet (qs ++ qs') (n + m) s u := by
  intro p a v h hv
  have e1 := h1 p a v (fun l hl => h l (List.mem_append_left _ hl)) hv
  rw [h2 p a _ (fun l hl => hc ▸ h l (List.mem_append_right _ hl)) e1, hc]
  split
  · rw [setsAhead_add, setsAhead_shift he, BitVec.or_assoc]; simp
  · rfl

theorem PendingOnlySet.mono {qs qs' : List (Reg × Reg)} {n : Nat} {s t : State} (h : PendingOnlySet qs n s t)
    (hq : ∀ l ∈ qs, l ∈ qs') : PendingOnlySet qs' n s t :=
  fun p a v hp hv => h p a v (fun l hl => hp l (hq l hl)) hv

/-! ## Transactions -/

/-- `n` transactions lead from `s` to `t`; no register but those at the locations of `rs` is touched, and no pending
bits but those at the locations of `qs`. -/
structure Tx (n : Nat) (rs qs : List (Reg × Reg)) (s t : State) : Prop where
  core : t.core = s.core
  cfg : t.cfg = s.cfg
  index : t.index = s.index
  commands : t.commands = s.commands
  chip : t.draws.chip = s.draws.chip
  platform : t.draws.platform = s.draws.platform
  generic : t.draws.generic = s.draws.generic
  bus : ∀ k, t.busAhead k = s.busAhead (n + k)
  events : ∀ k, t.eventAhead k = s.eventAhead (n + k)
  regs : SameRegsBut rs s t
  pending : PendingOnlySet qs n s t
  regsOk : s.RegsOk → t.RegsOk

theorem Tx.refl (s : State) : Tx 0 [] [] s s where
  core := rfl
  cfg := rfl
  index := rfl
  commands := rfl
  chip := rfl
  platform := rfl
  generic := rfl
  bus k := by rw [Nat.zero_add]
  events k := by rw [Nat.zero_add]
  regs := ⟨fun _ _ _ => rfl, fun _ _ => rfl⟩
  pending p a v _ h := by simp [h]
  regsOk := id

theorem Tx.trans {n m : Nat} {rs qs rs' qs' : List (Reg × Reg)} {s t u : State} (h1 : Tx n rs qs s t)
    (h2 : Tx m rs' qs' t u) : Tx (n + m) (rs ++ rs') (qs ++ qs') s u where
  core := h2.core.trans h1.core
  cfg := h2.cfg.trans h1.cfg
  index := h2.index.trans h1.index
  commands := h2.commands.trans h1.commands
  chip := h2.chip.trans h1.chip
  platform := h2.platform.trans h1.platform
  generic := h2.generic.trans h1.generic
  bus k := by rw [h2.bus, h1.bus, Nat.add_assoc]
  events k := by rw [h2.events, h1.events, Nat.add_assoc]
  regs := h1.regs.trans h1.cfg h2.regs
  pending := h1.pending.trans h1.cfg h1.events h2.pending
  regsOk h := h2.regsOk (h1.regsOk h)

/-- A weaker account: more locations. -/
theorem Tx.mono {n : Nat} {rs qs rs' qs' : List (Reg × Reg)} {s t : State} (h : Tx n rs qs s t)
    (hr : ∀ l ∈ rs, l ∈ rs') (hq : ∀ l ∈ qs, l ∈ qs') : Tx n rs' qs' s t :=
  { h with
    regs := h.regs.mono hr
    pending := h.pending.mono hq }

/-- The register that a write touches (R53): none at the page-select address, a status location or an unimplemented
page. -/
def wroteAt (c : Cfg) (p a : Reg) : List (Reg × Reg) :=
  match locAt c p a with
  | .psReg => []
  | .bank q b => if c.isStatus q b = false ∧ c.isImplemented q = true then [(p, a)] else []
  | .flat _ => [(p, a)]

/-- The register that a read touches, by fixing what it holds (R52): a storage register. -/
def readAt (c : Cfg) (p a : Reg) : List (Reg × Reg) := if storesAt c p a then [(p, a)] else []

/-- The pending bits that an access touches: those of a status location (R52, R37). -/
def ackedAt (c : Cfg) (p a : Reg) : List (Reg × Reg) :=
  match locAt c p a with
  | .psReg => []
  | .bank q b => if c.isStatus q b = true then [(p, a)] else []
  | .flat _ => []

@[simp] theorem wroteAt_pageSel (c : Cfg) (p : Reg) : wroteAt c p c.pageSel = [] := by simp [wroteAt]
@[simp] theorem ackedAt_pageSel (c : Cfg) (p : Reg) : ackedAt c p c.pageSel = [] := by simp [ackedAt]

theorem wroteAt_sub (c : Cfg) (p a : Reg) : ∀ l ∈ wroteAt c p a, l = (p, a) := by
  intro l; unfold wroteAt; split
  · simp
  · split <;> simp
  · simp

theorem readAt_sub (c : Cfg) (p a : Reg) : ∀ l ∈ readAt c p a, l = (p, a) := by
  intro l; unfold readAt; split <;> simp

theorem ackedAt_sub (c : Cfg) (p a : Reg) : ∀ l ∈ ackedAt c p a, l = (p, a) := by
  intro l; unfold ackedAt; split
  · simp
  · split <;> simp
  · simp

theorem turn_pendingCell_status {s : State} {p a v : Reg} (hs : s.cfg.isStatus p a = true)
    (h : s.pendingCell p a = some v) : s.turn.pendingCell p a = some (v ||| eventBits (s.eventAhead 0) p a) := by
  have := deviceSets_bits (s.eventAhead 0) (s := s.drawEvent.2) (p := p) (a := a) (v := v) hs h
  rw [← deviceActs_eq] at this
  exact this

theorem deviceSets_other {s : State} {e : (Reg × Reg) × Reg} {p a : Reg} (hs : s.cfg.isStatus p a = false) :
    (deviceSets s e).pendingCell p a = s.pendingCell p a := by
  unfold deviceSets
  split
  · rename_i h
    have hne : (p, a) ≠ (e.1.1, e.1.2) := by
      intro hh; obtain ⟨rfl, rfl⟩ := Prod.mk.inj hh; rw [hs] at h; cases h
    simp only [State.pendingCell_setPending]
    rw [if_neg (fun hh => hne (Prod.ext hh.1 hh.2)), takePending_other hne]
  · rfl

theorem deviceActs_pendingCell_other {s : State} {p a : Reg} (hs : s.cfg.isStatus p a = false) :
    (deviceActs s).pendingCell p a = s.pendingCell p a := by
  rw [deviceActs_eq]
  have : ∀ (ev : DeviceEvent) (s : State), s.cfg.isStatus p a = false →
      (ev.foldl deviceSets s).pendingCell p a = s.pendingCell p a := by
    intro ev
    induction ev with
    | nil => intros; rfl
    | cons e ev ih =>
      intro s hs
      rw [List.foldl_cons, ih _ (by rw [(deviceSets_frame s e).cfg]; exact hs), deviceSets_other hs]
  exact this _ _ hs

/-- A turn is one transaction that touches no register. -/
theorem turn_tx (s : State) : Tx 1 [] [] s s.turn := by
  have h := turn_frame s
  exact {
    core := h.core, cfg := h.cfg, index := h.index, commands := h.commands, chip := h.chip, platform := h.platform
    generic := h.generic
    bus := fun k => by rw [h.busAhead, Nat.add_comm]
    events := fun k => by rw [h.eventAhead, Nat.add_comm]
    regs := ⟨fun p a _ => by simp only [State.bankCell, h.bank], fun a _ => by simp only [State.flatCell, h.flat]⟩
    pending := fun p a v _ hv => by
      by_cases hs : s.cfg.isStatus p a = true
      · rw [if_pos hs, turn_pendingCell_status hs hv, setsAhead_one]
      · rw [if_neg hs]
        exact (deviceActs_pendingCell_other (by simpa using hs)).trans hv
    regsOk := fun hr => ⟨h.bank ▸ hr.bankWf, h.flat ▸ hr.flatWf, h.pendingWf hr.pendingWf,
      by rw [h.bank, h.cfg]; exact hr.bankBanked, by rw [h.flat, h.cfg]; exact hr.flatUnbanked,
      by rw [h.cfg]; exact h.pendingAtStatus hr.pendingAtStatus⟩ }

/-- An update that keeps everything but the registers at one location, said as no transaction at all. -/
theorem Tx.ofEffect {s t : State} {rs qs : List (Reg × Reg)} (hcore : t.core = s.core) (hcfg : t.cfg = s.cfg)
    (hindex : t.index = s.index) (hcommands : t.commands = s.commands) (hchip : t.draws.chip = s.draws.chip)
    (hplatform : t.draws.platform = s.draws.platform) (hgeneric : t.draws.generic = s.draws.generic)
    (hbus : t.draws.bus = s.draws.bus) (hevents : t.draws.events = s.draws.events)
    (hregs : SameRegsBut rs s t)
    (hpending : ∀ p a, (∀ l ∈ qs, locAt s.cfg l.1 l.2 ≠ .bank p a) → t.pendingCell p a = s.pendingCell p a)
    (hok : s.RegsOk → t.RegsOk) : Tx 0 rs qs s t where
  core := hcore
  cfg := hcfg
  index := hindex
  commands := hcommands
  chip := hchip
  platform := hplatform
  generic := hgeneric
  bus k := by simp [State.busAhead, hbus, hchip]
  events k := by simp [State.eventAhead, hevents, hchip]
  regs := hregs
  pending p a v h hv := by rw [hpending p a h, hv]; simp
  regsOk := hok

theorem writeEffect_tx (s : State) (a v : Reg) :
    Tx 0 (wroteAt s.cfg s.dev.ps a) (ackedAt s.cfg s.dev.ps a) s (writeEffect a v s) := by
  unfold writeEffect State.loc wroteAt ackedAt
  cases hl : locAt s.cfg s.dev.ps a with
  | psReg =>
    refine Tx.ofEffect rfl rfl rfl rfl rfl rfl rfl rfl rfl ⟨fun _ _ _ => rfl, fun _ _ => rfl⟩ (fun _ _ _ => rfl) ?_
    exact fun h => h.congr rfl rfl rfl rfl
  | bank p b =>
    dsimp only
    by_cases hs : s.cfg.isStatus p b = true
    · rw [if_pos hs, if_neg (by simp [hs]), if_pos hs]
      refine Tx.ofEffect rfl rfl rfl rfl rfl rfl rfl rfl rfl ⟨fun _ _ _ => rfl, fun _ _ => rfl⟩ ?_ ?_
      · intro q c h
        simp only [State.pendingCell_setPending]
        rw [if_neg]
        · rfl
        · rintro ⟨rfl, rfl⟩
          exact h _ (List.mem_singleton_self _) hl
      · intro h
        exact regsOk_setPending (s := s.drawValue.2) (h.congr rfl rfl rfl rfl) hs _
    · rw [if_neg hs, if_neg hs]
      by_cases hi : s.cfg.isImplemented p = true
      · rw [if_pos ⟨by simpa using hs, hi⟩, if_pos hi]
        refine Tx.ofEffect rfl rfl rfl rfl rfl rfl rfl rfl rfl ⟨?_, fun _ _ => rfl⟩ (fun _ _ _ => rfl) ?_
        · intro q c h
          rw [State.bankCell_setBank, if_neg]
          rintro ⟨rfl, rfl⟩
          exact h _ (List.mem_singleton_self _) hl
        · exact fun h => regsOk_setBank h ((locAt_bank hl).2.1 ▸ (locAt_bank hl).2.2) _
      · rw [if_neg (by simp [hi]), if_neg hi]
        exact Tx.refl s
  | flat b =>
    dsimp only
    refine Tx.ofEffect rfl rfl rfl rfl rfl rfl rfl rfl rfl ⟨fun _ _ _ => rfl, ?_⟩ (fun _ _ _ => rfl) ?_
    · intro c h
      rw [State.flatCell_setFlat, if_neg]
      rintro rfl
      exact h _ (List.mem_singleton_self _) hl
    · obtain ⟨rfl, h1, h2⟩ := locAt_flat hl
      exact fun h => regsOk_setFlat h h1 h2 _

theorem failedReadEffect_tx (s : State) (a : Reg) :
    Tx 0 [] (ackedAt s.cfg s.dev.ps a) s (failedReadEffect a s) := by
  unfold failedReadEffect State.loc ackedAt
  cases hl : locAt s.cfg s.dev.ps a with
  | psReg => exact Tx.refl s
  | flat b => exact Tx.refl s
  | bank p b =>
    dsimp only
    split
    · rename_i hs
      refine Tx.ofEffect rfl rfl rfl rfl rfl rfl rfl rfl rfl ⟨fun _ _ _ => rfl, fun _ _ => rfl⟩ ?_ ?_
      · intro q c h
        simp only [State.pendingCell_setPending]
        rw [if_neg]
        rintro ⟨rfl, rfl⟩
        exact h _ (List.mem_singleton_self _) hl
      · exact fun h => regsOk_setPending h hs _
    · exact Tx.refl s

theorem readEffect_tx (s : State) (a : Reg) :
    Tx 0 (readAt s.cfg s.dev.ps a) (ackedAt s.cfg s.dev.ps a) s (readEffect a s).2 := by
  unfold readEffect State.loc ackedAt readAt storesAt
  cases hl : locAt s.cfg s.dev.ps a with
  | psReg => exact Tx.refl s
  | bank p b =>
    dsimp only
    have hne : ∀ q c, (∀ l ∈ [(s.dev.ps, a)], locAt s.cfg l.1 l.2 ≠ .bank q c) → (q, c) ≠ (p, b) := by
      intro q c h hh
      obtain ⟨rfl, rfl⟩ := Prod.mk.inj hh
      exact h _ (List.mem_singleton_self _) hl
    by_cases hs : s.cfg.isStatus p b = true
    · rw [if_pos hs, if_pos hs, if_neg (by simp [Cfg.isStorage, hs])]
      have h1 := takePending_frame hs
      refine Tx.ofEffect h1.core h1.cfg h1.index h1.commands h1.chip h1.platform h1.generic h1.bus h1.events
        ⟨fun q c _ => ?_, fun c _ => ?_⟩ ?_ ?_
      · simp only [State.bankCell, State.setPending_dev_bank, h1.bank]
      · simp only [State.flatCell, State.setPending_dev_flat, h1.flat]
      · intro q c h
        simp only [State.pendingCell_setPending]
        rw [if_neg fun hh => hne q c h (Prod.ext hh.1 hh.2), takePending_other (hne q c h)]
      · intro h
        refine regsOk_setPending ⟨?_, ?_, h1.pendingWf h.pendingWf, ?_, ?_, ?_⟩ (by rw [h1.cfg]; exact hs) _
        · rw [h1.bank]; exact h.bankWf
        · rw [h1.flat]; exact h.flatWf
        · rw [h1.bank, h1.cfg]; exact h.bankBanked
        · rw [h1.flat, h1.cfg]; exact h.flatUnbanked
        · rw [h1.cfg]; exact h1.pendingAtStatus h.pendingAtStatus
    · rw [if_neg hs, if_neg hs]
      split
      · unfold takeBank
        cases hc : s.bankCell p b with
        | some w => exact (Tx.refl s).mono (by simp) (by simp)
        | none =>
          refine Tx.ofEffect rfl rfl rfl rfl rfl rfl rfl rfl rfl ⟨?_, fun _ _ => rfl⟩ (fun _ _ _ => rfl) ?_
          · intro q c h
            simp only [State.bankCell_setBank]
            rw [if_neg fun hh => hne q c h (Prod.ext hh.1 hh.2)]; rfl
          · exact fun h => regsOk_setBank (s := s.drawValue.2) (h.congr rfl rfl rfl rfl)
              ((locAt_bank hl).2.1 ▸ (locAt_bank hl).2.2) _
      · refine Tx.ofEffect rfl rfl rfl rfl rfl rfl rfl rfl rfl ⟨fun _ _ _ => rfl, fun _ _ => rfl⟩ (fun _ _ _ => rfl) ?_
        exact fun h => h.congr rfl rfl rfl rfl
  | flat b =>
    dsimp only
    rw [if_pos rfl]
    unfold takeFlat
    cases hc : s.flatCell b with
    | some w => exact (Tx.refl s).mono (by simp) (by simp)
    | none =>
      refine Tx.ofEffect rfl rfl rfl rfl rfl rfl rfl rfl rfl ⟨fun _ _ _ => rfl, ?_⟩ (fun _ _ _ => rfl) ?_
      · intro c h
        simp only [State.flatCell_setFlat]
        rw [if_neg]
        · rfl
        · rintro rfl
          exact h _ (List.mem_singleton_self _) hl
      · obtain ⟨rfl, h1, h2⟩ := locAt_flat hl
        exact fun h => regsOk_setFlat (s := s.drawValue.2) (h.congr rfl rfl rfl rfl) h1 h2 _

theorem addEv_tx (s : State) (e : Ev) : Tx 0 [] [] s (s.addEv e) :=
  Tx.ofEffect rfl rfl rfl rfl rfl rfl rfl rfl rfl ⟨fun _ _ _ => rfl, fun _ _ => rfl⟩ (fun _ _ _ => rfl)
    fun h => h.congr rfl rfl rfl rfl

/-- One write transaction, whatever its outcome. -/
theorem memWrite_tx (s : State) (a v : Reg) :
    Tx 1 (wroteAt s.cfg s.dev.ps a) (ackedAt s.cfg s.dev.ps a) s (memWrite a v s).2 := by
  rw [memWrite_eq]
  split
  · have h := writeEffect_tx s.turn a v
    rw [(turn_frame s).ps, (turn_frame s).cfg] at h
    exact (((turn_tx s).trans h).trans (addEv_tx _ _)).mono (by simp) (by simp)
  · exact ((turn_tx s).trans (addEv_tx _ _)).mono (by simp) (by simp)

/-- One read transaction, whatever its outcome. -/
theorem memRead_tx (s : State) (a : Reg) :
    Tx 1 (if s.busAhead 0 = .ok then readAt s.cfg s.dev.ps a else []) (ackedAt s.cfg s.dev.ps a) s (memRead a s).2 := by
  cases h : s.busAhead 0 with
  | ok =>
    rw [memRead_ok a h, if_pos rfl]
    have h := readEffect_tx s.turn a
    rw [(turn_frame s).ps, (turn_frame s).cfg] at h
    exact (((turn_tx s).trans h).trans (addEv_tx _ _)).mono (by simp) (by simp)
  | err e took =>
    rw [memRead_err a h, if_neg (by simp)]
    cases took with
    | true =>
      have h := failedReadEffect_tx s.turn a
      rw [(turn_frame s).ps, (turn_frame s).cfg] at h
      exact (((turn_tx s).trans h).trans (addEv_tx _ _)).mono (by simp) (by simp)
    | false => exact ((turn_tx s).trans (addEv_tx _ _)).mono (by simp) (by simp)

/-- A transaction that failed and took no effect touches nothing. -/
theorem memWrite_tx_lost {s : State} (a v : Reg) (h : landed (s.busAhead 0) = false) :
    Tx 1 [] [] s (memWrite a v s).2 := by
  rw [memWrite_eq, h]
  exact ((turn_tx s).trans (addEv_tx _ _)).mono (by simp) (by simp)

theorem memRead_tx_lost {s : State} (a : Reg) {e : BusErr} (h : s.busAhead 0 = .err e false) :
    Tx 1 [] [] s (memRead a s).2 := by
  rw [memRead_err a h]
  exact ((turn_tx s).trans (addEv_tx _ _)).mono (by simp) (by simp)

/-! ## PS, the log and the reply of one transaction -/

theorem writeEffect_ps (s : State) (a v : Reg) :
    (writeEffect a v s).dev.ps = if a = s.cfg.pageSel then v else s.dev.ps := by
  unfold writeEffect State.loc
  cases hl : locAt s.cfg s.dev.ps a with
  | psReg => simp [locAt_psReg.mp hl]
  | bank p b =>
    have : a ≠ s.cfg.pageSel := fun h => by rw [locAt_psReg.mpr h] at hl; cases hl
    rw [if_neg this]
    dsimp only
    split
    · rfl
    · split <;> rfl
  | flat b =>
    have : a ≠ s.cfg.pageSel := fun h => by rw [locAt_psReg.mpr h] at hl; cases hl
    rw [if_neg this]; rfl

theorem writeEffect_log (s : State) (a v : Reg) : (writeEffect a v s).log = s.log := by
  unfold writeEffect
  split
  · rfl
  · split
    · rfl
    · split <;> rfl
  · rfl

theorem failedReadEffect_psLog (s : State) (a : Reg) :
    (failedReadEffect a s).dev.ps = s.dev.ps ∧ (failedReadEffect a s).log = s.log := by
  unfold failedReadEffect
  split
  · exact ⟨rfl, rfl⟩
  · split <;> exact ⟨rfl, rfl⟩
  · exact ⟨rfl, rfl⟩

theorem readEffect_psLog (s : State) (a : Reg) :
    (readEffect a s).2.dev.ps = s.dev.ps ∧ (readEffect a s).2.log = s.log := by
  unfold readEffect
  split
  · exact ⟨rfl, rfl⟩
  · split
    · rename_i h
      exact ⟨(takePending_frame h).ps, (takePending_frame h).log⟩
    · split
      · unfold takeBank; split <;> exact ⟨rfl, rfl⟩
      · exact ⟨rfl, rfl⟩
  · unfold takeFlat; split <;> exact ⟨rfl, rfl⟩

theorem memWrite_ps (s : State) (a v : Reg) :
    (memWrite a v s).2.dev.ps = if landed (s.busAhead 0) = true ∧ a = s.cfg.pageSel then v else s.dev.ps := by
  rw [memWrite_eq]
  cases landed (s.busAhead 0) <;> simp [writeEffect_ps, (turn_frame s).ps, (turn_frame s).cfg]

theorem memWrite_log (s : State) (a v : Reg) :
    (memWrite a v s).2.log = s.log ++ [.busW a v (answerReply (s.busAhead 0))] := by
  rw [memWrite_eq]
  cases landed (s.busAhead 0) <;> simp [writeEffect_log, (turn_frame s).log]

theorem memWrite_fst (s : State) (a v : Reg) : (memWrite a v s).1 = answerReply (s.busAhead 0) := by
  rw [memWrite_eq]

theorem memRead_ps (s : State) (a : Reg) : (memRead a s).2.dev.ps = s.dev.ps := by
  cases h : s.busAhead 0 with
  | ok => rw [memRead_ok a h]; simp [(readEffect_psLog _ _).1, (turn_frame s).ps]
  | err e took => rw [memRead_err a h]; cases took <;> simp [(failedReadEffect_psLog _ _).1, (turn_frame s).ps]

theorem memRead_log (s : State) (a : Reg) : (memRead a s).2.log = s.log ++ [.busR a (memRead a s).1] := by
  cases h : s.busAhead 0 with
  | ok => rw [memRead_ok a h]; simp [(readEffect_psLog _ _).2, (turn_frame s).log]
  | err e took => rw [memRead_err a h]; cases took <;> simp [(failedReadEffect_psLog _ _).2, (turn_frame s).log]

theorem memRead_fst_ok {s : State} {a : Reg} (h : s.busAhead 0 = .ok) : ∃ v, (memRead a s).1 = .ok v := by
  rw [memRead_ok a h]; exact ⟨_, rfl⟩

theorem memRead_fst_err {s : State} {a : Reg} {e : BusErr} {took : Bool} (h : s.busAhead 0 = .err e took) :
    (memRead a s).1 = .err e := by
  rw [memRead_err a h]

end Sys2Proof.Machine
end

