-- ==== Sys2Proof/Laws/Runs.lean ====
section
/-! SUPPORT. What a run of transactions does: the registers it touches and the events it logs, the error it answers, and
that it neither reads nor needs the log (`Ran`). It composes over `andThen` and `tryFinally`, and the paged access, the
LED sequence and the power-down assist are put together from it. What a transaction that took effect leaves at its own
location is said by `WroteCell` and `ReadDone`. -/

namespace Sys2Proof.Machine

/-! ## A run does not look at the log -/

/-- The state with another log and another command index. -/
def State.relog (s : State) (l : List Ev) (k : Nat) : State := { s with log := l, index := k }

@[simp] theorem State.relog_core (s : State) (l : List Ev) (k : Nat) : (s.relog l k).core = s.core := rfl
@[simp] theorem State.relog_cfg (s : State) (l : List Ev) (k : Nat) : (s.relog l k).cfg = s.cfg := rfl
@[simp] theorem State.relog_dev (s : State) (l : List Ev) (k : Nat) : (s.relog l k).dev = s.dev := rfl
@[simp] theorem State.relog_log (s : State) (l : List Ev) (k : Nat) : (s.relog l k).log = l := rfl
@[simp] theorem State.relog_index (s : State) (l : List Ev) (k : Nat) : (s.relog l k).index = k := rfl
@[simp] theorem State.relog_commands (s : State) (l : List Ev) (k : Nat) : (s.relog l k).commands = s.commands := rfl
@[simp] theorem State.relog_draws (s : State) (l : List Ev) (k : Nat) : (s.relog l k).draws = s.draws := rfl
@[simp] theorem State.relog_relog (s : State) (l m : List Ev) (k n : Nat) : (s.relog l k).relog m n = s.relog m n := rfl
@[simp] theorem State.relog_self (s : State) : s.relog s.log s.index = s := rfl
@[simp] theorem State.relog_busAhead (s : State) (l : List Ev) (k n : Nat) : (s.relog l k).busAhead n = s.busAhead n := rfl

theorem takePending_relog (s : State) (p a : Reg) (l : List Ev) (k : Nat) :
    takePending p a (s.relog l k) = ((takePending p a s).1, (takePending p a s).2.relog l k) := by
  have hr : (s.relog l k).pendingCell p a = s.pendingCell p a := rfl
  cases h : s.pendingCell p a with
  | some v => rw [takePending_some h, takePending_some (hr.trans h)]
  | none => rw [takePending_none h, takePending_none (hr.trans h)]; rfl

theorem deviceSets_relog (s : State) (e : (Reg × Reg) × Reg) (l : List Ev) (k : Nat) :
    deviceSets (s.relog l k) e = (deviceSets s e).relog l k := by
  unfold deviceSets
  by_cases h : s.cfg.isStatus e.1.1 e.1.2 = true
  · rw [if_pos h, if_pos (by exact h), takePending_relog]; rfl
  · rw [if_neg h, if_neg (by exact h)]

theorem turn_relog (s : State) (l : List Ev) (k : Nat) : (s.relog l k).turn = s.turn.relog l k := by
  have key : ∀ (ev : DeviceEvent) (s : State),
      ev.foldl deviceSets (s.relog l k) = (ev.foldl deviceSets s).relog l k := by
    intro ev
    induction ev with
    | nil => intro s; rfl
    | cons e ev ih => intro s; rw [List.foldl_cons, deviceSets_relog, ih]; rfl
  have : deviceActs (s.relog l k) = (deviceActs s).relog l k := by
    rw [deviceActs_eq, deviceActs_eq]; exact key (s.eventAhead 0) s.drawEvent.2
  rw [State.turn, this]; rfl

/-! The effects, one equation for each kind of location. -/

theorem writeEffect_psReg {s : State} {a : Reg} (v : Reg) (h : s.loc a = .psReg) : writeEffect a v s = s.setPs v := by
  simp [writeEffect, h]

theorem writeEffect_status {s : State} {a p b : Reg} (v : Reg) (h : s.loc a = .bank p b)
    (hs : s.cfg.isStatus p b = true) :
    writeEffect a v s = s.drawValue.2.setPending p b s.drawValue.1 := by simp [writeEffect, h, hs]

theorem writeEffect_bank {s : State} {a p b : Reg} (v : Reg) (h : s.loc a = .bank p b)
    (hs : s.cfg.isStatus p b = false) (hi : s.cfg.isImplemented p = true) : writeEffect a v s = s.setBank p b v := by
  simp [writeEffect, h, hs, hi]

theorem writeEffect_unimplemented {s : State} {a p b : Reg} (v : Reg) (h : s.loc a = .bank p b)
    (hs : s.cfg.isStatus p b = false) (hi : s.cfg.isImplemented p = false) : writeEffect a v s = s := by
  simp [writeEffect, h, hs, hi]

theorem writeEffect_flat {s : State} {a b : Reg} (v : Reg) (h : s.loc a = .flat b) :
    writeEffect a v s = s.setFlat b v := by simp [writeEffect, h]

theorem failedReadEffect_status {s : State} {a p b : Reg} (h : s.loc a = .bank p b) (hs : s.cfg.isStatus p b = true) :
    failedReadEffect a s = s.setPending p b 0x0000 := by simp [failedReadEffect, h, hs]

theorem failedReadEffect_other {s : State} {a : Reg} (h : ∀ p b, s.loc a = .bank p b → s.cfg.isStatus p b = false) :
    failedReadEffect a s = s := by
  unfold failedReadEffect
  split
  · rfl
  · rename_i hl; rw [h _ _ hl]; rfl
  · rfl

theorem readEffect_psReg {s : State} {a : Reg} (h : s.loc a = .psReg) : readEffect a s = (s.dev.ps, s) := by
  simp [readEffect, h]

theorem readEffect_status {s : State} {a p b : Reg} (h : s.loc a = .bank p b) (hs : s.cfg.isStatus p b = true) :
    readEffect a s = ((takePending p b s).1, (takePending p b s).2.setPending p b 0x0000) := by
  simp [readEffect, h, hs]

theorem readEffect_bank {s : State} {a p b : Reg} (h : s.loc a = .bank p b) (hs : s.cfg.isStatus p b = false)
    (hi : s.cfg.isStorage p b = true) : readEffect a s = takeBank p b s := by simp [readEffect, h, hs, hi]

theorem readEffect_draw {s : State} {a p b : Reg} (h : s.loc a = .bank p b) (hs : s.cfg.isStatus p b = false)
    (hi : s.cfg.isStorage p b = false) : readEffect a s = s.drawValue := by simp [readEffect, h, hs, hi]

theorem readEffect_flat {s : State} {a b : Reg} (h : s.loc a = .flat b) : readEffect a s = takeFlat b s := by
  simp [readEffect, h]

theorem writeEffect_relog (s : State) (a v : Reg) (l : List Ev) (k : Nat) :
    writeEffect a v (s.relog l k) = (writeEffect a v s).relog l k := by
  cases h : s.loc a with
  | psReg => rw [writeEffect_psReg v h, writeEffect_psReg v (s := s.relog l k) h]; rfl
  | bank p b =>
    cases hs : s.cfg.isStatus p b with
    | true => rw [writeEffect_status v h hs, writeEffect_status v (s := s.relog l k) h hs]; rfl
    | false =>
      cases hi : s.cfg.isImplemented p with
      | true => rw [writeEffect_bank v h hs hi, writeEffect_bank v (s := s.relog l k) h hs hi]; rfl
      | false => rw [writeEffect_unimplemented v h hs hi, writeEffect_unimplemented v (s := s.relog l k) h hs hi]
  | flat b => rw [writeEffect_flat v h, writeEffect_flat v (s := s.relog l k) h]; rfl

theorem failedReadEffect_relog (s : State) (a : Reg) (l : List Ev) (k : Nat) :
    failedReadEffect a (s.relog l k) = (failedReadEffect a s).relog l k := by
  by_cases h : ∀ p b, s.loc a = .bank p b → s.cfg.isStatus p b = false
  · rw [failedReadEffect_other h, failedReadEffect_other (s := s.relog l k) h]
  · push Not at h
    obtain ⟨p, b, h, hs⟩ := h
    have hs : s.cfg.isStatus p b = true := by simpa using hs
    rw [failedReadEffect_status h hs, failedReadEffect_status (s := s.relog l k) h hs]; rfl

theorem readEffect_relog (s : State) (a : Reg) (l : List Ev) (k : Nat) :
    readEffect a (s.relog l k) = ((readEffect a s).1, (readEffect a s).2.relog l k) := by
  cases h : s.loc a with
  | psReg => rw [readEffect_psReg h, readEffect_psReg (s := s.relog l k) h]; rfl
  | bank p b =>
    cases hs : s.cfg.isStatus p b with
    | true => rw [readEffect_status h hs, readEffect_status (s := s.relog l k) h hs, takePending_relog]; rfl
    | false =>
      cases hi : s.cfg.isStorage p b with
      | true =>
        rw [readEffect_bank h hs hi, readEffect_bank (s := s.relog l k) h hs hi]
        have hr : (s.relog l k).bankCell p b = s.bankCell p b := rfl
        unfold takeBank
        rw [hr]
        cases s.bankCell p b <;> rfl
      | false => rw [readEffect_draw h hs hi, readEffect_draw (s := s.relog l k) h hs hi]; rfl
  | flat b =>
    rw [readEffect_flat h, readEffect_flat (s := s.relog l k) h]
    have hr : (s.relog l k).flatCell b = s.flatCell b := rfl
    unfold takeFlat
    rw [hr]
    cases s.flatCell b <;> rfl

/-! ## Ran -/

/-- The error of a reply. -/
def Reply.err? {α : Type} : Reply α → Option BusErr
  | .ok _ => none
  | .err e => some e

@[simp] theorem Reply.err?_ok {α : Type} (v : α) : (Reply.ok v).err? = none := rfl
@[simp] theorem Reply.err?_err {α : Type} (e : BusErr) : (Reply.err e : Reply α).err? = some e := rfl

/-- All that a run of transactions does from `s`: it logs the transactions `l`, touches no register but those at `rs`
and no pending bits but those at `qs`, answers the first error of `l`, does the same whatever the log was, and clears no
pending bit of an address that no transaction had. -/
structure Ran {α : Type} (rs qs : List (Reg × Reg)) (l : List Ev) (m : Run α) (s : State) : Prop where
  tx : Tx l.length rs qs s (m s).2
  log : (m s).2.log = s.log ++ l
  bus : ∀ e ∈ l, e.isBus = true
  err : firstBusErr l = (m s).1.err?
  relog : ∀ L k, m (s.relog L k) = ((m s).1, (m s).2.relog (L ++ l) k)
  grew : ∀ p a, (∀ e ∈ l, e.atAddr a = false) → Grew (s.pendingCell p a) ((m s).2.pendingCell p a)

theorem Ran.mono {α : Type} {rs qs rs' qs' : List (Reg × Reg)} {l : List Ev} {m : Run α} {s : State}
    (h : Ran rs qs l m s) (hr : ∀ x ∈ rs, x ∈ rs') (hq : ∀ x ∈ qs, x ∈ qs') : Ran rs' qs' l m s :=
  { h with tx := h.tx.mono hr hq }

theorem firstBusErr_append (l l' : List Ev) : firstBusErr (l ++ l') = (firstBusErr l).or (firstBusErr l') := by
  induction l with
  | nil => rfl
  | cons e l ih =>
    simp only [firstBusErr, List.cons_append, List.findSome?_cons] at ih ⊢
    cases e.busErr? with
    | some x => rfl
    | none => exact ih

theorem busCount_eq_length {l : List Ev} (h : ∀ e ∈ l, e.isBus = true) : busCount l = l.length := by
  rw [busCount, List.filter_eq_self.mpr h]

/-- A run that makes no transaction and changes nothing. -/
theorem Ran.done {α : Type} (v : α) (s : State) : Ran [] [] [] (fun s => (.ok v, s)) s where
  tx := Tx.refl s
  log := by simp
  bus := by simp
  err := rfl
  relog L k := by simp
  grew _ _ _ := Grew.refl _

/-- The second of two runs, from where the first one left. -/
theorem Ran.andThen_ok {α β : Type} {rs qs rs' qs' : List (Reg × Reg)} {l l' : List Ev} {m : Run α} {f : α → Run β}
    {s : State} {v : α} (h1 : Ran rs qs l m s) (hv : (m s).1 = .ok v) (h2 : Ran rs' qs' l' (f v) (m s).2) :
    Ran (rs ++ rs') (qs ++ qs') (l ++ l') (m.andThen f) s := by
  have hm : m s = (.ok v, (m s).2) := Prod.ext hv rfl
  have he : m.andThen f s = f v (m s).2 := by rw [Run.andThen, hm]
  refine ⟨?_, ?_, ?_, ?_, fun L k => ?_, fun p a h => ?_⟩
  · rw [he, List.length_append]; exact h1.tx.trans h2.tx
  · rw [he, h2.log, h1.log, List.append_assoc]
  · intro e; rw [List.mem_append]; rintro (h | h); exacts [h1.bus e h, h2.bus e h]
  · rw [he, firstBusErr_append, h1.err, hv, ← h2.err]; rfl
  · rw [he, Run.andThen, h1.relog, hv]
    simp only [h2.relog, List.append_assoc]
  · rw [he]
    exact (h1.grew p a fun e hm => h e (List.mem_append_left _ hm)).trans
      (h2.grew p a fun e hm => h e (List.mem_append_right _ hm))

/-- An error of the first of two runs ends both. -/
theorem Ran.andThen_err {α β : Type} {rs qs : List (Reg × Reg)} {l : List Ev} {m : Run α} {f : α → Run β}
    {s : State} {e : BusErr} (h : Ran rs qs l m s) (hv : (m s).1 = .err e) : Ran rs qs l (m.andThen f) s := by
  have hm : m s = (.err e, (m s).2) := Prod.ext hv rfl
  have he : m.andThen f s = (.err e, (m s).2) := by rw [Run.andThen, hm]
  refine ⟨?_, ?_, h.bus, ?_, fun L k => ?_, fun p a hm => ?_⟩
  · rw [he]; exact h.tx
  · rw [he]; exact h.log
  · rw [he, h.err, hv]; rfl
  · rw [he, Run.andThen, h.relog, hv]
  · rw [he]; exact h.grew p a hm

theorem andThen_ok {α β : Type} {m : Run α} {f : α → Run β} {s : State} {v : α} (hv : (m s).1 = .ok v) :
    m.andThen f s = f v (m s).2 := by
  have hm : m s = (.ok v, (m s).2) := Prod.ext hv rfl
  rw [Run.andThen, hm]

theorem andThen_err {α β : Type} {m : Run α} {f : α → Run β} {s : State} {e : BusErr} (hv : (m s).1 = .err e) :
    m.andThen f s = (.err e, (m s).2) := by
  have hm : m s = (.err e, (m s).2) := Prod.ext hv rfl
  rw [Run.andThen, hm]

/-- The reply of `try … finally` (R12): the body's error, else the last write's, else the body's value. -/
theorem tryFinally_eq {α : Type} (body : Run α) (fin : Run Unit) (s : State) :
    tryFinally body fin s = (match (body s).1, (fin (body s).2).1 with
      | .ok v, .ok _ => .ok v
      | .ok _, .err e => .err e
      | .err e, _ => .err e, (fin (body s).2).2) := by
  unfold tryFinally
  split
  · rename_i v s' h
    simp only [h]
    split <;> (rename_i h'; simp only [h'])
  · rename_i e s' h
    simp only [h]

/-- `try … finally` runs both parts on every path. -/
theorem Ran.tryFinally {α : Type} {rs qs rs' qs' : List (Reg × Reg)} {l l' : List Ev} {body : Run α} {fin : Run Unit}
    {s : State} (h1 : Ran rs qs l body s) (h2 : Ran rs' qs' l' fin (body s).2) :
    Ran (rs ++ rs') (qs ++ qs') (l ++ l') (tryFinally body fin) s := by
  refine ⟨?_, ?_, ?_, ?_, fun L k => ?_, fun p a h => ?_⟩
  · rw [tryFinally_eq, List.length_append]; exact h1.tx.trans h2.tx
  · rw [tryFinally_eq, h2.log, h1.log, List.append_assoc]
  · intro e; rw [List.mem_append]; rintro (h | h); exacts [h1.bus e h, h2.bus e h]
  · rw [tryFinally_eq, firstBusErr_append, h1.err, h2.err]
    cases (body s).1 <;> cases (fin (body s).2).1 <;> rfl
  · rw [tryFinally_eq, tryFinally_eq, h1.relog]
    simp only [h2.relog, List.append_assoc]
  · rw [tryFinally_eq]
    exact (h1.grew p a fun e hm => h e (List.mem_append_left _ hm)).trans
      (h2.grew p a fun e hm => h e (List.mem_append_right _ hm))

/-- Pending bits outside the touched locations only grow. -/
theorem Tx.grew {n : Nat} {rs qs : List (Reg × Reg)} {s t : State} (h : Tx n rs qs s t) {p a : Reg}
    (ha : ∀ x ∈ qs, x.2 ≠ a) : Grew (s.pendingCell p a) (t.pendingCell p a) := by
  cases hv : s.pendingCell p a with
  | none => trivial
  | some v =>
    rw [h.pending p a v (fun l hl hh => ha l hl (locAt_bank hh).2.1.symm) hv]
    split
    · exact Grew.or v _
    · exact Grew.refl _

theorem acked_ne {c : Cfg} {p b a : Reg} (h : b ≠ a) : ∀ x ∈ ackedAt c p b, x.2 ≠ a := by
  intro x hx
  rw [ackedAt_sub _ _ _ _ hx]
  exact h

theorem ran_memWrite (s : State) (a v : Reg) :
    Ran (wroteAt s.cfg s.dev.ps a) (ackedAt s.cfg s.dev.ps a) [.busW a v (answerReply (s.busAhead 0))] (memWrite a v) s where
  tx := memWrite_tx s a v
  log := memWrite_log s a v
  bus := by simp [Ev.isBus]
  err := by rw [memWrite_fst]; cases s.busAhead 0 <;> rfl
  relog L k := by
    rw [memWrite_eq, memWrite_eq, turn_relog, writeEffect_relog, State.relog_busAhead]
    split <;> rfl
  grew p b h := (memWrite_tx s a v).grew (acked_ne (by simpa [Ev.atAddr] using h))

theorem ran_memRead (s : State) (a : Reg) :
    Ran (if s.busAhead 0 = .ok then readAt s.cfg s.dev.ps a else []) (ackedAt s.cfg s.dev.ps a)
      [.busR a (memRead a s).1] (memRead a) s where
  tx := memRead_tx s a
  log := memRead_log s a
  bus := by simp [Ev.isBus]
  err := by cases (memRead a s).1 <;> rfl
  relog L k := by
    cases h : s.busAhead 0 with
    | ok =>
      rw [memRead_ok a h, memRead_ok a (s := s.relog L k) h, turn_relog, readEffect_relog]; rfl
    | err e took =>
      rw [memRead_err a h, memRead_err a (s := s.relog L k) h, turn_relog, failedReadEffect_relog]
      cases took <;> rfl
  grew p b h := (memRead_tx s a).grew (acked_ne (by simpa [Ev.atAddr] using h))

/-- A write to the page-select register touches no register of a bank (R55). -/
theorem ran_selectPage (s : State) (page : Reg) :
    Ran [] [] [.busW s.cfg.pageSel page (answerReply (s.busAhead 0))] (selectPage page) s := by
  have h := ran_memWrite s s.cfg.pageSel page
  rw [wroteAt_pageSel, ackedAt_pageSel] at h
  exact { tx := h.tx, log := h.log, bus := h.bus, err := h.err, relog := fun L k => h.relog L k,
          grew := h.grew }

theorem selectPage_fst (s : State) (page : Reg) : (selectPage page s).1 = answerReply (s.busAhead 0) := memWrite_fst _ _ _

theorem selectPage_ps (s : State) (page : Reg) :
    (selectPage page s).2.dev.ps = if landed (s.busAhead 0) = true then page else s.dev.ps := by
  rw [selectPage, memWrite_ps]; simp

theorem restorePage_ps (s : State) : (restorePage s).2.dev.ps = if landed (s.busAhead 0) = true then 0x0000 else s.dev.ps :=
  selectPage_ps s _

theorem restorePage_fst (s : State) : (restorePage s).1 = answerReply (s.busAhead 0) := selectPage_fst s _

theorem ran_restorePage (s : State) :
    Ran [] [] [.busW s.cfg.pageSel 0x0000 (answerReply (s.busAhead 0))] restorePage s := ran_selectPage s _

@[simp] theorem answerReply_eq_ok {b : BusAnswer} : answerReply b = .ok () ↔ b = .ok := by
  cases b <;> simp [answerReply]

@[simp] theorem answerReply_ok : answerReply .ok = .ok () := rfl
@[simp] theorem answerReply_err (e : BusErr) (took : Bool) : answerReply (.err e took) = .err e := rfl
@[simp] theorem landed_ok : landed .ok = true := rfl
@[simp] theorem landed_err (e : BusErr) (took : Bool) : landed (.err e took) = took := rfl

/-- A selected page is the page until the next write to PS. -/
theorem selectPage_ps_ok {s : State} {page : Reg} (h : s.busAhead 0 = .ok) : (selectPage page s).2.dev.ps = page := by
  rw [selectPage_ps, h]; rfl

/-! ## The paged access (R111) -/

/-- The select and the operation, without the restore. -/
theorem ran_selectThen {α : Type} {rs qs : List (Reg × Reg)} {page : Reg} {op : Run α} {s : State} {l : List Ev}
    (h0 : s.busAhead 0 = .ok) (hop : Ran rs qs l op (selectPage page s).2) :
    Ran rs qs (okWrite (s.cfg.pageSel, page) :: l) ((selectPage page).andThen fun _ => op) s := by
  have h := (ran_selectPage s page).andThen_ok (f := fun _ => op) (v := ()) (by rw [selectPage_fst, h0]; rfl) hop
  rw [h0] at h
  exact h

theorem ran_selectThen_err {α : Type} {page : Reg} (op : Run α) {s : State} {e : BusErr} {took : Bool}
    (h0 : s.busAhead 0 = .err e took) :
    Ran [] [] [.busW s.cfg.pageSel page (.err e)] ((selectPage page).andThen fun _ => op) s := by
  have h := (ran_selectPage s page).andThen_err (f := fun _ => op) (e := e) (by rw [selectPage_fst, h0]; rfl)
  rwa [h0] at h

/-- The whole access, once the select has succeeded: the operation's transactions stand between the two writes. -/
theorem ran_pagedAccess {α : Type} {rs qs : List (Reg × Reg)} {page : Reg} {op : Run α} {s : State} {l : List Ev}
    (h0 : s.busAhead 0 = .ok) (hop : Ran rs qs l op (selectPage page s).2) :
    Ran rs qs (okWrite (s.cfg.pageSel, page) :: l ++ [.busW s.cfg.pageSel 0x0000 (answerReply (s.busAhead (1 + l.length)))])
      (pagedAccess page op) s := by
  have h1 := ran_selectThen h0 hop
  have h := h1.tryFinally (ran_restorePage _)
  rw [h1.tx.cfg, h1.tx.bus, List.append_nil, List.append_nil, List.length_cons, Nat.add_zero, Nat.add_comm l.length] at h
  exact h

/-- A failed select skips the operation; the restore still runs. -/
theorem ran_pagedAccess_err {α : Type} {page : Reg} (op : Run α) {s : State} {e : BusErr} {took : Bool}
    (h0 : s.busAhead 0 = .err e took) :
    Ran [] [] [.busW s.cfg.pageSel page (.err e), .busW s.cfg.pageSel 0x0000 (answerReply (s.busAhead 1))]
      (pagedAccess page op) s := by
  have h1 := ran_selectThen_err (page := page) op h0
  have h := h1.tryFinally (ran_restorePage _)
  rw [h1.tx.cfg, h1.tx.bus] at h
  exact h

/-- What a paged access leaves in PS (R117). -/
theorem pagedAccess_ps {α : Type} (page : Reg) (op : Run α) (s : State) :
    (pagedAccess page op s).2.dev.ps =
      if landed ((((selectPage page).andThen fun _ => op) s).2.busAhead 0) = true then 0x0000
      else (((selectPage page).andThen fun _ => op) s).2.dev.ps := by
  rw [pagedAccess, tryFinally_eq]; exact restorePage_ps _

/-- A paged access whose three parts succeed. -/
theorem pagedAccess_ok {α : Type} {page : Reg} {op : Run α} {s : State} {v : α} (h0 : s.busAhead 0 = .ok)
    (hv : (op (selectPage page s).2).1 = .ok v) (hr : (op (selectPage page s).2).2.busAhead 0 = .ok) :
    pagedAccess page op s = (.ok v, (restorePage (op (selectPage page s).2).2).2)
      ∧ (pagedAccess page op s).2.dev.ps = 0x0000 := by
  have h1 : ((selectPage page).andThen fun _ => op) s = op (selectPage page s).2 :=
    andThen_ok (v := ()) (by rw [selectPage_fst, h0]; rfl)
  have h : pagedAccess page op s = (.ok v, (restorePage (op (selectPage page s).2).2).2) := by
    rw [pagedAccess, tryFinally_eq, h1, hv, restorePage_fst, hr]; rfl
  exact ⟨h, by rw [h]; simp [restorePage_ps, hr]⟩

/-! ## What a transaction that took effect leaves at its location -/

/-- A write that took effect at (page, address) left this (R53). -/
def WroteCell (c : Cfg) (p a v : Reg) (t : State) : Prop :=
  match locAt c p a with
  | .psReg => True
  | .bank p a =>
    if c.isStatus p a then t.pendingCell p a ≠ none
    else if c.isImplemented p then t.bankCell p a = some v else True
  | .flat a => t.flatCell a = some v

theorem writeEffect_cell (s : State) (a v : Reg) : WroteCell s.cfg s.dev.ps a v (writeEffect a v s) := by
  unfold WroteCell writeEffect State.loc
  split <;> rename_i h <;> simp only [h]
  · split
    · simp
    · split
      · simp
      · trivial
  · simp

theorem memWrite_cell {s : State} (a v : Reg) (h : landed (s.busAhead 0) = true) :
    WroteCell s.cfg s.dev.ps a v (memWrite a v s).2 := by
  rw [memWrite_eq, h]
  have := writeEffect_cell s.turn a v
  rw [(turn_frame s).ps, (turn_frame s).cfg] at this
  exact this

/-- It stays so while no register is touched. -/
theorem WroteCell.later {n : Nat} {c : Cfg} {p a v : Reg} {s t : State} (h : WroteCell c p a v s) (ht : Tx n [] [] s t) :
    WroteCell c p a v t := by
  unfold WroteCell at *
  split
  · trivial
  · split
    · rename_i hl hs
      rw [hl] at h
      simp only [hs, if_true] at h
      cases hc : s.pendingCell _ _ with
      | none => exact absurd hc h
      | some w => rw [ht.pending _ _ w (by simp) hc]; simp
    · rename_i hl hs
      rw [hl] at h
      simp only [hs] at h
      split
      · rename_i hi
        rw [ht.regs.1 _ _ (by simp)]
        simpa [hi] using h
      · trivial
  · rename_i hl
    rw [hl] at h
    rw [ht.regs.2 _ (by simp)]; exact h

/-- What a write did, from what it left and what it did not touch. -/
theorem WroteCell.writeDone {n : Nat} {p a v : Reg} {s t : State} (h : WroteCell s.cfg p a v t)
    (ht : Tx n (wroteAt s.cfg p a) (ackedAt s.cfg p a) s t) : WriteDone n p a v s t := by
  have hr := ht.regs
  have hp := ht.pending
  unfold WriteDone
  unfold WroteCell at h
  unfold wroteAt at hr
  unfold ackedAt at hp
  cases hl : locAt s.cfg p a with
  | psReg => simp only [hl] at hr hp; exact ⟨hr, hp⟩
  | bank q b =>
    obtain ⟨rfl, rfl, -⟩ := locAt_bank hl
    simp only [hl] at h hr hp ⊢
    by_cases hs : s.cfg.isStatus q b = true
    · simp only [hs, if_true] at h hr hp ⊢
      exact ⟨h, by simpa using hr, hp⟩
    · simp only [hs, if_false, Bool.false_eq_true] at h hr hp ⊢
      by_cases hi : s.cfg.isImplemented q = true
      · simp only [hi, if_true] at h hr ⊢
        exact ⟨h, by simpa [hs] using hr, hp⟩
      · simp only [hi] at h hr ⊢
        exact ⟨by simpa using hr, hp⟩
  | flat b =>
    obtain ⟨rfl, -⟩ := locAt_flat hl
    simp only [hl] at h hr hp ⊢
    exact ⟨h, hr, hp⟩

@[simp] theorem addEv_cells (s : State) (e : Ev) (p a : Reg) :
    (s.addEv e).bankCell p a = s.bankCell p a ∧ (s.addEv e).flatCell a = s.flatCell a
      ∧ (s.addEv e).pendingCell p a = s.pendingCell p a := ⟨rfl, rfl, rfl⟩

theorem takeBank_cell (s : State) (p a : Reg) : (takeBank p a s).2.bankCell p a = some (takeBank p a s).1 := by
  unfold takeBank
  cases h : s.bankCell p a with
  | some v => exact h
  | none => simp

theorem takeBank_some {s : State} {p a v : Reg} (h : s.bankCell p a = some v) : takeBank p a s = (v, s) := by
  simp [takeBank, h]

theorem takeFlat_cell (s : State) (a : Reg) : (takeFlat a s).2.flatCell a = some (takeFlat a s).1 := by
  unfold takeFlat
  cases h : s.flatCell a with
  | some v => exact h
  | none => simp

theorem takeFlat_some {s : State} {a v : Reg} (h : s.flatCell a = some v) : takeFlat a s = (v, s) := by
  simp [takeFlat, h]

/-- A read that succeeded. -/
theorem memRead_done {s : State} (a : Reg) (h : s.busAhead 0 = .ok) :
    ∃ v, (memRead a s).1 = .ok v ∧ ReadDone 1 0 s.dev.ps a v s (memRead a s).2 := by
  have ht := memRead_tx s a
  rw [if_pos h] at ht
  have hr := ht.regs
  have hp := ht.pending
  refine ⟨(readEffect a s.turn).1, by rw [memRead_ok a h], ?_⟩
  rw [memRead_ok a h] at hr hp ⊢
  have hf := turn_frame s
  have hloc : s.turn.loc a = locAt s.cfg s.dev.ps a := by rw [State.loc, hf.cfg, hf.ps]
  unfold readAt storesAt at hr
  unfold ackedAt at hp
  unfold ReadDone
  cases hl : locAt s.cfg s.dev.ps a with
  | psReg =>
    rw [hl] at hloc hr hp
    rw [readEffect_psReg hloc] at hr hp ⊢
    exact ⟨hf.ps, hr, hp⟩
  | bank q b =>
    rw [hl] at hloc hr hp
    obtain ⟨rfl, rfl, -⟩ := locAt_bank hl
    dsimp only at hr hp ⊢
    cases hs : s.cfg.isStatus s.dev.ps b with
    | true =>
      rw [hs] at hp
      rw [if_neg (by simp [Cfg.isStorage, hs])] at hr
      rw [if_pos rfl] at hp ⊢
      rw [readEffect_status hloc (by rw [hf.cfg]; exact hs)] at hr hp ⊢
      refine ⟨fun w hw => ?_, ?_, hr, hp⟩
      · rw [takePending_some (turn_pendingCell_status hs hw), setsAhead_one]
      · rw [(addEv_cells _ _ _ _).2.2]; simp
    | false =>
      rw [hs] at hp
      rw [if_neg (by simp)] at hp ⊢
      cases hi : s.cfg.isStorage s.dev.ps b with
      | true =>
        rw [if_pos (by exact hi)] at hr
        rw [if_pos rfl]
        rw [readEffect_bank hloc (by rw [hf.cfg]; exact hs) (by rw [hf.cfg]; exact hi)] at hr hp ⊢
        have hb : s.turn.bankCell s.dev.ps b = s.bankCell s.dev.ps b := by simp only [State.bankCell, hf.bank]
        exact ⟨fun w hw => by rw [takeBank_some (hb.trans hw)], takeBank_cell _ _ _, hr, hp⟩
      | false =>
        rw [if_neg (by simp [hi])] at hr
        rw [if_neg (by simp)]
        rw [readEffect_draw hloc (by rw [hf.cfg]; exact hs) (by rw [hf.cfg]; exact hi)] at hr hp ⊢
        exact ⟨hr, hp⟩
  | flat b =>
    rw [hl] at hloc hr hp
    obtain ⟨rfl, -⟩ := locAt_flat hl
    rw [readEffect_flat hloc] at hr hp ⊢
    have hb : s.turn.flatCell b = s.flatCell b := by simp only [State.flatCell, hf.flat]
    exact ⟨fun w hw => by rw [takeFlat_some (hb.trans hw)], takeFlat_cell _ _, hr, hp⟩

/-- Transactions before a read that touch no register. -/
theorem ReadDone.before {k n m : Nat} {p a v : Reg} {r s t : State} (h0 : Tx k [] [] r s) (h : ReadDone n m p a v s t) :
    ReadDone (k + n) m p a v r t := by
  have hrs : ∀ {ls}, SameRegsBut ls s t → SameRegsBut ls r t := fun hr => by
    simpa using h0.regs.trans h0.cfg hr
  have hps : ∀ {ls}, PendingOnlySet ls (n + m) s t → PendingOnlySet ls (k + n + m) r t := fun hp => by
    simpa [Nat.add_assoc] using h0.pending.trans h0.cfg h0.events hp
  unfold ReadDone at *
  rw [h0.cfg] at h
  split
  · rename_i hl; rw [hl] at h; exact ⟨h.1, hrs h.2.1, hps h.2.2⟩
  · rename_i q b hl
    rw [hl] at h
    simp only [] at h
    by_cases hs : r.cfg.isStatus q b = true
    · rw [if_pos hs] at h ⊢
      refine ⟨fun w hw => ?_, ?_, hrs h.2.2.1, hps h.2.2.2⟩
      · have h1 := h0.pending q b w (by simp) hw
        rw [if_pos hs] at h1
        rw [h.1 _ h1, setsAhead_add, setsAhead_shift h0.events, BitVec.or_assoc]; simp
      · rw [h.2.1, setsAhead_shift h0.events]
    · rw [if_neg hs] at h ⊢
      by_cases hi : r.cfg.isStorage q b = true
      · rw [if_pos hi] at h ⊢
        exact ⟨fun w hw => h.1 w (by rw [h0.regs.1 _ _ (by simp)]; exact hw), h.2.1, hrs h.2.2.1, hps h.2.2.2⟩
      · rw [if_neg hi] at h ⊢
        exact ⟨hrs h.1, hps h.2⟩
  · rename_i b hl
    rw [hl] at h
    exact ⟨fun w hw => h.1 w (by rw [h0.regs.2 _ (by simp)]; exact hw), h.2.1, hrs h.2.2.1, hps h.2.2.2⟩

/-- Transactions after a read that touch no register. -/
theorem ReadDone.later {k n m : Nat} {p a v : Reg} {s t u : State} (h : ReadDone n m p a v s t) (hc : t.cfg = s.cfg)
    (he : ∀ k, t.eventAhead k = s.eventAhead (n + m + k)) (ht : Tx k [] [] t u) : ReadDone n (m + k) p a v s u := by
  have hrs : ∀ {ls}, SameRegsBut ls s t → SameRegsBut ls s u := fun hr => by
    simpa using hr.trans hc ht.regs
  have hps : ∀ {ls}, PendingOnlySet ls (n + m) s t → PendingOnlySet ls (n + (m + k)) s u := fun hp => by
    simpa [Nat.add_assoc] using hp.trans hc he ht.pending
  unfold ReadDone at *
  split
  · rename_i hl; rw [hl] at h; exact ⟨h.1, hrs h.2.1, hps h.2.2⟩
  · rename_i q b hl
    rw [hl] at h
    simp only [] at h
    by_cases hs : s.cfg.isStatus q b = true
    · rw [if_pos hs] at h ⊢
      refine ⟨h.1, ?_, hrs h.2.2.1, hps h.2.2.2⟩
      have h1 := ht.pending q b _ (by simp) h.2.1
      rw [hc, if_pos hs] at h1
      rw [h1, setsAhead_shift he, Nat.add_zero, setsAhead_add]
    · rw [if_neg hs] at h ⊢
      by_cases hi : s.cfg.isStorage q b = true
      · rw [if_pos hi] at h ⊢
        exact ⟨h.1, by rw [ht.regs.1 _ _ (by simp)]; exact h.2.1, hrs h.2.2.1, hps h.2.2.2⟩
      · rw [if_neg hi] at h ⊢
        exact ⟨hrs h.1, hps h.2⟩
  · rename_i b hl
    rw [hl] at h
    exact ⟨h.1, by rw [ht.regs.2 _ (by simp)]; exact h.2.1, hrs h.2.2.1, hps h.2.2.2⟩

/-! ## Paged accesses whose three transactions succeed -/

theorem pagedWrite_ok {s : State} {page a v : Reg} (h : BusOk s 0 3) :
    ∃ t, pagedAccess page (memWrite a v) s = (.ok (), t) ∧ t.log = s.log ++ pagedEvs s.cfg page (okWrite (a, v))
      ∧ t.dev.ps = 0 ∧ WriteDone 3 page a v s t ∧ Tx 3 (wroteAt s.cfg page a) (ackedAt s.cfg page a) s t
      ∧ WroteCell s.cfg page a v t := by
  have h0 := h 0 (by omega)
  have h1 := h 1 (by omega)
  have h2 := h 2 (by omega)
  simp only [Nat.zero_add] at h0 h1 h2
  have t1 := (ran_selectPage s page).tx
  have p1 := selectPage_ps_ok (page := page) h0
  have b1 : (selectPage page s).2.busAhead 0 = .ok := by rw [t1.bus]; exact h1
  have r2 := ran_memWrite (selectPage page s).2 a v
  have b2 : (memWrite a v (selectPage page s).2).2.busAhead 0 = .ok := by rw [r2.tx.bus, t1.bus]; exact h2
  obtain ⟨e, hps⟩ := pagedAccess_ok (page := page) (op := memWrite a v) (v := ()) h0 (by rw [memWrite_fst, b1]; rfl) b2
  have r := ran_pagedAccess h0 r2
  rw [t1.cfg, p1, b1] at r
  have c2 := memWrite_cell (s := (selectPage page s).2) a v (by rw [b1]; rfl)
  rw [t1.cfg, p1] at c2
  have c3 := c2.later (ran_restorePage _).tx
  have rt := r.tx
  have rl := r.log
  rw [e] at rt rl hps
  have c4 : WroteCell s.cfg page a v (restorePage (memWrite a v (selectPage page s).2).2).2 := c3
  refine ⟨_, e, ?_, hps, c4.writeDone rt, rt, c4⟩
  rw [rl]; simp [pagedEvs, okWrite, h2]

theorem pagedRead_ok {s : State} {page a : Reg} (h : BusOk s 0 3) :
    ∃ v t, pagedAccess page (memRead a) s = (.ok v, t) ∧ t.log = s.log ++ pagedEvs s.cfg page (okRead a v)
      ∧ t.dev.ps = 0 ∧ ReadDone 2 1 page a v s t ∧ Tx 3 (readAt s.cfg page a) (ackedAt s.cfg page a) s t := by
  have h0 := h 0 (by omega)
  have h1 := h 1 (by omega)
  have h2 := h 2 (by omega)
  simp only [Nat.zero_add] at h0 h1 h2
  have t1 := (ran_selectPage s page).tx
  have p1 := selectPage_ps_ok (page := page) h0
  have b1 : (selectPage page s).2.busAhead 0 = .ok := by rw [t1.bus]; exact h1
  have r2 := ran_memRead (selectPage page s).2 a
  have b2 : (memRead a (selectPage page s).2).2.busAhead 0 = .ok := by rw [r2.tx.bus, t1.bus]; exact h2
  obtain ⟨v, hv, hd⟩ := memRead_done a b1
  obtain ⟨e, hps⟩ := pagedAccess_ok (page := page) (op := memRead a) (v := v) h0 hv b2
  have r := ran_pagedAccess h0 r2
  rw [t1.cfg, p1, if_pos b1, hv] at r
  rw [p1] at hd
  have hd' := (hd.before t1).later (k := 1) (u := (restorePage (memRead a (selectPage page s).2).2).2)
    (r2.tx.cfg.trans t1.cfg) (fun k => by rw [r2.tx.events, t1.events]; simp [← Nat.add_assoc]) (ran_restorePage _).tx
  have rt := r.tx
  have rl := r.log
  rw [e] at rt rl hps
  refine ⟨_, _, e, ?_, hps, hd', rt⟩
  rw [rl]; simp [pagedEvs, okWrite, okRead, h2]

end Sys2Proof.Machine
end

