-- ==== Sys2Proof/Laws/Commands.lean ====
section
/-! SUPPORT. A command is its rule and its end: the equation of each command once a profile is bound, what the end of a
command adds, and what an accepted configuration says of the bound profile. -/

namespace Sys2Proof.Machine

/-! ## The end of a command -/

@[simp] theorem finish_core (w : Word) (p : Result × State) : (finish w p).core = p.2.core := rfl
@[simp] theorem finish_cfg (w : Word) (p : Result × State) : (finish w p).cfg = p.2.cfg := rfl
@[simp] theorem finish_dev (w : Word) (p : Result × State) : (finish w p).dev = p.2.dev := rfl
@[simp] theorem finish_log (w : Word) (p : Result × State) : (finish w p).log = p.2.log ++ [.cmd w p.1] := rfl
@[simp] theorem finish_index (w : Word) (p : Result × State) : (finish w p).index = p.2.index + 1 := rfl
@[simp] theorem finish_commands (w : Word) (p : Result × State) : (finish w p).commands = p.2.commands := rfl
@[simp] theorem finish_draws (w : Word) (p : Result × State) : (finish w p).draws = p.2.draws := rfl
@[simp] theorem finish_lastResult (w : Word) (p : Result × State) : (finish w p).lastResult = some p.1 := by
  simp [State.lastResult]

/-- A command whose body logged `l`. -/
theorem logged_finish {i : Instr} {s : State} {p : Result × State} {l : List Ev} (h : p.2.log = s.log ++ l) :
    Logged i l p.1 s (finish (encode i) p) := by simp [Logged, h]

/-- The end of a command whose body touched its place in the stream no more than transactions do. -/
theorem commandFrame_finish {s : State} {p : Result × State} {w : Word} (h1 : p.2.cfg = s.cfg)
    (h2 : p.2.commands = s.commands) (h3 : p.2.draws.chip = s.draws.chip) (h4 : p.2.index = s.index) :
    CommandFrame s (finish w p) := ⟨h1, h2, h3, congrArg (· + 1) h4⟩

theorem Tx.commandFrame {n : Nat} {rs qs : List (Reg × Reg)} {s u : State} {r : Result} {w : Word} (h : Tx n rs qs s u) :
    CommandFrame s (finish w (r, u)) := commandFrame_finish h.cfg h.commands h.chip h.index

/-! ## The commands, once a profile is bound -/

theorem boundCommand_eq {i : Instr} {rule : Profile → State → Result × State} {s : State} {q : Profile}
    (h : s.profile? = some q) : boundCommand i rule s = .next (finish (encode i) (rule q s)) := by
  simp [boundCommand, h]

variable {s : State} {q : Profile}

theorem exec_read (h : s.profile? = some q) (a : Reg) :
    exec (.read a) s = .next (finish (encode (.read a)) ((memRead a s).1.valueResult, (memRead a s).2)) := by
  rw [exec, execRead, boundCommand_eq h]

theorem exec_write (h : s.profile? = some q) (a v : Reg) :
    exec (.write a v) s = .next (finish (encode (.write a v)) ((memWrite a v s).1.result, (memWrite a v s).2)) := by
  rw [exec, execWrite, boundCommand_eq h]

theorem exec_readPaged (h : s.profile? = some q) (hp : q.pagedRead = true) (page a : Reg) :
    exec (.readPaged page a) s = .next (finish (encode (.readPaged page a))
      ((pagedAccess page (memRead a) s).1.valueResult, (pagedAccess page (memRead a) s).2)) := by
  rw [exec, execReadPaged, boundCommand_eq h, if_pos hp]

theorem exec_writePaged (h : s.profile? = some q) (hp : q.pagedWrite = true) (page a v : Reg) :
    exec (.writePaged page a v) s = .next (finish (encode (.writePaged page a v))
      ((pagedAccess page (memWrite a v) s).1.result, (pagedAccess page (memWrite a v) s).2)) := by
  rw [exec, execWritePaged, boundCommand_eq h, if_pos hp]

theorem exec_configIntr (h : s.profile? = some q) (en : Bool) :
    exec (.configIntr en) s = .next (finish (encode (.configIntr en)) (configIntrRule en q s)) := boundCommand_eq h

theorem exec_ackIntr (h : s.profile? = some q) :
    exec .ackIntr s = .next (finish (encode .ackIntr) (ackIntrRule q s)) := boundCommand_eq h

theorem exec_init (h : s.profile? = some q) (mode : IfMode) :
    exec (.init mode) s = .next (finish (encode (.init mode)) (initRule mode q s)) := boundCommand_eq h

theorem exec_configTiming (h : s.profile? = some q) (mode : IfMode) :
    exec (.configTiming mode) s = .next (finish (encode (.configTiming mode))
      ((timingBody q mode s).1.result, (timingBody q mode s).2)) := by
  rw [exec, execConfigTiming, boundCommand_eq h]

theorem exec_configLed (h : s.profile? = some q) :
    exec .configLed s = .next (finish (encode .configLed) ((ledBody q s).1.result, (ledBody q s).2)) := by
  rw [exec, execConfigLed, boundCommand_eq h]

theorem exec_suspend (h : s.profile? = some q) :
    exec .suspend s = .next (finish (encode .suspend) (suspendRule q s)) := boundCommand_eq h

theorem exec_resume (h : s.profile? = some q) :
    exec .resume s = .next (finish (encode .resume) (resumeRule q s)) := boundCommand_eq h

/-! ## What an accepted configuration says of the bound profile (R145) -/

theorem profile_mem (h : s.profile? = some q) : q ∈ s.cfg.profiles := by
  unfold State.profile? at h
  obtain ⟨i, -, hi⟩ := Option.bind_eq_some_iff.mp h
  exact List.mem_of_getElem? hi

theorem profile_wf (h : s.profile? = some q) (ha : s.cfg.accepted = true) : q.wf s.cfg.pageSel = true := by
  unfold Cfg.accepted at ha
  rw [Bool.and_eq_true] at ha
  exact List.all_eq_true.mp ha.1 q (profile_mem h)

theorem regNotPs (h : s.profile? = some q) (ha : s.cfg.accepted = true) : wfRegNotPs s.cfg.pageSel q = true := by
  have := profile_wf h ha
  simp only [Profile.wf, Bool.and_eq_true] at this
  exact this.1.2

theorem ierReg_ne (h : s.profile? = some q) (ha : s.cfg.accepted = true) {b : IerBinding} (hb : q.intrEnable = some b) :
    b.reg ≠ s.cfg.pageSel := by
  have := regNotPs h ha
  simp only [wfRegNotPs, Bool.and_eq_true, hb, Option.all_some, bne_iff_ne] at this
  exact this.1.1.1.1

theorem isrReg_ne (h : s.profile? = some q) (ha : s.cfg.accepted = true) {b : IsrBinding} (hb : q.intrAck = some b) :
    b.reg ≠ s.cfg.pageSel := by
  have := regNotPs h ha
  simp only [wfRegNotPs, Bool.and_eq_true, hb, Option.all_some, bne_iff_ne] at this
  exact this.1.1.1.2

theorem timingReg_ne (h : s.profile? = some q) (ha : s.cfg.accepted = true) {t : TimingBinding}
    (hb : q.init.bind InitBinding.timing = some t) : t.reg ≠ s.cfg.pageSel := by
  have := regNotPs h ha
  obtain ⟨i, hi, ht⟩ := Option.bind_eq_some_iff.mp hb
  simp only [wfRegNotPs, Bool.and_eq_true, hi, ht, Option.all_some, bne_iff_ne] at this
  exact this.1.1.2.1

theorem ledRegs_ne (h : s.profile? = some q) (ha : s.cfg.accepted = true) {l : LedBinding}
    (hb : q.init.bind InitBinding.led = some l) : l.ledReg ≠ s.cfg.pageSel ∧ l.eeeReg ≠ s.cfg.pageSel := by
  have := regNotPs h ha
  obtain ⟨i, hi, ht⟩ := Option.bind_eq_some_iff.mp hb
  simp only [wfRegNotPs, Bool.and_eq_true, hi, ht, Option.all_some, bne_iff_ne] at this
  exact this.1.1.2.2

theorem suspendReg_ne (h : s.profile? = some q) (ha : s.cfg.accepted = true) {d : PdBinding} (hb : q.suspend = some d) :
    d.reg ≠ s.cfg.pageSel := by
  have := regNotPs h ha
  simp only [wfRegNotPs, Bool.and_eq_true, hb, Option.all_some, bne_iff_ne] at this
  exact this.1.2

theorem resumeReg_ne (h : s.profile? = some q) (ha : s.cfg.accepted = true) {d : PdBinding} (hb : q.resume = some d) :
    d.reg ≠ s.cfg.pageSel := by
  have := regNotPs h ha
  simp only [wfRegNotPs, Bool.and_eq_true, hb, Option.all_some, bne_iff_ne] at this
  exact this.2

end Sys2Proof.Machine
end

