-- ==== Sys2Proof/Laws/Encoding.lean ====
section
/-! SUPPORT. The opcode table: every row fixes the opcode byte, no two rows share one, so a word matches at most one row
and the decoder reads the word by that row. -/

namespace Sys2Proof

/-- The opcode field, bits [63:56] (R80). -/
def opcodeField (w : Word) : BitVec 8 := w.extractLsb' 56 8

/-- The word selects the row (R89). -/
def OpRow.Selects (r : OpRow) (w : Word) : Prop := w &&& r.mask = r.pattern

/-- No two rows of the opcode map have the same opcode. -/
theorem opcodeTable_distinct : opcodeTable.Pairwise fun r q => opcodeField r.pattern ≠ opcodeField q.pattern := by decide

/-- Every row's mask covers the opcode. -/
theorem opcodeTable_covers : ∀ r ∈ opcodeTable, opcodeField r.mask = 0xFF := by decide

theorem opcodeField_and (w m : Word) : opcodeField (w &&& m) = opcodeField w &&& opcodeField m := by
  apply BitVec.eq_of_getLsbD_eq
  intro i hi
  simp [opcodeField, hi]

/-- A word that selects a row has the row's opcode. -/
theorem OpRow.Selects.opcode {r : OpRow} {w : Word} (h : r.Selects w) (hr : r ∈ opcodeTable) :
    opcodeField w = opcodeField r.pattern := by
  rw [← h, opcodeField_and, opcodeTable_covers r hr]
  exact (BitVec.and_allOnes (x := opcodeField w)).symm

theorem opcodeTable_inj : ∀ r ∈ opcodeTable, ∀ q ∈ opcodeTable, opcodeField r.pattern = opcodeField q.pattern → r = q := by
  decide

/-- Decoding is unambiguous: a word selects at most one row (R89). -/
theorem selects_unique {r q : OpRow} {w : Word} (hr : r ∈ opcodeTable) (hq : q ∈ opcodeTable) (h : r.Selects w)
    (h' : q.Selects w) : r = q :=
  opcodeTable_inj r hr q hq ((h.opcode hr).symm.trans (h'.opcode hq))

/-- The decoder reads a word by the row it selects. -/
theorem decode_of_selects {r : OpRow} {w : Word} (hr : r ∈ opcodeTable) (h : r.Selects w) : decode w = r.op.instr w := by
  unfold decode
  cases hf : opcodeTable.find? fun r => (w &&& r.mask) == r.pattern with
  | none => exact absurd (List.find?_eq_none.mp hf r hr) (by simpa [OpRow.Selects] using h)
  | some q =>
    have hq := List.find?_some hf
    rw [selects_unique (List.mem_of_find?_eq_some hf) hr (by simpa [OpRow.Selects] using hq) h]
    rfl

/-- A word that selects no row is no command (R90, R91). -/
theorem decode_none {w : Word} (h : ∀ r ∈ opcodeTable, ¬ r.Selects w) : decode w = none := by
  unfold decode
  rw [List.find?_eq_none.mpr fun r hr => by simpa [OpRow.Selects] using h r hr]
  rfl

/-- A word that decodes selects a row, and is read by it. -/
theorem selects_of_decode {w : Word} {i : Instr} (h : decode w = some i) :
    ∃ r ∈ opcodeTable, r.Selects w ∧ r.op.instr w = some i := by
  by_contra hn
  push Not at hn
  by_cases hs : ∃ r ∈ opcodeTable, r.Selects w
  · obtain ⟨r, hr, hsel⟩ := hs
    exact hn r hr hsel (by rw [← decode_of_selects hr hsel]; exact h)
  · push Not at hs
    rw [decode_none hs] at h; cases h

/-! ## Fields of concatenated words -/

/-- The lowest field of a word. -/
theorem field_last {m n : Nat} (x : BitVec m) (y : BitVec n) : (x ++ y).extractLsb' 0 n = y := by
  apply BitVec.eq_of_getLsbD_eq
  intro i hi
  simp [BitVec.getLsbD_append, hi]

/-- A field above the lowest one. -/
theorem field_skip {m n : Nat} (x : BitVec m) (y : BitVec n) (k l : Nat) :
    (x ++ y).extractLsb' (n + k) l = x.extractLsb' k l := by
  apply BitVec.eq_of_getLsbD_eq
  intro i hi
  have h : ¬ n + k + i < n := by omega
  have h' : n + k + i - n = k + i := by omega
  simp [BitVec.getLsbD_append, h, h', hi]

/-- A word is its upper part and its lower part. -/
theorem field_split {m n : Nat} (w : BitVec (m + n)) : w.extractLsb' n m ++ w.extractLsb' 0 n = w := by simp

/-- A field of a masked word. -/
theorem field_and {n : Nat} (w m : BitVec n) (k l : Nat) :
    (w &&& m).extractLsb' k l = w.extractLsb' k l &&& m.extractLsb' k l := by
  apply BitVec.eq_of_getLsbD_eq
  intro i hi
  simp [hi]

@[simp] theorem IfMode.ofCode_code (m : IfMode) : IfMode.ofCode m.code = some m := by cases m <;> rfl

theorem IfMode.code_of_ofCode {c : BitVec 8} {m : IfMode} (h : IfMode.ofCode c = some m) : m.code = c := by
  unfold IfMode.ofCode at h
  repeat' split at h
  all_goals first | (cases h; rename_i hc; exact hc.symm) | cases h

end Sys2Proof
end

