-- ==== Sys2Proof/Laws/Sequences.lean ====
section
/-! SUPPORT. The longer sequences: the timing step, a list of writes, the LED sequence, the generic call. For each, what
it does when every transaction succeeds, and that it ran (`Ran`) in any case. -/

namespace Sys2Proof.Machine

/-! ## Transactions that succeed, and where one of a sequence fails -/

theorem busOk_shift {n k m : Nat} {rs qs : List (Reg × Reg)} {s t : State} (h : Tx n rs qs s t) (hb : BusOk s (n + k) m) : BusOk t k m := by
  intro i hi; rw [h.bus, ← Nat.add_assoc]; exact hb i hi

theorem busOk_sub {s : State} {k n m j : Nat} (hb : BusOk s k n) (h : j + m ≤ n) : BusOk s (k + j) m := by
  intro i hi; rw [Nat.add_assoc]; exact hb _ (by omega)

theorem timingValue_eq (c : Cfg) (b : TimingBinding) (mode : IfMode) (old : Reg) :
    timingValue c b mode old = if mode ∈ c.txDelayModes then old ||| b.bit else old &&& ~~~b.bit := by
  unfold timingValue needsTxDelay
  simp only [List.contains_iff_mem]

theorem WroteCell.cellAt {c : Cfg} {p a v : Reg} {t : State} (h : WroteCell c p a v t) (hc : t.cfg = c) (hs : storesAt c p a = true) : t.cellAt p a = some v := by
  unfold WroteCell at h
  unfold storesAt at hs
  unfold State.cellAt
  rw [hc]
  cases hl : locAt c p a with
  | psReg => rw [hl] at hs; cases hs
  | bank q b =>
    rw [hl] at h hs
    dsimp only at h hs ⊢
    simp only [Cfg.isStorage, Bool.and_eq_true, Bool.not_eq_true'] at hs
    rw [hs.1.1, hs.2] at h
    simpa using h
  | flat b => rw [hl] at h; exact h

theorem ReadDone.cell {n m : Nat} {p a v : Reg} {s t : State} (h : ReadDone n m p a v s t) (hs : storesAt s.cfg p a = true) : ∀ w, s.cellAt p a = some w → v = w := by
  unfold ReadDone at h
  unfold storesAt at hs
  unfold State.cellAt
  cases hl : locAt s.cfg p a with
  | psReg => rw [hl] at hs; cases hs
  | bank q b =>
    rw [hl] at h hs
    dsimp only at h hs ⊢
    simp only [Cfg.isStorage, Bool.and_eq_true, Bool.not_eq_true'] at hs
    simp only [Cfg.isStorage, hs] at h
    simpa using h.1
  | flat b => rw [hl] at h; exact h.1

theorem timing_ok {s : State} {b : TimingBinding} {mode : IfMode} (hb : BusOk s 0 6) :
    ∃ t old, timingSteps b mode s = (.ok (), t) ∧ t.log = s.log ++ timingEvs s.cfg b old (timingValue s.cfg b mode old) ∧ t.dev.ps = 0
      ∧ Tx 6 [(b.page, b.reg)] [(b.page, b.reg)] s t ∧ (storesAt s.cfg b.page b.reg = true → ∀ w, s.cellAt b.page b.reg = some w → old = w)
      ∧ WroteCell s.cfg b.page b.reg (timingValue s.cfg b mode old) t := by
  obtain ⟨old, t1, e1, l1, -, d1, x1⟩ := pagedRead_ok (page := b.page) (a := b.reg) (s := s) (busOk_sub (j := 0) hb (by omega))
  obtain ⟨t2, e2, l2, ps2, -, x2, c2⟩ := pagedWrite_ok (page := b.page) (a := b.reg) (v := timingValue s.cfg b mode old) (s := t1)
    (busOk_shift x1 (busOk_sub (j := 3) hb (by omega)))
  rw [x1.cfg] at c2 l2 x2
  refine ⟨t2, old, ?_, ?_, ps2, ?_, d1.cell, c2⟩
  · unfold timingSteps; rw [andThen_ok (v := old) (by rw [e1]), e1]; exact e2
  · rw [l2, l1]; simp [timingEvs]
  · refine (x1.trans x2).mono ?_ ?_
    · intro l hl; rcases List.mem_append.mp hl with hl | hl
      · rw [readAt_sub _ _ _ _ hl]; simp
      · rw [wroteAt_sub _ _ _ _ hl]; simp
    · intro l hl; rcases List.mem_append.mp hl with hl | hl <;> (rw [ackedAt_sub _ _ _ _ hl]; simp)

/-- A paged access that succeeded: so did each of its parts. -/
theorem pagedAccess_ok_parts {α : Type} {page : Reg} {op : Run α} {s : State} {v : α}
    (h : (pagedAccess page op s).1 = .ok v) :
    s.busAhead 0 = .ok ∧ (op (selectPage page s).2).1 = .ok v ∧ (op (selectPage page s).2).2.busAhead 0 = .ok := by
  unfold pagedAccess at h
  rw [tryFinally_eq] at h
  cases h0 : s.busAhead 0 with
  | err e took =>
    rw [andThen_err (e := e) (by rw [selectPage_fst, h0]; rfl)] at h
    simp at h
  | ok =>
    rw [andThen_ok (v := ()) (by rw [selectPage_fst, h0]; rfl), restorePage_fst] at h
    cases hr : (op (selectPage page s).2).1 with
    | err e => rw [hr] at h; simp at h
    | ok w =>
      rw [hr] at h
      cases hb : (op (selectPage page s).2).2.busAhead 0 with
      | ok => rw [hb] at h; simp at h; simp [h]
      | err e took => rw [hb] at h; simp at h

theorem busOk_three {s : State} : s.busAhead 0 = .ok → s.busAhead 1 = .ok → s.busAhead 2 = .ok → BusOk s 0 3 := by
  intro a b c i hi
  rw [Nat.zero_add]
  match i, hi with
  | 0, _ => exact a
  | 1, _ => exact b
  | 2, _ => exact c

theorem pagedRead_ok_inv {page a v : Reg} {s : State} (h : (pagedAccess page (memRead a) s).1 = .ok v) : BusOk s 0 3 := by
  have t1 := (ran_selectPage s page).tx
  have r := ran_memRead (selectPage page s).2 a
  obtain ⟨h0, h1, h2⟩ := pagedAccess_ok_parts h
  rw [r.tx.bus, t1.bus] at h2
  refine busOk_three h0 ?_ h2
  cases hb : (selectPage page s).2.busAhead 0 with
  | ok => rw [t1.bus] at hb; exact hb
  | err e took => rw [memRead_fst_err hb] at h1; cases h1

theorem pagedWrite_ok_inv {page a v : Reg} {s : State} (h : (pagedAccess page (memWrite a v) s).1 = .ok ()) : BusOk s 0 3 := by
  have t1 := (ran_selectPage s page).tx
  have r := ran_memWrite (selectPage page s).2 a v
  obtain ⟨h0, h1, h2⟩ := pagedAccess_ok_parts h
  rw [r.tx.bus, t1.bus] at h2
  refine busOk_three h0 ?_ h2
  rw [memWrite_fst, answerReply_eq_ok, t1.bus] at h1
  exact h1

theorem timing_ok_inv {s : State} {b : TimingBinding} {mode : IfMode} (h : (timingSteps b mode s).1 = .ok ()) : BusOk s 0 6 := by
  unfold timingSteps at h
  cases h1 : (pagedAccess b.page (memRead b.reg) s).1 with
  | err e => rw [andThen_err h1] at h; cases h
  | ok v =>
    rw [andThen_ok h1] at h
    have hb := pagedRead_ok_inv h1
    obtain ⟨old, t1, e1, l1, -, d1, x1⟩ := pagedRead_ok (page := b.page) (a := b.reg) (s := s) hb
    rw [e1] at h
    have hb2 := pagedWrite_ok_inv h
    intro i hi
    by_cases h3 : i < 3
    · exact hb i h3
    · have := hb2 (i - 3) (by omega)
      rw [x1.bus] at this
      rw [← this]; congr 1; omega

/-! ## A list of writes (R185) -/

/-- The locations that a list of writes reaches when the page is `ps` at its start: a write to the page-select register
moves the later ones to its page. -/
def seqLocs (c : Cfg) : Reg → List (Reg × Reg) → List (Reg × Reg)
  | _, [] => []
  | ps, (a, v) :: ws => if a = c.pageSel then seqLocs c v ws else (ps, a) :: seqLocs c ps ws

/-- PS after a list of writes. -/
def seqPs (c : Cfg) : Reg → List (Reg × Reg) → Reg
  | ps, [] => ps
  | ps, (a, v) :: ws => seqPs c (if a = c.pageSel then v else ps) ws

theorem memWrite_coarse (s : State) (a v : Reg) :
    Ran (if a = s.cfg.pageSel then [] else [(s.dev.ps, a)]) (if a = s.cfg.pageSel then [] else [(s.dev.ps, a)])
      [.busW a v (answerReply (s.busAhead 0))] (memWrite a v) s := by
  refine (ran_memWrite s a v).mono ?_ ?_ <;> intro l hl
  · by_cases h : a = s.cfg.pageSel
    · rw [h, wroteAt_pageSel] at hl; cases hl
    · rw [if_neg h, wroteAt_sub _ _ _ _ hl]; simp
  · by_cases h : a = s.cfg.pageSel
    · rw [h, ackedAt_pageSel] at hl; cases hl
    · rw [if_neg h, ackedAt_sub _ _ _ _ hl]; simp

/-- Every write of the list succeeds. -/
theorem writeAll_ok (ws : List (Reg × Reg)) {s : State} (hb : BusOk s 0 ws.length) :
    Ran (seqLocs s.cfg s.dev.ps ws) (seqLocs s.cfg s.dev.ps ws) (ws.map okWrite) (writeAll ws) s
      ∧ (writeAll ws s).1 = .ok () ∧ (writeAll ws s).2.dev.ps = seqPs s.cfg s.dev.ps ws := by
  induction ws generalizing s with
  | nil => exact ⟨Ran.done () s, rfl, rfl⟩
  | cons e ws ih =>
    obtain ⟨a, v⟩ := e
    have h0 : s.busAhead 0 = .ok := hb 0 (by simp)
    have r := memWrite_coarse s a v
    have hv : (memWrite a v s).1 = .ok () := by rw [memWrite_fst, h0]; rfl
    have hps : (memWrite a v s).2.dev.ps = if a = s.cfg.pageSel then v else s.dev.ps := by
      rw [memWrite_ps, h0]; simp
    obtain ⟨r', hv', hps'⟩ := ih (s := (memWrite a v s).2) (busOk_shift r.tx (busOk_sub (j := 1) hb (by simp [Nat.add_comm])))
    rw [r.tx.cfg, hps] at r' hps'
    refine ⟨?_, ?_, ?_⟩
    · have h := r.andThen_ok (f := fun _ => writeAll ws) hv r'
      rw [h0] at h
      refine h.mono ?_ ?_ <;> (simp only [seqLocs]; split <;> simp)
    · rw [writeAll, andThen_ok hv]; exact hv'
    · rw [writeAll, andThen_ok hv, hps']; rfl

/-- The writes before number `k` succeed, that one fails, and the later ones are not made. -/
theorem writeAll_err (ws : List (Reg × Reg)) {s : State} {k : Nat} {w : Reg × Reg} {e : BusErr} {took : Bool}
    (hw : ws[k]? = some w) (hb : BusOk s 0 k) (hk : s.busAhead k = .err e took) :
    ∃ ls, Ran ls ls ((ws.take k).map okWrite ++ [.busW w.1 w.2 (.err e)]) (writeAll ws) s
      ∧ (writeAll ws s).1 = .err e := by
  induction ws generalizing s k with
  | nil => cases hw
  | cons x ws ih =>
    obtain ⟨a, v⟩ := x
    have r := memWrite_coarse s a v
    cases k with
    | zero =>
      simp only [List.getElem?_cons_zero, Option.some.injEq] at hw
      subst hw
      have hv : (memWrite a v s).1 = .err e := by rw [memWrite_fst, hk]; rfl
      rw [hk] at r
      exact ⟨_, r.andThen_err (f := fun _ => writeAll ws) hv, by rw [writeAll, andThen_err hv]⟩
    | succ k =>
      have h0 : s.busAhead 0 = .ok := hb 0 (by omega)
      have hv : (memWrite a v s).1 = .ok () := by rw [memWrite_fst, h0]; rfl
      obtain ⟨ls, r', hv'⟩ := ih (s := (memWrite a v s).2) (k := k) (by simpa using hw)
        (busOk_shift r.tx (busOk_sub (j := 1) hb (by omega))) (by rw [r.tx.bus, ← hk]; congr 1; simp [Nat.add_comm])
      rw [h0] at r
      exact ⟨_, r.andThen_ok (f := fun _ => writeAll ws) hv r', by rw [writeAll, andThen_ok hv]; exact hv'⟩

/-- A list of writes in any case: one transaction or more of it, at most all. -/
theorem ran_writeAll (ws : List (Reg × Reg)) (s : State) :
    ∃ ls l, Ran ls ls l (writeAll ws) s ∧ l.length ≤ ws.length := by
  induction ws generalizing s with
  | nil => exact ⟨[], [], Ran.done () s, le_rfl⟩
  | cons e ws ih =>
    obtain ⟨a, v⟩ := e
    have r := memWrite_coarse s a v
    cases hv : (memWrite a v s).1 with
    | ok u =>
      obtain ⟨ls, l, r', hl⟩ := ih (memWrite a v s).2
      exact ⟨_, _, r.andThen_ok (f := fun _ => writeAll ws) hv r', by simp; omega⟩
    | err x => exact ⟨_, _, r.andThen_err (f := fun _ => writeAll ws) hv, by simp⟩

theorem writeAll_append (ws ws' : List (Reg × Reg)) (s : State) :
    writeAll (ws ++ ws') s = (writeAll ws).andThen (fun _ => writeAll ws') s := by
  induction ws generalizing s with
  | nil => rfl
  | cons e ws ih =>
    obtain ⟨a, v⟩ := e
    rw [List.cons_append, writeAll, writeAll]
    cases hv : (memWrite a v s).1 with
    | ok u =>
      rw [andThen_ok hv, ih]
      unfold Run.andThen
      rw [show memWrite a v s = (.ok u, (memWrite a v s).2) from Prod.ext hv rfl]
    | err x =>
      rw [andThen_err hv]
      unfold Run.andThen
      rw [show memWrite a v s = (.err x, (memWrite a v s).2) from Prod.ext hv rfl]

/-- A storage register keeps its value while only other locations are touched. -/
theorem cellAt_later {n : Nat} {rs qs : List (Reg × Reg)} {p a : Reg} {s t : State} (h : Tx n rs qs s t)
    (hs : storesAt s.cfg p a = true) (hne : ∀ l ∈ rs, l.2 ≠ a) : t.cellAt p a = s.cellAt p a := by
  unfold State.cellAt
  unfold storesAt at hs
  rw [h.cfg]
  cases hl : locAt s.cfg p a with
  | psReg => rw [hl] at hs; cases hs
  | bank q b =>
    obtain ⟨rfl, rfl, -⟩ := locAt_bank hl
    refine h.regs.1 _ _ fun l hm hh => hne l hm ?_
    exact (locAt_bank hh).2.1.symm
  | flat b =>
    obtain ⟨rfl, -⟩ := locAt_flat hl
    refine h.regs.2 _ fun l hm hh => hne l hm ?_
    exact (locAt_flat hh).1.symm

/-! ## The LED sequence (R185, R186) -/

theorem seqPs_select (c : Cfg) (ps : Reg) (sel : LedSelect) : seqPs c ps (selectSeq c sel) = ledPage c sel := by
  cases sel with
  | single p => simp [selectSeq, seqPs, ledPage]
  | twoStep p1 x p2 => simp [selectSeq, seqPs, ledPage]

theorem seqLocs_ledWrites {c : Cfg} {l : LedBinding} (ps : Reg) (pair : Reg × Reg) (h1 : l.ledReg ≠ c.pageSel)
    (h2 : l.eeeReg ≠ c.pageSel) : ∀ x ∈ seqLocs c ps (ledWrites c l pair), x ∈ ledLocs c l := by
  intro x hx
  unfold ledWrites ledLocs at *
  cases hs : l.select with
  | single p =>
    rw [hs] at hx
    simpa [selectSeq, seqLocs, ledPage, h1, h2] using hx
  | twoStep p1 r p2 =>
    rw [hs] at hx
    simp only [selectSeq, seqLocs, ledPage, List.cons_append, List.nil_append, if_true, if_neg h1, if_neg h2] at hx ⊢
    by_cases hr : r = c.pageSel
    · rw [if_pos hr] at hx ⊢; exact List.mem_cons_of_mem _ hx
    · rw [if_neg hr] at hx ⊢; exact hx

/-- The two-step select, both writes of it taking effect, leaves the final page value in the register that it names on
the intermediate page. -/
theorem twoStep_cell {s : State} {p1 x p2 : Reg} (hb : BusOk s 0 2) :
    WroteCell s.cfg p1 x p2 (writeAll (selectSeq s.cfg (.twoStep p1 x p2)) s).2 := by
  have b0 := hb 0 (by omega)
  have f0 : (memWrite s.cfg.pageSel p1 s).1 = .ok () := by rw [memWrite_fst, b0]; rfl
  have r0 := (memWrite_coarse s s.cfg.pageSel p1).tx
  have p0 := memWrite_ps s s.cfg.pageSel p1
  rw [b0] at p0
  have b1 : (memWrite s.cfg.pageSel p1 s).2.busAhead 0 = .ok := by rw [r0.bus]; exact hb 1 (by omega)
  have c := memWrite_cell (s := (memWrite s.cfg.pageSel p1 s).2) x p2 (by rw [b1]; rfl)
  have f1 : (memWrite x p2 (memWrite s.cfg.pageSel p1 s).2).1 = .ok () := by rw [memWrite_fst, b1]; rfl
  rw [r0.cfg, p0, if_pos ⟨rfl, rfl⟩] at c
  simp only [selectSeq, writeAll]
  rw [andThen_ok f0, andThen_ok f1]
  exact c

/-- The LED sequence whose writes all succeed, the restore too. -/
theorem ledSteps_ok {s : State} {l : LedBinding} {pair : Reg × Reg} (h1 : l.ledReg ≠ s.cfg.pageSel)
    (h2 : l.eeeReg ≠ s.cfg.pageSel) (hb : BusOk s 0 ((ledWrites s.cfg l pair).length + 1)) :
    ∃ t, ledSteps l pair s = (.ok (), t)
      ∧ t.log = s.log ++ ((ledWrites s.cfg l pair).map okWrite ++ [okWrite (s.cfg.pageSel, 0x0000)]) ∧ t.dev.ps = 0
      ∧ Tx ((ledWrites s.cfg l pair).length + 1) (ledLocs s.cfg l) (ledLocs s.cfg l) s t
      ∧ (storesAt s.cfg (ledPage s.cfg l.select) l.eeeReg = true →
          t.cellAt (ledPage s.cfg l.select) l.eeeReg = some pair.2)
      ∧ (storesAt s.cfg (ledPage s.cfg l.select) l.ledReg = true → l.ledReg ≠ l.eeeReg →
          t.cellAt (ledPage s.cfg l.select) l.ledReg = some pair.1)
      ∧ (∀ p1 x p2, l.select = .twoStep p1 x p2 → storesAt s.cfg p1 x = true → x ≠ s.cfg.pageSel → x ≠ l.ledReg →
          x ≠ l.eeeReg → t.cellAt p1 x = some p2) := by
  obtain ⟨r, hv, -⟩ := writeAll_ok (ledWrites s.cfg l pair) (busOk_sub (j := 0) hb (by omega))
  have hbr : (writeAll (ledWrites s.cfg l pair) s).2.busAhead 0 = .ok := by
    rw [r.tx.bus]; simpa using hb (ledWrites s.cfg l pair).length (by omega)
  have rr := ran_restorePage (writeAll (ledWrites s.cfg l pair) s).2
  have R := (r.mono (seqLocs_ledWrites _ _ h1 h2) (seqLocs_ledWrites _ _ h1 h2)).tryFinally rr
  have e : ledSteps l pair s = (.ok (), (restorePage (writeAll (ledWrites s.cfg l pair) s).2).2) := by
    unfold ledSteps
    rw [tryFinally_eq, hv, restorePage_fst, hbr]; rfl
  have hT := R.tx
  have hL := R.log
  rw [show (tryFinally (writeAll (ledWrites s.cfg l pair)) restorePage s) = ledSteps l pair s from rfl, e] at hT hL
  rw [hbr, r.tx.cfg] at hT hL
  simp only [List.length_append, List.length_map, List.length_singleton, List.append_nil] at hT
  refine ⟨_, e, hL, by rw [restorePage_ps, hbr]; rfl, hT, ?_⟩
  -- the last two writes
  obtain ⟨r0, v0, p0⟩ := writeAll_ok (selectSeq s.cfg l.select) (s := s)
    (busOk_sub (j := 0) hb (by simp [ledWrites]; omega))
  rw [seqPs_select] at p0
  have e0 : writeAll (ledWrites s.cfg l pair) s
      = writeAll [(l.ledReg, pair.1), (l.eeeReg, pair.2)] (writeAll (selectSeq s.cfg l.select) s).2 := by
    unfold ledWrites; rw [writeAll_append, andThen_ok v0]
  generalize hs2 : (writeAll (selectSeq s.cfg l.select) s).2 = s2 at *
  have t0 := r0.tx
  rw [hs2, List.length_map] at t0
  have hb2 : BusOk s2 0 2 := busOk_shift t0 (by
    have := busOk_sub (j := (selectSeq s.cfg l.select).length) (m := 2) hb (by simp [ledWrites])
    rwa [Nat.zero_add] at this)
  have b1 := hb2 0 (by omega)
  have w1 := memWrite_coarse s2 l.ledReg pair.1
  have c1 := memWrite_cell (s := s2) l.ledReg pair.1 (by rw [b1]; rfl)
  have f1 : (memWrite l.ledReg pair.1 s2).1 = .ok () := by rw [memWrite_fst, b1]; rfl
  have q1 := memWrite_ps s2 l.ledReg pair.1
  rw [t0.cfg, if_neg (fun h => h1 h.2)] at q1
  rw [t0.cfg, p0] at c1
  generalize hs3 : (memWrite l.ledReg pair.1 s2).2 = s3 at *
  have b2 : s3.busAhead 0 = .ok := by rw [← hs3, w1.tx.bus]; exact hb2 1 (by omega)
  have w2 := memWrite_tx s3 l.eeeReg pair.2
  have c2 := memWrite_cell (s := s3) l.eeeReg pair.2 (by rw [b2]; rfl)
  have f2 : (memWrite l.eeeReg pair.2 s3).1 = .ok () := by rw [memWrite_fst, b2]; rfl
  have cfg3 : s3.cfg = s.cfg := by rw [← hs3, w1.tx.cfg, t0.cfg]
  rw [cfg3, q1, p0] at c2 w2
  have e1 : writeAll (ledWrites s.cfg l pair) s = (.ok (), (memWrite l.eeeReg pair.2 s3).2) := by
    rw [e0, writeAll, andThen_ok f1, hs3, writeAll, andThen_ok f2]; rfl
  rw [e1]
  have rr' := (ran_restorePage (memWrite l.eeeReg pair.2 s3).2).tx
  have cfg4 : (memWrite l.eeeReg pair.2 s3).2.cfg = s.cfg := by rw [w2.cfg, cfg3]
  have cfg5 := rr'.cfg.trans cfg4
  refine ⟨fun hs => (c2.later rr').cellAt cfg5 hs, fun hs hne => ?_, fun p1 x p2 hl hs _ hx1 hx2 => ?_⟩
  · rw [cellAt_later rr' (by rw [cfg4]; exact hs) (by simp)]
    rw [cellAt_later w2 (by rw [cfg3]; exact hs) (fun x hx => by rw [wroteAt_sub _ _ _ _ hx]; exact fun h => hne h.symm)]
    exact c1.cellAt cfg3 hs
  · have w1t := w1.tx
    rw [hs3] at w1t
    have c0 := twoStep_cell (p1 := p1) (x := x) (p2 := p2) (busOk_sub (j := 0) (m := 2) hb (by
      simp [ledWrites, hl, selectSeq]))
    rw [← hl, hs2] at c0
    rw [cellAt_later rr' (by rw [cfg4]; exact hs) (by simp)]
    rw [cellAt_later w2 (by rw [cfg3]; exact hs) (fun y hy => by rw [wroteAt_sub _ _ _ _ hy]; exact fun h => hx2 h.symm)]
    rw [cellAt_later w1t (by rw [t0.cfg]; exact hs) (fun y hy => by
      rw [if_neg (by rw [t0.cfg]; exact h1), List.mem_singleton] at hy
      rw [hy]; exact fun h => hx1 h.symm)]
    exact c0.cellAt t0.cfg hs

/-- The LED sequence in any case. -/
theorem ran_ledSteps (l : LedBinding) (pair : Reg × Reg) (s : State) :
    ∃ ls evs, Ran ls ls evs (ledSteps l pair) s ∧ evs.length ≤ 5 := by
  obtain ⟨ls, evs, r, hl⟩ := ran_writeAll (ledWrites s.cfg l pair) s
  have R := r.tryFinally (ran_restorePage _)
  refine ⟨_, _, { tx := R.tx, log := R.log, bus := R.bus, err := R.err, relog := R.relog, grew := R.grew }, ?_⟩
  have h4 : (ledWrites s.cfg l pair).length ≤ 4 := by unfold ledWrites selectSeq; cases l.select <;> simp
  simp; omega

theorem ledProfile_none {s : State} (h : s.core.led = none) : ledProfile s = (lookupPlatform s.cfg.platforms s.platformAhead,
   (s.drawPlatform.2.addEv (.plat s.platformAhead)).setLed (lookupPlatform s.cfg.platforms s.platformAhead)) := by
  unfold ledProfile
  rw [h, show s.drawPlatform = (s.platformAhead, s.drawPlatform.2) from Prod.ext (State.drawPlatform_fst s) rfl]

/-- The LED pair, derived or kept: what deriving it changes. -/
theorem ledProfile_eq (s : State) :
    ledProfile s = (s.ledPair, (ledProfile s).2) ∧ (ledProfile s).2.core = { s.core with led := some s.ledPair }
      ∧ (ledProfile s).2.log = s.log ++ platformEvs s ∧ (ledProfile s).2.dev = s.dev ∧ (ledProfile s).2.cfg = s.cfg
      ∧ (ledProfile s).2.commands = s.commands ∧ (ledProfile s).2.index = s.index
      ∧ (ledProfile s).2.draws.chip = s.draws.chip ∧ (∀ n, (ledProfile s).2.busAhead n = s.busAhead n)
      ∧ ∀ n, (ledProfile s).2.eventAhead n = s.eventAhead n := by
  cases h : s.core.led with
  | some p => 
    have : s.ledPair = p := by simp [State.ledPair, h]
    have hl : ledProfile s = (p, s) := by unfold ledProfile; rw [h]
    rw [hl, this]
    refine ⟨rfl, ?_, ?_, rfl, rfl, rfl, rfl, rfl, fun _ => rfl, fun _ => rfl⟩
    · rw [← h]
    · simp [platformEvs, h]
  | none =>
    have : s.ledPair = lookupPlatform s.cfg.platforms s.platformAhead := by simp [State.ledPair, h]
    rw [ledProfile_none h, this]
    refine ⟨rfl, rfl, ?_, rfl, rfl, rfl, rfl, rfl, fun _ => rfl, fun _ => rfl⟩
    simp [platformEvs, h]

theorem pair_iff (p : Reg × Reg) : (p.1 = 0x0000 ∧ p.2 = 0x0000) ↔ p = (0x0000, 0x0000) := by
  rw [Prod.ext_iff]

/-! ## Runs of bounded length, in any case -/

/-- The run makes at most `n` transactions, whatever their outcomes. -/
def Runs {α : Type} (n : Nat) (m : Run α) : Prop := ∀ s, ∃ rs qs l, Ran rs qs l m s ∧ l.length ≤ n

theorem runs_memWrite (a v : Reg) : Runs 1 (memWrite a v) := fun s => ⟨_, _, _, ran_memWrite s a v, le_rfl⟩

theorem runs_memRead (a : Reg) : Runs 1 (memRead a) := fun s => ⟨_, _, _, ran_memRead s a, le_rfl⟩

theorem runs_pagedAccess {α : Type} {n : Nat} {op : Run α} (page : Reg) (h : Runs n op) :
    Runs (n + 2) (pagedAccess page op) := by
  intro s
  cases h0 : s.busAhead 0 with
  | ok =>
    obtain ⟨rs, qs, l, r, hl⟩ := h (selectPage page s).2
    exact ⟨_, _, _, ran_pagedAccess h0 r, by simp; omega⟩
  | err e took => exact ⟨_, _, _, ran_pagedAccess_err op h0, by simp⟩

theorem runs_accessAt {α : Type} {n : Nat} {op : Run α} (page : Option Reg) (h : Runs n op) :
    Runs (n + 2) (accessAt page op) := by
  cases page with
  | some pg => exact runs_pagedAccess pg h
  | none =>
    intro s
    obtain ⟨rs, qs, l, r, hl⟩ := h s
    exact ⟨rs, qs, l, r, by omega⟩

theorem runs_timingSteps (b : TimingBinding) (mode : IfMode) : Runs 6 (timingSteps b mode) := by
  intro s
  obtain ⟨rs, qs, l, r, hl⟩ := runs_pagedAccess b.page (runs_memRead b.reg) s
  cases hv : (pagedAccess b.page (memRead b.reg) s).1 with
  | ok old =>
    obtain ⟨rs', qs', l', r', hl'⟩ := runs_pagedAccess b.page (runs_memWrite b.reg (timingValue s.cfg b mode old))
      (pagedAccess b.page (memRead b.reg) s).2
    have R := r.andThen_ok (f := fun old => pagedAccess b.page (memWrite b.reg (timingValue s.cfg b mode old))) hv r'
    exact ⟨_, _, _, { tx := R.tx, log := R.log, bus := R.bus, err := R.err, relog := R.relog, grew := R.grew },
      by simp; omega⟩
  | err e =>
    have R := r.andThen_err (f := fun old => pagedAccess b.page (memWrite b.reg (timingValue s.cfg b mode old))) hv
    exact ⟨_, _, _, { tx := R.tx, log := R.log, bus := R.bus, err := R.err, relog := R.relog, grew := R.grew },
      by omega⟩

theorem runs_timingBody (q : Profile) (mode : IfMode) : Runs 6 (timingBody q mode) := by
  intro s
  cases hb : q.init.bind InitBinding.timing with
  | none =>
    have e : timingBody q mode = fun s => (.ok (), s) := funext fun s => by simp only [timingBody, hb]
    exact ⟨[], [], [], by rw [e]; exact Ran.done () s, by simp⟩
  | some b =>
    obtain ⟨rs, qs, l, R, hl⟩ := runs_timingSteps b mode s
    have e : ∀ s, timingBody q mode s = timingSteps b mode s := fun s => by simp only [timingBody, hb]
    exact ⟨rs, qs, l, by rw [show timingBody q mode = timingSteps b mode from funext e]; exact R, hl⟩

theorem runs_assistWrite (d : Option PdBinding) : Runs 1 (assistWrite d) := by
  cases d with
  | none => exact fun s => ⟨[], [], [], Ran.done () s, by simp⟩
  | some d => exact runs_memWrite d.reg d.value

end Sys2Proof.Machine
end

