-- ==== Sys2Proof/Laws/Generic.lean ====
section
/-! SUPPORT. The generic call (43_bound_operations.md R190 with 20_memory.md R74): what it leaves in the registers, and
that it touches nothing else. -/

namespace Sys2Proof.Machine

/-- All that the updates of a generic call keep. -/
structure GenericFrame (s t : State) : Prop where
  core : t.core = s.core
  cfg : t.cfg = s.cfg
  log : t.log = s.log
  index : t.index = s.index
  commands : t.commands = s.commands
  chip : t.draws.chip = s.draws.chip
  bus : t.draws.bus = s.draws.bus
  events : t.draws.events = s.draws.events
  platform : t.draws.platform = s.draws.platform
  ps : t.dev.ps = s.dev.ps
  pending : t.dev.pending = s.dev.pending
  regsOk : s.RegsOk → t.RegsOk

theorem GenericFrame.refl (s : State) : GenericFrame s s := by constructor <;> first | rfl | exact id

theorem GenericFrame.trans {s t u : State} (h1 : GenericFrame s t) (h2 : GenericFrame t u) : GenericFrame s u where
  core := h2.core.trans h1.core
  cfg := h2.cfg.trans h1.cfg
  log := h2.log.trans h1.log
  index := h2.index.trans h1.index
  commands := h2.commands.trans h1.commands
  chip := h2.chip.trans h1.chip
  bus := h2.bus.trans h1.bus
  events := h2.events.trans h1.events
  platform := h2.platform.trans h1.platform
  ps := h2.ps.trans h1.ps
  pending := h2.pending.trans h1.pending
  regsOk h := h2.regsOk (h1.regsOk h)

theorem genericLeaves_frame (s : State) (e : Reg × Reg) : GenericFrame s (genericLeaves s e) := by
  unfold genericLeaves
  cases hl : locAt s.cfg 0x0000 e.1 with
  | psReg => exact GenericFrame.refl s
  | bank p a =>
    dsimp only
    split
    · refine ⟨rfl, rfl, rfl, rfl, rfl, rfl, rfl, rfl, rfl, rfl, rfl, fun h => ?_⟩
      exact regsOk_setBank h ((locAt_bank hl).2.1 ▸ (locAt_bank hl).2.2) _
    · exact GenericFrame.refl s
  | flat a =>
    refine ⟨rfl, rfl, rfl, rfl, rfl, rfl, rfl, rfl, rfl, rfl, rfl, fun h => ?_⟩
    obtain ⟨h0, h1, h2⟩ := locAt_flat hl
    exact regsOk_setFlat h (h0 ▸ h1) (h0 ▸ h2) _

theorem genericLeaves_bank (s : State) (e : Reg × Reg) (p a : Reg) :
    (genericLeaves s e).bankCell p a =
      if s.cfg.isBanked a = true ∧ p = 0x0000 ∧ s.cfg.isStorage p a = true ∧ e.1 = a then some e.2
      else s.bankCell p a := by
  unfold genericLeaves
  cases hl : locAt s.cfg 0x0000 e.1 with
  | psReg =>
    rw [if_neg]
    rintro ⟨hb, -, -, rfl⟩
    simp [Cfg.isBanked, locAt_psReg.mp hl] at hb
  | bank q b =>
    obtain ⟨rfl, rfl, hb⟩ := locAt_bank hl
    dsimp only
    by_cases hs : s.cfg.isStorage 0x0000 e.1 = true
    · rw [if_pos hs, State.bankCell_setBank]
      by_cases hp : p = 0x0000 ∧ a = e.1
      · obtain ⟨rfl, rfl⟩ := hp
        rw [if_pos ⟨rfl, rfl⟩, if_pos ⟨hb, rfl, hs, rfl⟩]
      · rw [if_neg hp, if_neg]
        rintro ⟨-, h1, -, h2⟩
        exact hp ⟨h1, h2.symm⟩
    · rw [if_neg hs, if_neg]
      rintro ⟨-, rfl, h, rfl⟩
      exact hs h
  | flat b =>
    rw [if_neg]
    · rfl
    · rintro ⟨hb, -, -, rfl⟩
      rw [(locAt_flat hl).2.1] at hb; cases hb

theorem genericLeaves_flat (s : State) (e : Reg × Reg) (a : Reg) :
    (genericLeaves s e).flatCell a =
      if s.cfg.isBanked a = false ∧ a ≠ s.cfg.pageSel ∧ e.1 = a then some e.2 else s.flatCell a := by
  unfold genericLeaves
  cases hl : locAt s.cfg 0x0000 e.1 with
  | psReg =>
    rw [if_neg]
    rintro ⟨-, h, rfl⟩
    exact h (locAt_psReg.mp hl)
  | bank q b =>
    have : ¬ (s.cfg.isBanked a = false ∧ a ≠ s.cfg.pageSel ∧ e.1 = a) := by
      rintro ⟨hb, -, rfl⟩
      rw [(locAt_bank hl).2.2] at hb; cases hb
    rw [if_neg this]
    dsimp only
    split <;> rfl
  | flat b =>
    obtain ⟨rfl, h1, h2⟩ := locAt_flat hl
    dsimp only
    rw [State.flatCell_setFlat]
    by_cases h : a = e.1
    · subst h; rw [if_pos rfl, if_pos ⟨h1, h2, rfl⟩]
    · rw [if_neg h, if_neg fun hh => h hh.2.2.symm]

/-- The value that the last entry for an address gives. -/
def lastFor (l : List (Reg × Reg)) (a : Reg) : Option Reg := ((l.filter fun e => e.1 == a).getLast?).map (·.2)

theorem genericCell_eq (g : GenericAnswer) (a : Reg) : genericCell g a = lastFor g.left a := rfl

theorem lastFor_cons (e : Reg × Reg) (l : List (Reg × Reg)) (a : Reg) :
    lastFor (e :: l) a = (lastFor l a).or (if e.1 = a then some e.2 else none) := by
  unfold lastFor
  by_cases h : e.1 = a
  · rw [List.filter_cons_of_pos (by simp [h]), List.getLast?_cons, if_pos h]
    cases (l.filter fun e => e.1 == a).getLast? <;> rfl
  · rw [List.filter_cons_of_neg (by simp [h]), if_neg h]
    simp

theorem genericLeaves_foldl (l : List (Reg × Reg)) (s : State) :
    GenericFrame s (l.foldl genericLeaves s)
      ∧ (∀ p a, (l.foldl genericLeaves s).bankCell p a =
          if s.cfg.isBanked a = true ∧ p = 0x0000 ∧ s.cfg.isStorage p a = true then (lastFor l a).or (s.bankCell p a)
          else s.bankCell p a)
      ∧ ∀ a, (l.foldl genericLeaves s).flatCell a =
          if s.cfg.isBanked a = false ∧ a ≠ s.cfg.pageSel then (lastFor l a).or (s.flatCell a) else s.flatCell a := by
  induction l generalizing s with
  | nil => exact ⟨GenericFrame.refl s, fun p a => by simp [lastFor], fun a => by simp [lastFor]⟩
  | cons e l ih =>
    obtain ⟨h1, h2, h3⟩ := ih (genericLeaves s e)
    have hf := genericLeaves_frame s e
    refine ⟨hf.trans h1, fun p a => ?_, fun a => ?_⟩
    · rw [List.foldl_cons, h2, hf.cfg, genericLeaves_bank, lastFor_cons]
      by_cases hc : s.cfg.isBanked a = true ∧ p = 0x0000 ∧ s.cfg.isStorage p a = true
      · rw [if_pos hc, if_pos hc]
        by_cases he : e.1 = a
        · rw [if_pos ⟨hc.1, hc.2.1, hc.2.2, he⟩, if_pos he]
          cases lastFor l a <;> rfl
        · rw [if_neg fun h => he h.2.2.2, if_neg he]
          cases lastFor l a <;> rfl
      · rw [if_neg hc, if_neg hc, if_neg fun h => hc ⟨h.1, h.2.1, h.2.2.1⟩]
    · rw [List.foldl_cons, h3, hf.cfg, genericLeaves_flat, lastFor_cons]
      by_cases hc : s.cfg.isBanked a = false ∧ a ≠ s.cfg.pageSel
      · rw [if_pos hc, if_pos hc]
        by_cases he : e.1 = a
        · rw [if_pos ⟨hc.1, hc.2, he⟩, if_pos he]
          cases lastFor l a <;> rfl
        · rw [if_neg fun h => he h.2.2, if_neg he]
          cases lastFor l a <;> rfl
      · rw [if_neg hc, if_neg hc, if_neg fun h => hc ⟨h.1, h.2.1⟩]

theorem forgetDefaultPage_frame (s : State) : GenericFrame s s.forgetDefaultPage := by
  refine ⟨rfl, rfl, rfl, rfl, rfl, rfl, rfl, rfl, rfl, rfl, rfl, fun h => ?_⟩
  exact {
    bankWf := h.bankWf.filter _
    flatWf := List.Pairwise.nil
    pendingWf := h.pendingWf
    bankBanked := fun c hc => h.bankBanked c (List.mem_filter.mp hc).1
    flatUnbanked := fun c hc => absurd hc (by simp [State.forgetDefaultPage])
    pendingAtStatus := h.pendingAtStatus }

theorem forgetDefaultPage_bank (s : State) (p a : Reg) :
    s.forgetDefaultPage.bankCell p a = if p = 0x0000 ∧ s.cfg.isStorage p a = true then none else s.bankCell p a := by
  unfold State.bankCell State.forgetDefaultPage
  rw [Memory.look_keep]
  simp only [keyPage_locKey, keyAddr_locKey]
  by_cases hp : p = 0x0000
  · subst hp
    by_cases hs : s.cfg.isStorage 0x0000 a = true
    · rw [if_neg (by rw [hs]; simp), if_pos ⟨rfl, hs⟩]
    · rw [if_pos (by simpa using hs), if_neg fun h => hs h.2]
  · rw [if_pos (by rw [bne_iff_ne.mpr hp]; rfl), if_neg fun h => hp h.1]

theorem forgetDefaultPage_flat (s : State) (a : Reg) : s.forgetDefaultPage.flatCell a = none := rfl

/-- The call's outcome, as the log's reply. -/
def genericReply (g : GenericAnswer) : Reply Unit :=
  match g.error with
  | none => .ok ()
  | some e => .err e

/-- The state after the collaborator has left its values, before the event. -/
def State.afterGeneric (s : State) : State := s.genericAhead.left.foldl genericLeaves s.drawGeneric.2.forgetDefaultPage

theorem genericCall_eq (kind : GenKind) (s : State) :
    genericCall kind s = (genericReply s.genericAhead, s.afterGeneric.addEv (.gen kind (genericReply s.genericAhead))) := by
  unfold genericCall State.afterGeneric genericReply
  rw [show s.drawGeneric = (s.genericAhead, s.drawGeneric.2) from Prod.ext (State.drawGeneric_fst s) rfl]
  dsimp only
  cases s.genericAhead.error <;> rfl

/-- Everything but the default page's storage registers and the flat ones is kept. -/
theorem afterGeneric_frame (s : State) : GenericFrame s s.afterGeneric := by
  have h : GenericFrame s s.drawGeneric.2 := by
    refine ⟨rfl, rfl, rfl, rfl, rfl, rfl, rfl, rfl, rfl, rfl, rfl, fun h => h.congr rfl rfl rfl rfl⟩
  exact (h.trans (forgetDefaultPage_frame _)).trans (genericLeaves_foldl _ _).1

theorem afterGeneric_bank (s : State) (p a : Reg) :
    s.afterGeneric.bankCell p a =
      if p = 0x0000 ∧ s.cfg.isStorage p a = true then
        if s.cfg.isBanked a = true then lastFor s.genericAhead.left a else none
      else s.bankCell p a := by
  rw [State.afterGeneric, (genericLeaves_foldl _ _).2.1, forgetDefaultPage_bank]
  have hc : s.drawGeneric.2.forgetDefaultPage.cfg = s.cfg := rfl
  have hc' : s.drawGeneric.2.cfg = s.cfg := rfl
  have hb : s.drawGeneric.2.bankCell p a = s.bankCell p a := rfl
  rw [hc, hc', hb]
  by_cases h : p = 0x0000 ∧ s.cfg.isStorage p a = true
  · rw [if_pos h, if_pos h]
    by_cases hb : s.cfg.isBanked a = true
    · rw [if_pos ⟨hb, h⟩, if_pos hb]; simp
    · rw [if_neg fun hh => hb hh.1, if_neg hb]
  · rw [if_neg h, if_neg h, if_neg fun hh => h hh.2]

theorem afterGeneric_flat (s : State) (a : Reg) :
    s.afterGeneric.flatCell a =
      if s.cfg.isBanked a = false ∧ a ≠ s.cfg.pageSel then lastFor s.genericAhead.left a else none := by
  rw [State.afterGeneric, (genericLeaves_foldl _ _).2.2, forgetDefaultPage_flat]
  have hc : s.drawGeneric.2.forgetDefaultPage.cfg = s.cfg := rfl
  rw [hc]
  by_cases h : s.cfg.isBanked a = false ∧ a ≠ s.cfg.pageSel
  · rw [if_pos h, if_pos h]; simp
  · rw [if_neg h, if_neg h]

end Sys2Proof.Machine
end

