-- ==== Sys2Proof/Laws/PerInstr.lean ====
section
/-! SUPPORT. The family `OpcodeRow`: every command's word selects the command's own row of the opcode table, with every
operand. One lemma for each constructor. -/

namespace Sys2Proof.Laws

/-- The name of a command in the opcode map (R89). -/
def opcodeOf : Instr → Opcode
  | .read _ => .read
  | .write _ _ => .write
  | .readPaged _ _ => .readPaged
  | .writePaged _ _ _ => .writePaged
  | .resolve _ => .resolve
  | .configIntr _ => .configIntr
  | .ackIntr => .ackIntr
  | .init _ => .init
  | .configTiming _ => .configTiming
  | .configLed => .configLed
  | .suspend => .suspend
  | .resume => .resume

/-- The command's word selects the command's row. -/
def OpcodeRow.Statement (i : Instr) : Prop := ∃ r ∈ opcodeTable, r.op = opcodeOf i ∧ r.Selects (encode i)

theorem OpcodeRow.read (addr : Reg) : OpcodeRow.Statement (.read addr) := by
  refine ⟨_, List.getElem_mem (n := 0) (by decide), rfl, ?_⟩
  show ((0x01#8 ++ 0#24 ++ addr ++ 0#16) &&& (0xFF#8 ++ 0xFFFFFF#24 ++ 0#16 ++ 0xFFFF#16) : BitVec (8 + 24 + 16 + 16)) = _
  simp only [BitVec.and_append, BitVec.and_zero]; rfl

theorem OpcodeRow.write (addr value : Reg) : OpcodeRow.Statement (.write addr value) := by
  refine ⟨_, List.getElem_mem (n := 1) (by decide), rfl, ?_⟩
  show ((0x02#8 ++ 0#24 ++ addr ++ value) &&& (0xFF#8 ++ 0xFFFFFF#24 ++ 0#16 ++ 0#16) : BitVec (8 + 24 + 16 + 16)) = _
  simp only [BitVec.and_append, BitVec.and_zero]; rfl

theorem OpcodeRow.readPaged (page addr : Reg) : OpcodeRow.Statement (.readPaged page addr) := by
  refine ⟨_, List.getElem_mem (n := 2) (by decide), rfl, ?_⟩
  show ((0x03#8 ++ 0#8 ++ page ++ addr ++ 0#16) &&& (0xFF#8 ++ 0xFF#8 ++ 0#16 ++ 0#16 ++ 0xFFFF#16) : BitVec (8 + 8 + 16 + 16 + 16)) = _
  simp only [BitVec.and_append, BitVec.and_zero]; rfl

theorem OpcodeRow.writePaged (page addr value : Reg) : OpcodeRow.Statement (.writePaged page addr value) := by
  refine ⟨_, List.getElem_mem (n := 3) (by decide), rfl, ?_⟩
  show ((0x04#8 ++ 0#8 ++ page ++ addr ++ value) &&& (0xFF#8 ++ 0xFF#8 ++ 0#16 ++ 0#16 ++ 0#16) : BitVec (8 + 8 + 16 + 16 + 16)) = _
  simp only [BitVec.and_append, BitVec.and_zero]; rfl

theorem OpcodeRow.resolve (id : Ident) : OpcodeRow.Statement (.resolve id) := by
  refine ⟨_, List.getElem_mem (n := 4) (by decide), rfl, ?_⟩
  show ((0x10#8 ++ 0#24 ++ id) &&& (0xFF#8 ++ 0xFFFFFF#24 ++ 0#32) : BitVec (8 + 24 + 32)) = _
  simp only [BitVec.and_append, BitVec.and_zero]; rfl

theorem OpcodeRow.configIntr (en : Bool) : OpcodeRow.Statement (.configIntr en) :=
  ⟨_, List.getElem_mem (n := 5) (by decide), rfl, by cases en <;> rfl⟩

theorem OpcodeRow.ackIntr : OpcodeRow.Statement .ackIntr :=
  ⟨_, List.getElem_mem (n := 6) (by decide), rfl, by rfl⟩

theorem OpcodeRow.init (mode : IfMode) : OpcodeRow.Statement (.init mode) :=
  ⟨_, List.getElem_mem (n := 7) (by decide), rfl, by cases mode <;> rfl⟩

theorem OpcodeRow.configTiming (mode : IfMode) : OpcodeRow.Statement (.configTiming mode) :=
  ⟨_, List.getElem_mem (n := 8) (by decide), rfl, by cases mode <;> rfl⟩

theorem OpcodeRow.configLed : OpcodeRow.Statement .configLed :=
  ⟨_, List.getElem_mem (n := 9) (by decide), rfl, by rfl⟩

theorem OpcodeRow.suspend : OpcodeRow.Statement .suspend :=
  ⟨_, List.getElem_mem (n := 10) (by decide), rfl, by rfl⟩

theorem OpcodeRow.resume : OpcodeRow.Statement .resume :=
  ⟨_, List.getElem_mem (n := 11) (by decide), rfl, by rfl⟩

end Sys2Proof.Laws
end

