-- ==== Sys2Proof/Tests/Slice0.lean ====
section
/-! SUPPORT. Tests: the ill-formed configurations each check refuses, words written out from the formats, one step for
each command from the spec's vectors (95_test_vectors.md, named beside each), and for every statement with hypotheses a
state and operands that meet them. Expected values are the spec's. -/

set_option Elab.async false

namespace Sys2Proof.Tests

open Sys2Proof.Machine

/-! ## Small states -/

/-- TC1 with one volatile register, one register that is not banked and one page that is not implemented. -/
def tc2 : Cfg := { Cfg.tc1 with unbanked := [0x0009], volatile := [(0x0000, 0x0005)], unimplemented := [0x0007] }

/-- A chip under `c` with the profile `k` bound, the given registers and pending bits, and the transport's answers. No
device event happens; the drawn values are `0xBEEF` and `0x1234`. -/
def chipOf (c : Cfg) (k : Nat) (bank pending : Memory) (bus : List BusAnswer) : State :=
  { State.resetWith 0 c with
    core := { CoreState.reset with bound := some k }
    dev := { DevState.powerOn c with bank := bank, pending := pending }
    draws := { Draws.fresh 0 with
      bus := ⟨bus, 0⟩
      events := ⟨List.replicate 12 [], 0⟩
      values := ⟨[0xBEEF, 0x1234], 0⟩
      platform := ⟨[.name (bytes "Example Board A rev2")], 0⟩
      generic := ⟨[{ error := none, left := [(0x0000, 0x0800)] }], 0⟩ } }

def chip (k : Nat) (bank pending : Memory) (bus : List BusAnswer) : State := chipOf Cfg.tc1 k bank pending bus

/-- Eleven transactions that succeed. -/
def oks : List BusAnswer := List.replicate 12 .ok

/-- A chip whose transactions all succeed. -/
def bound (k : Nat) : State := chip k [] [] oks

/-- Nothing bound. -/
def fresh : State := { bound 0 with core := CoreState.reset }

/-- The platform provider answers this. -/
def onBoard (s : State) (p : PlatAnswer) : State := { s with draws := { s.draws with platform := ⟨[p], 0⟩ } }

/-- The generic collaborator answers this. -/
def onGeneric (s : State) (g : GenericAnswer) : State := { s with draws := { s.draws with generic := ⟨[g], 0⟩ } }

/-- Before the transactions to come the device does this. -/
def onEvents (s : State) (e : List DeviceEvent) : State := { s with draws := { s.draws with events := ⟨e, 0⟩ } }

/-- The command answers a next state that logged `l`, with the result `r`, and has the property. -/
def sees (i : Instr) (s : State) (l : List Ev) (r : Result) (p : State → Bool) : Bool :=
  match exec i s with
  | .next t => t.log == s.log ++ l ++ [.cmd (encode i) r] && p t
  | _ => false

/-! ## WellFormed: each check refuses a record that fails it alone -/

/-- The only check of R145 that profile F fails once `f` has spoilt it. -/
def failsOnly (n : Nat) (p : Profile) : Bool :=
  [wfIerMaskNonzero p, wfIerPaged p, wfIsrPaged p, wfTimingPaged p, wfDelayOneBit p, wfRegNotPs 0x001f p, wfPdPair p]
    == (List.range 7).map fun m => m != n

theorem test_wf_ierMaskNonzero :
    failsOnly 0 { Tc1.profileF with intrEnable := some { reg := 0x12, page := some 0xa42, mask := 0 } } = true := by decide +kernel

theorem test_wf_ierPaged :
    failsOnly 1 { Tc1.profileL with intrEnable := some { reg := 0x12, page := some 0xa42, mask := 1 } } = true := by decide +kernel

theorem test_wf_isrPaged :
    failsOnly 2 { Tc1.profileL with intrAck := some { reg := 0x13, page := some 0xa43 } } = true := by decide +kernel

theorem test_wf_timingPaged :
    failsOnly 3 { Tc1.profileB with init := some { timing := some { page := 0xd08, reg := 0x11, bit := 0x100 }, led := none } }
      = true := by decide +kernel

theorem test_wf_delayOneBit :
    failsOnly 4 { Tc1.profileF with init := some { timing := some { page := 0xd08, reg := 0x11, bit := 0x300 }, led := none } }
      = true := by decide +kernel

theorem test_wf_regNotPs :
    failsOnly 5 { Tc1.profileL with intrAck := some { reg := 0x001f, page := none } } = true := by decide +kernel

theorem test_wf_pdPair : failsOnly 6 { Tc1.profileL with resume := none } = true := by decide +kernel

/-- R180: three modes, a mode that is no RGMII mode, and one mode twice. -/
theorem test_wf_txDelayModes :
    wfTxDelayModes [.rgmii, .rgmiiId, .rgmiiTxid] = false ∧ wfTxDelayModes [.other, .rgmiiId] = false
      ∧ wfTxDelayModes [.rgmiiId, .rgmiiId] = false := by decide +kernel

/-- TC1 "passes every check of rule R145" and "meets every count of rule R148"; it holds R146's and R147's profiles. -/
theorem test_tc1_accepted :
    Cfg.tc1.accepted = true ∧ hasKnownProfiles Cfg.tc1.profiles = true ∧ knownVariantSet Cfg.tc1.profiles = true := by
  decide +kernel

/-- A table that fails a check is refused before any command. -/
theorem test_boot_refuses :
    boot 0 { Cfg.tc1 with profiles := [{ Tc1.profileL with resume := none }] } = .refused .configurationRefused := by
  rfl

/-! ## Decoding: V-DEC, and words written out from the formats of R82 to R87 -/

theorem test_decode_R :
    decode 0x0100000000120000 = some (.read 0x0012) ∧ decode 0x02000000001F0A42 = some (.write 0x001f 0x0a42) := by decide +kernel

theorem test_decode_P :
    decode 0x03000A4200120000 = some (.readPaged 0x0a42 0x0012)
      ∧ decode 0x04000A4200120010 = some (.writePaged 0x0a42 0x0012 0x0010) := by decide +kernel

theorem test_decode_I : decode 0x10000000ABDCC916 = some (.resolve 0xabdcc916) := by decide +kernel

theorem test_decode_C :
    decode 0x2000000000000001 = some (.configIntr true) ∧ decode 0x2000000000000000 = some (.configIntr false) := by decide +kernel

theorem test_decode_M :
    decode 0x3000000000000004 = some (.init .rgmiiTxid) ∧ decode 0x3100000000000002 = some (.configTiming .rgmiiId)
      ∧ decode 0x3100000000000003 = some (.configTiming .rgmiiRxid) ∧ decode 0x3000000000000001 = some (.init .rgmii)
      ∧ decode 0x3000000000000000 = some (.init .other) := by decide +kernel

theorem test_decode_N :
    decode 0x2100000000000000 = some .ackIntr ∧ decode 0x3200000000000000 = some .configLed
      ∧ decode 0x4000000000000000 = some .suspend ∧ decode 0x4100000000000000 = some .resume := by decide +kernel

/-- V-DEC, the reserved fields and modes. -/
theorem test_decode_refuses_reserved :
    (([0x0100000000120001, 0x0101000000120000, 0x0200000100000000, 0x03000A4200120010, 0x04010A4200120010,
      0x10000001001CC916, 0x2000000000000002, 0x2100000000000001, 0x3000000000000005, 0x31000000000000FF,
      0x3000000000000100] : List Word).all fun w => decode w == none) = true := by decide +kernel

/-- V-DEC and V-EX, the opcodes outside the map. -/
theorem test_decode_refuses_opcodes :
    (([0x0000000000000000, 0x0500000000000000, 0x2200000000000000, 0xFFFFFFFFFFFFFFFF, 0xFF00000000000000,
      0x3100000000000007] : List Word).all fun w => decode w == none) = true := by decide +kernel

/-- The opcode table's numbering is that of the one 64-bit word. -/
theorem test_decodeTableWord : decodeTableWord 64 0x04000A4200120010 = some (.writePaged 0x0a42 0x0012 0x0010) := by decide +kernel

/-- R95: 30_encoding.md's assembler text. -/
theorem test_assembler :
    assembleLine "write.paged 0x0a42, 0x0012, 0x0010".toList = .command (.writePaged 0x0a42 0x0012 0x0010)
      ∧ assembleLine "timing.config rgmii-id".toList = .command (.configTiming .rgmiiId) := by decide +kernel

/-! ## One step of each command -/

/-- RA2: an unknown register's draw is the value, and stays. -/
theorem test_read_unknown :
    sees (.read 0x0003) (bound 3) [okRead 0x0003 0xBEEF] (.okValue 0xBEEF)
      (fun t => t.bankCell 0 0x0003 == some 0xBEEF) = true := by decide +kernel

/-- RA9: with the page stranded, a plain read reaches the extended bank. -/
theorem test_read_stranded :
    sees (.read 0x0012)
      (let s := chip 3 [(0x0012, 0x1111), (locKey 0x0a42 0x0012, 0x0010)] [] oks
       { s with dev := { s.dev with ps := 0x0a42 } })
      [okRead 0x0012 0x0010] (.okValue 0x0010) (fun t => t.dev.ps == 0x0a42) = true := by decide +kernel

/-- RA6: a failed write that took effect. -/
theorem test_write_tookEffect :
    sees (.write 0x0000 0x1140) (chip 3 [(0x0000, 0x1000)] [] [.err 1 true]) [.busW 0x0000 0x1140 (.err 1)] (.busError 1)
      (fun t => t.bankCell 0 0 == some 0x1140) = true := by decide +kernel

/-- RA8: a plain write to the page-select register strands the page. -/
theorem test_write_pageSelect :
    sees (.write 0x001f 0x0a42) (bound 3) [okWrite (0x001f, 0x0a42)] .ok
      (fun t => t.dev.ps == 0x0a42 && t.dev.bank == []) = true := by decide +kernel

/-- RA19: the value read is discarded when the restore fails, and the page is stranded. -/
theorem test_readPaged_restoreFails :
    sees (.readPaged 0x0a42 0x0012) (chip 3 [(locKey 0x0a42 0x0012, 0x0010)] [] [.ok, .ok, .err 3 false])
      [okWrite (0x001f, 0x0a42), okRead 0x0012 0x0010, .busW 0x001f 0 (.err 3)] (.busError 3)
      (fun t => t.dev.ps == 0x0a42) = true := by decide +kernel

/-- RA23: a paged read of a status register clears it. -/
theorem test_readPaged_status :
    sees (.readPaged 0x0a43 0x001d) (chip 3 [] [(locKey 0x0a43 0x001d, 0x0011)] oks)
      [okWrite (0x001f, 0x0a43), okRead 0x001d 0x0011, okWrite (0x001f, 0)] (.okValue 0x0011)
      (fun t => t.pendingCell 0x0a43 0x001d == some 0) = true := by decide +kernel

/-- S2: the restoring write still occurs when the write itself fails. -/
theorem test_writePaged_fails :
    sees (.writePaged 0x0a42 0x0012 0x0010) (chip 3 [(locKey 0x0a42 0x0012, 0x0000)] [] [.ok, .err 2 false, .ok])
      [okWrite (0x001f, 0x0a42), .busW 0x0012 0x0010 (.err 2), okWrite (0x001f, 0)] (.busError 2)
      (fun t => t.dev.ps == 0 && t.bankCell 0x0a42 0x0012 == some 0) = true := by decide +kernel

/-- RA17: of two failures the first wins, and the operation is skipped. -/
theorem test_writePaged_firstErrorWins :
    sees (.writePaged 0x0a42 0x0012 0x0010) (chip 3 [] [] [.err 1 false, .err 3 false])
      [.busW 0x001f 0x0a42 (.err 1), .busW 0x001f 0 (.err 3)] (.busError 1)
      (fun t => t.dev.ps == 0 && t.dev.bank == []) = true := by decide +kernel

/-- RT5: bits outside the mask are ignored. -/
theorem test_resolve_masked :
    sees (.resolve 0xabdcc916) fresh [] (.okIndex 3) (fun t => t.core.bound == some 3) = true := by decide +kernel

/-- RT8: no profile matches, and nothing is refused. -/
theorem test_resolve_notFound :
    sees (.resolve 0x001cc910) fresh [] .notFound (fun t => t.core == CoreState.reset) = true := by decide +kernel

/-- IN5: the composite mask, by a plain write. -/
theorem test_configIntr_plain :
    sees (.configIntr true) (bound 1) [okWrite (0x0012, 0x6400)] .ok
      (fun t => t.core.intr == .enabled && t.bankCell 0 0x0012 == some 0x6400) = true := by decide +kernel

/-- IN4: the restore fails; `IntrState` stays though the register holds 0. -/
theorem test_configIntr_restoreFails :
    sees (.configIntr false)
      (let s := chip 3 [(locKey 0x0a42 0x0012, 0x0010)] [] [.ok, .ok, .err 3 false]
       { s with core := { s.core with intr := .enabled } })
      [okWrite (0x001f, 0x0a42), okWrite (0x0012, 0), .busW 0x001f 0 (.err 3)] (.busError 3)
      (fun t => t.core.intr == .enabled && t.bankCell 0x0a42 0x0012 == some 0 && t.dev.ps == 0x0a42) = true := by decide +kernel

/-- IN12: what the device sets after the read stays pending. -/
theorem test_ackIntr_keepsLater :
    sees .ackIntr
      (onEvents (chip 3 [] [(locKey 0x0a43 0x001d, 0x0010)] oks) [[], [], [((0x0a43, 0x001d), 0x0004)]])
      [okWrite (0x001f, 0x0a43), okRead 0x001d 0x0010, okWrite (0x001f, 0)] .ok
      (fun t => t.pendingCell 0x0a43 0x001d == some 0x0004) = true := by decide +kernel

/-- IN10: a failed read that took its effect. -/
theorem test_ackIntr_fails :
    sees .ackIntr (chip 1 [] [(locKey 0 0x0013, 0x0400)] [.err 1 true]) [.busR 0x0013 (.err 1)] (.busError 1)
      (fun t => t.pendingCell 0 0x0013 == some 0) = true := by decide +kernel

/-- TM5: a mode that needs no delay clears only the delay bit. -/
theorem test_configTiming_clears :
    sees (.configTiming .other) (chip 3 [(locKey 0x0d08 0x0011, 0xFFFF)] [] oks)
      [okWrite (0x001f, 0x0d08), okRead 0x0011 0xFFFF, okWrite (0x001f, 0),
       okWrite (0x001f, 0x0d08), okWrite (0x0011, 0xFEFF), okWrite (0x001f, 0)] .ok
      (fun t => t.bankCell 0x0d08 0x0011 == some 0xFEFF) = true := by decide +kernel

/-- TM8: the write back fails. -/
theorem test_configTiming_fails :
    sees (.configTiming .rgmiiId) (chip 3 [(locKey 0x0d08 0x0011, 0x0021)] [] [.ok, .ok, .ok, .ok, .err 5 false, .ok])
      [okWrite (0x001f, 0x0d08), okRead 0x0011 0x0021, okWrite (0x001f, 0),
       okWrite (0x001f, 0x0d08), .busW 0x0011 0x0121 (.err 5), okWrite (0x001f, 0)] (.busError 5)
      (fun t => t.bankCell 0x0d08 0x0011 == some 0x0021 && t.dev.ps == 0) = true := by decide +kernel

/-- LD7: the two-step select; the extension-page register is on page 7. -/
theorem test_configLed_twoStep :
    sees .configLed (onBoard (bound 2) (.name (bytes "Example Board C")))
      [.plat (.name (bytes "Example Board C")), okWrite (0x001f, 0x0007), okWrite (0x001e, 0x002c),
       okWrite (0x001a, 0x0a10), okWrite (0x001b, 0x0002), okWrite (0x001f, 0)] .ok
      (fun t => t.core.led == some (0x0a10, 0x0002)
        && t.dev.bank == [(locKey 7 0x001a, 0x0a10), (locKey 7 0x001b, 0x0002), (locKey 7 0x001e, 0x002c)]) = true := by
  decide +kernel

/-- LD10: the LED write fails; no EEE write, and the pair stays. -/
theorem test_configLed_fails :
    sees .configLed (onBoard (chip 3 [] [] [.ok, .err 2 false, .ok]) (.name (bytes "Example Board A")))
      [.plat (.name (bytes "Example Board A")), okWrite (0x001f, 0x0d04), .busW 0x0010 0x6160 (.err 2),
       okWrite (0x001f, 0)] (.busError 2) (fun t => t.core.led == some (0x6160, 0)) = true := by decide +kernel

/-- IT2: a failed LED step is reported and is not fatal. -/
theorem test_init_ledFails :
    sees (.init .rgmiiId)
      (chip 3 [(locKey 0x0d08 0x0011, 0x0021)] [] ([.ok, .ok, .ok, .ok, .ok, .ok, .ok, .err 2 false, .ok]))
      [okWrite (0x001f, 0x0d08), okRead 0x0011 0x0021, okWrite (0x001f, 0), okWrite (0x001f, 0x0d08),
       okWrite (0x0011, 0x0121), okWrite (0x001f, 0), .plat (.name (bytes "Example Board A rev2")),
       okWrite (0x001f, 0x0d04), .busW 0x0010 0x6160 (.err 2), okWrite (0x001f, 0)] (.okLed (.busError 2))
      (fun t => t.bankCell 0x0d08 0x0011 == some 0x0121) = true := by decide +kernel

/-- IT3: a failed timing read ends the command; no query. -/
theorem test_init_timingFails :
    sees (.init .rgmiiId) (chip 3 [] [] [.ok, .err 2 false, .ok])
      [okWrite (0x001f, 0x0d08), .busR 0x0011 (.err 2), okWrite (0x001f, 0)] (.busError 2)
      (fun t => t.core.led == none) = true := by decide +kernel

/-- SR1 with R74: the default page's storage is a draw, an extended page's is not. -/
theorem test_suspend_draws :
    sees .suspend (chip 1 [(0x0000, 0x1140), (0x0012, 0x6400), (locKey 7 0x001a, 0x0a10)] [] oks)
      [okWrite (0x000e, 0x0200), .gen .suspend (.ok ())] .ok
      (fun t => t.dev.bank == [(0x0000, 0x0800), (locKey 7 0x001a, 0x0a10)]) = true := by decide +kernel

/-- SR3: the assist write fails; no generic call. -/
theorem test_suspend_fails :
    sees .suspend (chip 1 [] [] [.err 1 false]) [.busW 0x000e 0x0200 (.err 1)] (.busError 1)
      (fun t => t.draws.generic.script.length == 1) = true := by decide +kernel

/-- SR2: the generic call comes first. -/
theorem test_resume_order :
    sees .resume (bound 1) [.gen .resume (.ok ()), okWrite (0x000e, 0)] .ok
      (fun t => t.bankCell 0 0x000e == some 0 && t.bankCell 0 0 == some 0x0800) = true := by decide +kernel

/-- SR5: the generic call fails; no assist write. -/
theorem test_resume_fails :
    sees .resume (onGeneric (bound 1) { error := some 7, left := [] }) [.gen .resume (.err 7)] (.genericError 7)
      (fun t => t.dev.bank == []) = true := by decide +kernel

/-- R57: a volatile register and one on an unimplemented page give a fresh draw and keep nothing; a write to the latter
is discarded. R51: a register that is not banked is the same on every page. -/
theorem test_locations :
    sees (.read 0x0005) (chipOf tc2 3 [(0x0005, 0x7777)] [] oks) [okRead 0x0005 0xBEEF] (.okValue 0xBEEF)
        (fun t => t.dev.bank == [(0x0005, 0x7777)]) = true
      ∧ sees (.writePaged 0x0007 0x0012 0x0001) (chipOf tc2 3 [] [] oks)
        [okWrite (0x001f, 0x0007), okWrite (0x0012, 0x0001), okWrite (0x001f, 0)] .ok (fun t => t.dev.bank == []) = true
      ∧ sees (.writePaged 0x0a42 0x0009 0x0001) (chipOf tc2 3 [] [] oks)
        [okWrite (0x001f, 0x0a42), okWrite (0x0009, 0x0001), okWrite (0x001f, 0)] .ok
        (fun t => t.dev.flat == [(0x0009, 0x0001)] && t.dev.bank == []) = true := by decide +kernel

/-- EX4, EX5: the decoder comes before the check that a profile is bound. -/
theorem test_step_illegal :
    step (fresh.withFetchWord 64 0x3100000000000007)
      = .next (afterRefusal 0x3100000000000007 .illegalCommand fresh) := by rfl

/-- P1's first word from reset, under TC1: RT1. -/
theorem test_step_first :
    step ((State.resetWith 0 Cfg.tc1).withFetchWord 64 0x10000000001CC916)
      = exec (.resolve 0x001cc916) (State.resetWith 0 Cfg.tc1) := by rfl

/-! ## Witnesses: a state and operands that meet each statement's hypotheses -/

/-- The host has issued the word. -/
def issued (w : Word) : State := fresh.issue w

theorem issued_commands (w : Word) : (issued w).commands = w :: [] := rfl

/-- The command answers a next state that has the property. -/
def reaches (i : Instr) (s : State) (p : State → Bool) : Prop := ∃ t, exec i s = .next t ∧ p t = true

theorem busOk_bound : BusOk (bound 0) 0 11 ∧ BusOk (bound 1) 0 11 ∧ BusOk (bound 2) 0 11 ∧ BusOk (bound 3) 0 11 := by
  unfold BusOk; decide +kernel

/-- Opcodes beside each run of legal ones. -/
theorem witness_IllegalOpcodesAreRefused :
    (issued 0x0500000000000000).commands = [0x0500000000000000]
      ∧ ([0x00, 0x05, 0x0F, 0x11, 0x1F, 0x22, 0x2F, 0x33, 0x3F, 0x42, 0xFF].all fun n => !legalOpcodes.contains n) = true
      ∧ (0x0500000000000000 : Word).extractLsb' 56 8 ∉ legalOpcodes := ⟨rfl, by decide, by decide⟩

/-- Every entry of the reserved bits with its lowest and its highest bit. -/
theorem witness_NonzeroReservedBitsAreRefused :
    (issued 0x2000000000000002).commands = [0x2000000000000002]
      ∧ ((0x20, 0x00FFFFFFFFFFFFFE) : BitVec 8 × Word) ∈ reservedBits
      ∧ (0x2000000000000002 : Word).extractLsb' 56 8 = 0x20 ∧ (0x2000000000000002 : Word) &&& 0x00FFFFFFFFFFFFFE ≠ 0
      ∧ (reservedBits.all fun e => e.2 != 0) = true := ⟨rfl, by decide, by decide, by decide, by decide⟩

/-- Both opcodes, the modes at both ends of the reserved range. -/
theorem witness_ReservedModesAreRefused :
    (issued 0x3000000000000005).commands = [0x3000000000000005] ∧ (issued 0x31000000000000FF).commands = [0x31000000000000FF]
      ∧ (0x3000000000000005 : Word).extractLsb' 56 8 = 0x30 ∧ (0x31000000000000FF : Word).extractLsb' 56 8 = 0x31
      ∧ 5 ≤ ((0x3000000000000005 : Word).extractLsb' 0 8).toNat ∧ 5 ≤ ((0x31000000000000FF : Word).extractLsb' 0 8).toNat := by
  refine ⟨rfl, rfl, ?_⟩; decide

theorem witness_EveryDecodedWordIsTheEncoding : decode 0x3000000000000004 = some (.init .rgmiiTxid) := by decide

theorem witness_StepRunsTheDecodedCommand :
    (issued 0x4000000000000000).commands = [0x4000000000000000] ∧ decode 0x4000000000000000 = some .suspend :=
  ⟨rfl, by decide⟩

theorem witness_EveryStepAnswersANextState : fresh.commands = [] := rfl

theorem witness_EachCommandLogsOneResult : ∃ t, exec .suspend (bound 1) = .next t := ⟨_, rfl⟩

theorem witness_CommandsAreBounded : ∃ t, exec (.init .rgmiiId) (bound 3) = .next t := ⟨_, rfl⟩

theorem witness_NoCommandWritesTheTables : ∃ t, step (issued 0x10000000001CC916) = .next t := ⟨_, rfl⟩

theorem witness_RefusalChangesOnlyTheMark :
    (issued 0x0100000000120000).commands = [0x0100000000120000]
      ∧ ∃ t, step (issued 0x0100000000120000) = .next t ∧ t.lastResult = some (.refuse .unbound) := ⟨rfl, _, rfl, by decide +kernel⟩

/-- One step that sets the mark and one that does not. -/
theorem witness_RefusedMarkIsSticky :
    (issued 0x0100000000120000).commands ≠ [] ∧ (∃ t, step (issued 0x0100000000120000) = .next t ∧ t.core.refused = true)
      ∧ ∃ t, step (issued 0x10000000001CC916) = .next t ∧ t.core.refused = false :=
  ⟨by simp [issued, State.issue], ⟨_, rfl, rfl⟩, ⟨_, rfl, by decide +kernel⟩⟩

theorem witness_UnboundCommandsAreRefused : fresh.core.bound = none ∧ ∀ id, Instr.ackIntr ≠ .resolve id :=
  ⟨rfl, by simp⟩

theorem witness_MissingPagedBindingIsRefused :
    (bound 1).profile? = some Tc1.profileL ∧ Tc1.profileL.pagedRead = false ∧ Tc1.profileL.pagedWrite = false := by
  decide +kernel

/-- The mask's ends: 0 and all ones. -/
theorem witness_MatchUsesTheMaskedBits :
    ({ Tc1.profileF with mask := 0x00000000 } : Profile).mask = 0x00000000
      ∧ ({ Tc1.profileF with mask := 0xFFFFFFFF } : Profile).mask = 0xFFFFFFFF
      ∧ (0xabdcc916 : Ident) &&& Tc1.profileF.mask = 0x001cc916 &&& Tc1.profileF.mask := by decide

theorem witness_ResolveBindsTheFirstMatch_rebind : (bound 3).core.bound = some 3 := rfl

/-- The first and the last profile of the table. -/
theorem witness_ResolveBindsTheFirstMatch_match :
    fresh.core.bound = none ∧ fresh.cfg.profiles[0]? = some Tc1.profileB ∧ fresh.cfg.profiles[3]? = some Tc1.profileF
      ∧ (0x001c8201 : Ident) &&& Tc1.profileB.mask = Tc1.profileB.id &&& Tc1.profileB.mask
      ∧ (0x001cc916 : Ident) &&& Tc1.profileF.mask = Tc1.profileF.id &&& Tc1.profileF.mask
      ∧ ((fresh.cfg.profiles.take 3).all fun q => (0x001cc916 : Ident) &&& q.mask != q.id &&& q.mask) = true := by
  decide +kernel

theorem witness_ResolveBindsTheFirstMatch_none :
    fresh.core.bound = none ∧ (fresh.cfg.profiles.all fun q => (0x001cc910 : Ident) &&& q.mask != q.id &&& q.mask) = true := by
  decide +kernel

theorem witness_OverlapMeansACommonIdentity :
    resolveIndex Cfg.tc1.profiles 0x001cc916 = some 3 ∧ 0 < 3 ∧ Cfg.tc1.profiles[0]? = some Tc1.profileB
      ∧ ({ Tc1.profileB with id := 0, mask := 0 } : Profile).overlaps Tc1.profileF = true
      ∧ Tc1.profileB.overlaps Tc1.profileF = false := by decide +kernel

theorem witness_NotFoundIsOnlyResolves : reaches (.resolve 0x00000000) fresh fun t => t.lastResult == some .notFound :=
  ⟨_, rfl, by decide +kernel⟩

theorem witness_BoundIsWrittenOnce :
    (bound 3).core.bound = some 3 ∧ reaches .ackIntr (bound 3) (fun _ => true)
      ∧ fresh.core.bound = none ∧ reaches (.resolve 0x001cc916) fresh fun t => t.core.bound != none :=
  ⟨rfl, ⟨_, rfl, rfl⟩, rfl, ⟨_, rfl, by decide +kernel⟩⟩

/-- A configuration that is taken and one that is not. -/
theorem witness_BootRefusesIllFormedTables :
    Cfg.tc1.accepted = true ∧ ({ Cfg.tc1 with txDelayModes := [] } : Cfg).accepted = false := by decide

/-- A location with an initial content, and one without. -/
theorem witness_ResetLeavesTheSpecifiedValues :
    Cfg.tc1.isBanked 0x0000 = true ∧ Cfg.tc1.isBanked 0xFFFF = true ∧ Cfg.tc1.isBanked 0x001f = false
      ∧ Cfg.tc1.initContents.lookup (0x0000, 0x0000) = none
      ∧ ({ Cfg.tc1 with initContents := [((0, 0), 0x1140)] } : Cfg).initContents.lookup (0, 0) = some 0x1140 := by decide

theorem witness_DeviceOnlySetsPendingBits :
    (chip 1 [] [(locKey 0 0x0013, 0x0400)] []).cfg.isStatus 0 0x0013 = true
      ∧ (chip 1 [] [(locKey 0 0x0013, 0x0400)] []).pendingCell 0 0x0013 = some 0x0400
      ∧ (chip 1 [] [(locKey 0 0x0013, 0x0400)] []).cfg.isStatus 0 0x0012 = false := by decide +kernel

theorem witness_PageSelectWriteSetsPs : (bound 3).busAhead 0 = .ok ∧ (bound 3).cfg.isBanked 0x0012 = true := by
  decide +kernel

/-- A failed transaction with its effect and one without; an address of each kind, the status location's edges too. -/
theorem witness_FailedTransactionTookEffectOrNot :
    (chip 1 [] [] [.err 1 true]).busAhead 0 = .err 1 true ∧ (chip 1 [] [] [.err 1 false]).busAhead 0 = .err 1 false
      ∧ locAt Cfg.tc1 0 0x001f = .psReg ∧ locAt Cfg.tc1 0 0x0013 = .bank 0 0x0013 ∧ Cfg.tc1.isStatus 0 0x0013 = true
      ∧ Cfg.tc1.isStatus 0 0x0012 = false ∧ Cfg.tc1.isStatus 0 0x0014 = false := by decide +kernel

/-- The kinds of location that `ReadDone` and `WriteDone` tell apart, each at an address, with the addresses beside the
page-select register and at the ends of the range. -/
theorem witness_locations :
    locAt tc2 0 0x001f = .psReg ∧ locAt tc2 0 0x0009 = .flat 0x0009 ∧ tc2.isStatus 0x0a43 0x001d = true
      ∧ tc2.isStorage 0 0x0013 = false
      ∧ (tc2.isStorage 0 0x0000 && tc2.isStorage 0 0x001e && tc2.isStorage 0 0x0020 && tc2.isStorage 0 0xFFFF) = true
      ∧ (tc2.isStorage 0 0x0005 || tc2.isStatus 0 0x0005) = false ∧ tc2.isImplemented 0 = true
      ∧ (tc2.isStorage 7 0x0012 || tc2.isStatus 7 0x0012 || tc2.isImplemented 7) = false
      ∧ storesAt tc2 0x0a42 0x0012 = true ∧ storesAt tc2 0 0x0009 = true ∧ storesAt tc2 0 0x001f = false := by
  decide +kernel

/-- On it every kind of location can be read and written. -/
theorem witness_ReadReturnsTheRegister :
    (chipOf tc2 3 [] [] oks).profile? = some Tc1.profileF ∧ (chipOf tc2 3 [] [] oks).busAhead 0 = .ok := by decide +kernel

theorem witness_WriteStoresTheValue :
    (chipOf tc2 1 [] [] oks).profile? = some Tc1.profileL ∧ (chipOf tc2 1 [] [] oks).busAhead 0 = .ok := by decide +kernel

theorem witness_PagedReadReturnsTheRegister :
    (chipOf tc2 3 [] [] oks).profile? = some Tc1.profileF ∧ Tc1.profileF.pagedRead = true
      ∧ BusOk (chipOf tc2 3 [] [] oks) 0 3 := by unfold BusOk; decide +kernel

theorem witness_PagedWriteStoresTheValue :
    (chipOf tc2 3 [] [] oks).profile? = some Tc1.profileF ∧ Tc1.profileF.pagedWrite = true
      ∧ BusOk (chipOf tc2 3 [] [] oks) 0 3 := by unfold BusOk; decide +kernel

/-- Success, a failed select, a failed operation. -/
theorem witness_PagedAccessOutcomes :
    ((bound 3).busAhead 0 = .ok ∧ (bound 3).busAhead 1 = .ok) ∧ (chip 3 [] [] [.err 1 true]).busAhead 0 = .err 1 true
      ∧ (chip 3 [] [] [.ok, .err 2 false]).busAhead 0 = .ok
      ∧ (chip 3 [] [] [.ok, .err 2 false]).busAhead 1 = .err 2 false := by decide +kernel

theorem witness_BusErrorIsTheFirstFailedTransaction :
    ∃ t, exec (.read 0x0002) (chip 3 [] [] [.err 1 false]) = .next t
      ∧ Logged (.read 0x0002) [.busR 0x0002 (.err 1)] (.busError 1) (chip 3 [] [] [.err 1 false]) t
      ∧ firstBusErr [.busR 0x0002 (.err 1)] = some 1 :=
  ⟨_, rfl, by unfold Logged; decide +kernel, by decide⟩

/-- INIT whose timing step fails, and INIT whose LED step fails. -/
theorem witness_BusErrorIsTheFirstFailedTransaction_init :
    reaches (.init .rgmii) (chip 3 [] [] [.ok, .err 2 false, .ok]) (fun t => t.lastResult == some (.busError 2))
      ∧ reaches (.init .rgmii) (chip 3 [] [] (List.replicate 6 .ok ++ [.err 4 true, .ok]))
        (fun t => t.lastResult == some (.okLed (.busError 4))) :=
  ⟨⟨_, rfl, by decide +kernel⟩, ⟨_, rfl, by decide +kernel⟩⟩

theorem witness_PendingStaysUntilAccessed :
    ∃ t, exec (.read 0x0002) (bound 1) = .next t
      ∧ Logged (.read 0x0002) [okRead 0x0002 0xBEEF] (.okValue 0xBEEF) (bound 1) t
      ∧ ([okRead 0x0002 0xBEEF].all fun e => !e.atAddr 0x0013) = true :=
  ⟨_, rfl, by unfold Logged; decide +kernel, by decide⟩

/-- An `Ok`, a failure, and a command that is no CONFIG_INTR. -/
theorem witness_IntrStateFollowsConfigIntr :
    reaches (.configIntr true) (bound 3) (fun t => t.lastResult == some .ok)
      ∧ reaches (.configIntr true) (chip 1 [] [] [.err 1 true]) (fun t => t.lastResult != some .ok)
      ∧ reaches .ackIntr (bound 3) (fun _ => true) :=
  ⟨⟨_, rfl, by decide +kernel⟩, ⟨_, rfl, by decide +kernel⟩, ⟨_, rfl, rfl⟩⟩

/-- No binding, a plain one, a paged one. -/
theorem witness_ConfigIntrWritesTheEnableRegister :
    ((bound 0).profile? = some Tc1.profileB ∧ Tc1.profileB.intrEnable = none)
      ∧ ((bound 1).profile? = some Tc1.profileL ∧ Tc1.profileL.intrEnable = some ⟨0x0012, none, 0x6400⟩)
      ∧ ((bound 3).profile? = some Tc1.profileF ∧ Tc1.profileF.intrEnable = some ⟨0x0012, some 0x0a42, 0x0010⟩)
      ∧ Cfg.tc1.accepted = true := by decide +kernel

theorem witness_ConfigIntrIsIdempotent :
    (bound 3).profile? = some Tc1.profileF ∧ (bound 3).cfg.accepted = true ∧ (bound 3).PsClean
      ∧ (∃ t u, exec (.configIntr true) (bound 3) = .next t ∧ t.lastResult = some .ok
        ∧ exec (.configIntr true) t = .next u ∧ u.lastResult = some .ok)
      ∧ storesAt (bound 3).cfg 0x0a42 0x0012 = true :=
  ⟨by decide +kernel, by decide +kernel, rfl, ⟨_, _, rfl, by decide +kernel, rfl, by decide +kernel⟩, by decide +kernel⟩

theorem witness_EnableThenDisableClears :
    (bound 3).profile? = some Tc1.profileF ∧ (bound 3).cfg.accepted = true ∧ (bound 3).PsClean
      ∧ Tc1.profileF.intrEnable = some ⟨0x0012, some 0x0a42, 0x0010⟩ ∧ storesAt (bound 3).cfg 0x0a42 0x0012 = true
      ∧ (∃ t u, exec (.configIntr true) (bound 3) = .next t ∧ t.lastResult = some .ok
        ∧ exec (.configIntr false) t = .next u ∧ u.lastResult = some .ok)
      ∧ ∃ t u, exec (.configIntr false) (bound 3) = .next t ∧ t.lastResult = some .ok
        ∧ exec (.configIntr true) t = .next u ∧ u.lastResult = some .ok :=
  ⟨by decide +kernel, by decide +kernel, rfl, rfl, by decide +kernel,
    ⟨_, _, rfl, by decide +kernel, rfl, by decide +kernel⟩, ⟨_, _, rfl, by decide +kernel, rfl, by decide +kernel⟩⟩

/-- No binding, a plain one, a paged one. -/
theorem witness_AckIntrReadsTheStatusRegister :
    ((bound 0).profile? = some Tc1.profileB ∧ Tc1.profileB.intrAck = none)
      ∧ ((bound 1).profile? = some Tc1.profileL ∧ Tc1.profileL.intrAck = some ⟨0x0013, none⟩)
      ∧ ((bound 3).profile? = some Tc1.profileF ∧ Tc1.profileF.intrAck = some ⟨0x001d, some 0x0a43⟩)
      ∧ Cfg.tc1.accepted = true := by decide +kernel

/-- No binding, and one. -/
theorem witness_ConfigTimingSetsTheDelayBit :
    ((bound 2).profile? = some Tc1.profileE ∧ Tc1.profileE.init.bind InitBinding.timing = none)
      ∧ ((bound 3).profile? = some Tc1.profileF
        ∧ Tc1.profileF.init.bind InitBinding.timing = some ⟨0x0d08, 0x0011, 0x0100⟩)
      ∧ storesAt (bound 3).cfg 0x0d08 0x0011 = true ∧ Cfg.tc1.accepted = true := by decide +kernel

/-- A mode that needs the delay and one that does not. -/
theorem witness_TimingKeepsEveryOtherBit :
    (chip 3 [(locKey 0x0d08 0x0011, 0xA0A5)] [] oks).profile? = some Tc1.profileF
      ∧ (chip 3 [(locKey 0x0d08 0x0011, 0xA0A5)] [] oks).cellAt 0x0d08 0x0011 = some 0xA0A5
      ∧ reaches (.configTiming .rgmiiId) (chip 3 [(locKey 0x0d08 0x0011, 0xA0A5)] [] oks)
        (fun t => t.lastResult == some .ok && t.cellAt 0x0d08 0x0011 == some 0xA1A5)
      ∧ reaches (.configTiming .other) (chip 3 [(locKey 0x0d08 0x0011, 0xA1A5)] [] oks)
        (fun t => t.lastResult == some .ok && t.cellAt 0x0d08 0x0011 == some 0xA0A5) :=
  ⟨by decide +kernel, by decide +kernel, ⟨_, rfl, by decide +kernel⟩, ⟨_, rfl, by decide +kernel⟩⟩

theorem witness_TimingReadFailureWritesNothing :
    (chip 3 [] [] [.ok, .err 2 false]).profile? = some Tc1.profileF
      ∧ Tc1.profileF.init.bind InitBinding.timing = some ⟨0x0d08, 0x0011, 0x0100⟩
      ∧ (chip 3 [] [] [.ok, .err 2 false]).busAhead 0 = .ok
      ∧ (chip 3 [] [] [.ok, .err 2 false]).busAhead 1 = .err 2 false := by decide +kernel

/-- A name that matches none, one equal to the entry's, one longer, one that an exact entry only begins. -/
theorem witness_PlatformLookupTakesTheFirstMatch :
    lookupPlatform Cfg.tc1.platforms (.name (bytes "Other Board")) = (0, 0)
      ∧ lookupPlatform Cfg.tc1.platforms (.name (bytes "Example Board A")) = (0x6160, 0)
      ∧ lookupPlatform Cfg.tc1.platforms (.name (bytes "Example Board A rev2")) = (0x6160, 0)
      ∧ lookupPlatform Cfg.tc1.platforms (.name (bytes "Example Board C2")) = (0, 0)
      ∧ lookupPlatform Cfg.tc1.platforms (.name (bytes "example board A")) = (0, 0) := by decide +kernel

/-- No binding; a pair (0, 0); a pair to write, both ways to select the page. -/
theorem witness_ConfigLedWritesThePair :
    ((bound 1).profile? = some Tc1.profileL ∧ Tc1.profileL.init.bind InitBinding.led = none)
      ∧ (onBoard (bound 3) .unavailable).ledPair = (0, 0) ∧ (bound 3).ledPair = (0x6160, 0)
      ∧ (onBoard (bound 2) (.name (bytes "Example Board C"))).ledPair = (0x0a10, 0x0002)
      ∧ (Tc1.profileF.init.bind InitBinding.led).map (·.select) = some (.single 0x0d04)
      ∧ (Tc1.profileE.init.bind InitBinding.led).map (·.select) = some (.twoStep 0x0007 0x001e 0x002c)
      ∧ storesAt Cfg.tc1 0x0d04 0x0010 = true ∧ storesAt Cfg.tc1 0x0d04 0x0011 = true
      ∧ storesAt Cfg.tc1 0x0007 0x001e = true := by decide +kernel

/-- Not yet derived, derived, and no binding. -/
theorem witness_LedProfileIsDerivedOnce :
    ((bound 3).profile? = some Tc1.profileF ∧ (bound 3).core.led = none ∧ reaches .configLed (bound 3) (fun _ => true))
      ∧ reaches .configLed ((bound 3).setLed (0x6160, 0)) (fun t => t.core.led == some (0x6160, 0))
      ∧ (Tc1.profileL.init.bind InitBinding.led = none ∧ reaches .configLed (bound 1) (fun _ => true)) :=
  ⟨⟨by decide +kernel, rfl, _, rfl, rfl⟩, ⟨_, rfl, by decide +kernel⟩, by decide +kernel, _, rfl, rfl⟩

/-- The first and the last write of the sequence. -/
theorem witness_LedFailureStopsAndRestores :
    (bound 3).profile? = some Tc1.profileF ∧ (bound 3).ledPair ≠ (0, 0)
      ∧ ((Tc1.profileF.init.bind InitBinding.led).map fun l => ledWrites Cfg.tc1 l (0x6160, 0))
        = some [(0x001f, 0x0d04), (0x0010, 0x6160), (0x0011, 0)]
      ∧ (chip 3 [] [] [.err 1 true]).busAhead 0 = .err 1 true
      ∧ BusOk (chip 3 [] [] [.ok, .ok, .err 3 false]) 0 2
      ∧ (chip 3 [] [] [.ok, .ok, .err 3 false]).busAhead 2 = .err 3 false := by unfold BusOk; decide +kernel

theorem witness_UnavailablePlatformWritesNothing :
    (onBoard (bound 3) .unavailable).profile? = some Tc1.profileF ∧ (onBoard (bound 3) .unavailable).core.led = none
      ∧ (onBoard (bound 3) .unavailable).platformAhead = .unavailable := by decide +kernel

/-- No init binding; one, with a pair to write and with the pair (0, 0). -/
theorem witness_InitRunsTimingThenLed :
    ((bound 0).profile? = some Tc1.profileB ∧ Tc1.profileB.init = none)
      ∧ (bound 3).profile? = some Tc1.profileF ∧ Tc1.profileF.init.isSome = true ∧ Cfg.tc1.accepted = true
      ∧ (bound 3).ledPair ≠ (0, 0) ∧ (onBoard (bound 3) .unavailable).ledPair = (0, 0)
      ∧ BusOk (bound 3) 0 11 := by unfold BusOk; decide +kernel

/-- CONFIG_TIMING fails; both commands succeed. -/
theorem witness_InitIsTimingThenLed :
    (∃ t, exec (.configTiming .rgmii) (chip 3 [] [] [.ok, .err 2 false, .ok]) = .next t
        ∧ t.lastResult = some (.busError 2))
      ∧ ∃ t u, exec (.configTiming .rgmii) (bound 3) = .next t ∧ t.lastResult = some .ok
        ∧ exec .configLed t = .next u ∧ u.lastResult = some .ok :=
  ⟨⟨_, rfl, by decide +kernel⟩, ⟨_, _, rfl, by decide +kernel, rfl, by decide +kernel⟩⟩

/-- No assist write, and one. -/
theorem witness_SuspendWritesThenCalls :
    ((bound 3).profile? = some Tc1.profileF ∧ Tc1.profileF.suspend = none ∧ (bound 3).genericAhead.error = none)
      ∧ ((bound 1).profile? = some Tc1.profileL ∧ Tc1.profileL.suspend = some ⟨0x000e, 0x0200⟩
        ∧ (bound 1).genericAhead.error = none ∧ (bound 1).busAhead 0 = .ok) ∧ Cfg.tc1.accepted = true := by decide +kernel

theorem witness_ResumeCallsThenWrites :
    ((bound 0).profile? = some Tc1.profileB ∧ Tc1.profileB.resume = none ∧ (bound 0).genericAhead.error = none)
      ∧ ((bound 1).profile? = some Tc1.profileL ∧ Tc1.profileL.resume = some ⟨0x000e, 0x0000⟩
        ∧ (bound 1).genericAhead.error = none ∧ (bound 1).busAhead 0 = .ok) ∧ Cfg.tc1.accepted = true := by decide +kernel

theorem witness_SuspendAndResumeStopAtTheFirstFailure :
    ((chip 1 [] [] [.err 1 true]).profile? = some Tc1.profileL ∧ Tc1.profileL.suspend = some ⟨0x000e, 0x0200⟩
        ∧ (chip 1 [] [] [.err 1 true]).busAhead 0 = .err 1 true)
      ∧ (Tc1.profileF.suspend = none
        ∧ (onGeneric (bound 3) { error := some 7, left := [] }).genericAhead.error = some 7)
      ∧ ((onGeneric (bound 1) { error := some 7, left := [] }).busAhead 0 = .ok
        ∧ (onGeneric (bound 1) { error := some 7, left := [] }).genericAhead.error = some 7)
      ∧ Tc1.profileL.resume = some ⟨0x000e, 0x0000⟩ ∧ (chip 1 [] [] [.err 1 true]).genericAhead.error = none := by
  decide +kernel

/-- Every clause of the invariant holds on it, with something in each store. -/
theorem witness_StepKeepsTheInvariant :
    (chip 3 [(0x0000, 0x1140)] [(locKey 0 0x0013, 0x0400)] oks).Inv
      ∧ ∃ t, step (chip 3 [(0x0000, 0x1140)] [(locKey 0 0x0013, 0x0400)] oks) = .next t := by
  refine ⟨{
    bankWf := by decide
    flatWf := by decide
    pendingWf := by decide
    bankBanked := ?_
    flatUnbanked := ?_
    pendingAtStatus := ?_
    accepted := by decide
    boundInTable := ?_
    ledBound := fun h => absurd rfl h
    indexCounts := rfl
    refusedLogged := ?_
    platformOnce := rfl
    intrLogged := rfl }, _, rfl⟩
  · intro c hc
    obtain rfl := List.mem_singleton.mp hc
    exact ⟨0, 0, by decide, rfl⟩
  · intro c hc; cases hc
  · intro c hc
    obtain rfl := List.mem_singleton.mp hc
    exact ⟨0, 0x0013, by decide, rfl⟩
  · rintro i ⟨⟩
    decide
  · constructor
    · intro h
      cases h
    · rintro ⟨_, _, h⟩
      cases h

/-- A command that ends with PS at 0, and one whose restore is lost. -/
theorem witness_OnlyALostRestoreStrandsThePage :
    (bound 3).cfg.accepted = true ∧ (bound 3).PsClean
      ∧ reaches (.readPaged 0x0a42 0x0012) (bound 3) (fun t => t.dev.ps == 0)
      ∧ reaches (.readPaged 0x0a42 0x0012) (chip 3 [] [] [.ok, .ok, .err 3 false]) (fun t => t.dev.ps == 0x0a42) :=
  ⟨by decide, rfl, ⟨_, rfl, by decide +kernel⟩, ⟨_, rfl, by decide +kernel⟩⟩

/-- A run of one command from reset. -/
theorem witness_PsIsZeroAtEveryBoundary :
    ∃ t, (State.resetWith 0 Cfg.tc1).cfg.accepted = true ∧ (State.resetWith 0 Cfg.tc1).PsClean
      ∧ CleanRun (State.resetWith 0 Cfg.tc1) t ∧ t.core.bound = some 3 := by
  refine ⟨finish (encode (.resolve 0x001cc916)) (resolveRule 0x001cc916 (State.resetWith 0 Cfg.tc1)), by decide, rfl,
    .step (.hosts [0x10000000001CC916] (.start _)) ?_ rfl ?_, by decide +kernel⟩
  · intro w rest v hw hd
    injection hw with hw _
    rw [← hw, show decode 0x10000000001CC916 = some (.resolve 0x001cc916) from by decide] at hd
    cases hd
  · rintro ⟨l, e, w, r, h, -⟩
    have hl : (finish (encode (.resolve 0x001cc916)) (resolveRule 0x001cc916 (State.resetWith 0 Cfg.tc1))).log.length = 1 := by
      decide +kernel
    rw [h] at hl
    simp at hl
    omega

/-- A plain WRITE of page 0 that fails and takes no effect is no lost restore: R254 admits the step. -/
theorem test_plainWrite_is_no_lost_restore :
    ∃ t, exec (.write 0x001f 0x0000) (chip 3 [] [] [.err 1 false]) = .next t ∧ t.dev.ps = 0x0000
      ∧ ¬ RestoreLost (chip 3 [] [] [.err 1 false]) t := by
  refine ⟨_, rfl, by decide +kernel, ?_⟩
  rintro ⟨l, e, w, r, hl, -, hw⟩
  have h : some (Ev.cmd (encode (.write 0x001f 0x0000)) (.busError 1)) = some (.cmd w r) := by
    have := congrArg List.getLast? hl
    rw [List.getLast?_append] at this
    exact this
  cases h
  exact hw 0x001f 0x0000 (by decide +kernel)

/-- Two chips, each with a step to take. -/
theorem witness_InstancesAreIndependent :
    0 ≠ 1 ∧ (∃ z, System.stepAt 0 (System.start 2 Cfg.tc1) = .next z ∧ ∃ x, System.stepAt 1 z = .next x)
      ∧ (System.start 2 Cfg.tc1).length = 2 := ⟨by decide, ⟨_, rfl, _, rfl⟩, rfl⟩

end Sys2Proof.Tests
end

/-! # What a command keeps, and when it is refused (10_state.md R24, R29, R42)

A command either is refused, which only sets the mark, or runs its rule, which keeps its place in the stream, the
configuration and the mark, and whose result is no refusal. It is said once for every rule (`RuleOutcome`) and carried
to `exec` and to `step`. -/

namespace Sys2Proof.Machine

/-! ## What a rule that runs keeps -/

/-- What no run of steps changes: the configuration, the place in the stream, the chip and the mark. -/
structure RuleKeeps (s t : State) : Prop where
  cfg : t.cfg = s.cfg
  commands : t.commands = s.commands
  chip : t.draws.chip = s.draws.chip
  index : t.index = s.index
  refused : t.core.refused = s.core.refused

theorem RuleKeeps.refl (s : State) : RuleKeeps s s := ⟨rfl, rfl, rfl, rfl, rfl⟩

theorem RuleKeeps.trans {s t u : State} (h1 : RuleKeeps s t) (h2 : RuleKeeps t u) : RuleKeeps s u where
  cfg := h2.cfg.trans h1.cfg
  commands := h2.commands.trans h1.commands
  chip := h2.chip.trans h1.chip
  index := h2.index.trans h1.index
  refused := h2.refused.trans h1.refused

theorem Tx.ruleKeeps {n : Nat} {rs qs : List (Reg × Reg)} {s t : State} (h : Tx n rs qs s t) : RuleKeeps s t :=
  ⟨h.cfg, h.commands, h.chip, h.index, congrArg CoreState.refused h.core⟩

theorem Runs.ruleKeeps {α : Type} {n : Nat} {m : Run α} (h : Runs n m) (s : State) : RuleKeeps s (m s).2 := by
  obtain ⟨rs, qs, l, hran, -⟩ := h s
  exact hran.tx.ruleKeeps

theorem setIntr_ruleKeeps (s : State) (x : IntrState) : RuleKeeps s (s.setIntr x) := ⟨rfl, rfl, rfl, rfl, rfl⟩

theorem setBound_ruleKeeps (s : State) (i : Nat) : RuleKeeps s (s.setBound i) := ⟨rfl, rfl, rfl, rfl, rfl⟩

theorem genericCall_ruleKeeps (kind : GenKind) (s : State) : RuleKeeps s (genericCall kind s).2 := by
  have h := afterGeneric_frame s
  rw [genericCall_eq]
  exact ⟨h.cfg, h.commands, h.chip, h.index, congrArg CoreState.refused h.core⟩

theorem ledProfile_ruleKeeps (s : State) : RuleKeeps s (ledProfile s).2 := by
  obtain ⟨-, hcore, -, -, hcfg, hcommands, hindex, hchip, -, -⟩ := ledProfile_eq s
  exact ⟨hcfg, hcommands, hchip, hindex, by rw [hcore]⟩

theorem ledSteps_ruleKeeps (l : LedBinding) (pair : Reg × Reg) (s : State) : RuleKeeps s (ledSteps l pair s).2 := by
  obtain ⟨ls, evs, hran, -⟩ := ran_ledSteps l pair s
  exact hran.tx.ruleKeeps

theorem ledBody_ruleKeeps (q : Profile) (s : State) : RuleKeeps s (ledBody q s).2 := by
  unfold ledBody
  cases q.init.bind InitBinding.led with
  | none => exact .refl s
  | some l =>
    have hpair := ledProfile_ruleKeeps s
    dsimp only
    split
    · exact hpair
    · exact hpair.trans (ledSteps_ruleKeeps l _ _)

/-! ## The outcome of a rule -/

/-- The two ways a rule ends: refused (R215), or run to a result that is no refusal. -/
inductive RuleOutcome (s : State) : Result × State → Prop where
  | refused (r : Reason) : RuleOutcome s (refuse r s)
  | ran {res : Result} {t : State} (hres : ∀ r, res ≠ .refuse r) (hkeeps : RuleKeeps s t) : RuleOutcome s (res, t)

theorem Reply.result_ne_refuse (x : Reply Unit) (r : Reason) : x.result ≠ .refuse r := by cases x <;> simp [Reply.result]

theorem Reply.valueResult_ne_refuse (x : Reply Reg) (r : Reason) : x.valueResult ≠ .refuse r := by
  cases x <;> simp [Reply.valueResult]

/-- A rule whose result is the reply of its one run. -/
theorem RuleOutcome.ofReply {x : Reply Unit} {s t : State} (h : RuleKeeps s t) : RuleOutcome s (x.result, t) :=
  .ran x.result_ne_refuse h

/-- A rule whose result is the value its one run read. -/
theorem RuleOutcome.ofValueReply {x : Reply Reg} {s t : State} (h : RuleKeeps s t) : RuleOutcome s (x.valueResult, t) :=
  .ran x.valueResult_ne_refuse h

/-- R142: `RESOLVE` is refused only when it would bind again. -/
theorem resolveRule_outcome (id : Ident) (s : State) : RuleOutcome s (resolveRule id s) := by
  unfold resolveRule
  cases s.core.bound with
  | some i => exact .refused .rebind
  | none =>
    cases resolveIndex s.cfg.profiles id with
    | some i => exact .ran (by simp) (setBound_ruleKeeps s i)
    | none => exact .ran (by simp) (.refl s)

theorem configIntrRule_outcome (en : Bool) (q : Profile) (s : State) : RuleOutcome s (configIntrRule en q s) := by
  unfold configIntrRule
  cases q.intrEnable with
  | none => exact .ran (by simp) (setIntr_ruleKeeps s _)
  | some b =>
    have hrun := (runs_accessAt b.page (runs_memWrite b.reg (ierValue b en))).ruleKeeps s
    dsimp only
    split <;> rename_i heq <;> rw [heq] at hrun
    · exact .ran (by simp) (hrun.trans (setIntr_ruleKeeps _ _))
    · exact .ran (by simp) hrun

theorem ackIntrRule_outcome (q : Profile) (s : State) : RuleOutcome s (ackIntrRule q s) := by
  unfold ackIntrRule
  cases q.intrAck with
  | none => exact .ran (by simp) (.refl s)
  | some b =>
    have hrun := (runs_accessAt b.page (runs_memRead b.reg)).ruleKeeps s
    dsimp only
    split <;> rename_i heq <;> rw [heq] at hrun <;> exact .ran (by simp) hrun

theorem initRule_outcome (mode : IfMode) (q : Profile) (s : State) : RuleOutcome s (initRule mode q s) := by
  unfold initRule
  cases q.init with
  | none => exact .ran (by simp) (.refl s)
  | some b =>
    have htiming := (runs_timingBody q mode).ruleKeeps s
    dsimp only
    split <;> rename_i heq <;> rw [heq] at htiming
    · exact .ran (by simp) htiming
    · exact .ran (by simp) (htiming.trans (ledBody_ruleKeeps q _))

theorem suspendRule_outcome (q : Profile) (s : State) : RuleOutcome s (suspendRule q s) := by
  have hassist := (runs_assistWrite q.suspend).ruleKeeps s
  unfold suspendRule
  split <;> rename_i heq <;> rw [heq] at hassist
  · exact .ran (by simp) hassist
  · rename_i s'
    have hcall := hassist.trans (genericCall_ruleKeeps .suspend s')
    split <;> rename_i heq' <;> rw [heq'] at hcall <;> exact .ran (by simp) hcall

theorem resumeRule_outcome (q : Profile) (s : State) : RuleOutcome s (resumeRule q s) := by
  have hcall := genericCall_ruleKeeps .resume s
  unfold resumeRule
  split <;> rename_i heq <;> rw [heq] at hcall
  · exact .ran (by simp) hcall
  · exact .ofReply (hcall.trans ((runs_assistWrite q.resume).ruleKeeps _))

/-! ## The outcome of a command and of a step -/

/-- The command ends in a state that one of the two outcomes and the end of a command give. -/
def Finishes (w : Word) (s : State) (o : Host.Outcome State Fault Refusal) : Prop :=
  ∃ p, o = .next (finish w p) ∧ RuleOutcome s p

/-- R110 step 2: a command that needs a bound profile is refused, or ends as its rule does. -/
theorem boundCommand_finishes {i : Instr} {rule : Profile → State → Result × State} {s : State}
    (h : ∀ q, RuleOutcome s (rule q s)) : Finishes (encode i) s (boundCommand i rule s) := by
  cases hp : s.profile? with
  | none => exact ⟨refuse .unbound s, by rw [boundCommand, hp], .refused .unbound⟩
  | some q => exact ⟨rule q s, boundCommand_eq hp, h q⟩

/-- R114 and R115: a paged command is refused without its binding, or ends as its access does. -/
theorem pagedRule_outcome {s : State} {p : Result × State} (binding : Bool) (h : RuleOutcome s p) :
    RuleOutcome s (if binding then p else refuse .noPagedBinding s) := by
  cases binding with
  | true => exact h
  | false => exact .refused .noPagedBinding

theorem exec_finishes (i : Instr) (s : State) : Finishes (encode i) s (exec i s) := by
  cases i with
  | read a =>
    rw [exec, execRead]
    refine boundCommand_finishes fun _ => ?_
    exact .ofValueReply ((runs_memRead a).ruleKeeps s)
  | write a v =>
    rw [exec, execWrite]
    refine boundCommand_finishes fun _ => ?_
    exact .ofReply ((runs_memWrite a v).ruleKeeps s)
  | readPaged page a =>
    rw [exec, execReadPaged]
    refine boundCommand_finishes fun q => pagedRule_outcome q.pagedRead ?_
    exact .ofValueReply ((runs_pagedAccess page (runs_memRead a)).ruleKeeps s)
  | writePaged page a v =>
    rw [exec, execWritePaged]
    refine boundCommand_finishes fun q => pagedRule_outcome q.pagedWrite ?_
    exact .ofReply ((runs_pagedAccess page (runs_memWrite a v)).ruleKeeps s)
  | resolve id => exact ⟨resolveRule id s, rfl, resolveRule_outcome id s⟩
  | configIntr en => exact boundCommand_finishes fun q => configIntrRule_outcome en q s
  | ackIntr => exact boundCommand_finishes fun q => ackIntrRule_outcome q s
  | init mode => exact boundCommand_finishes fun q => initRule_outcome mode q s
  | configTiming mode =>
    rw [exec, execConfigTiming]
    refine boundCommand_finishes fun q => ?_
    exact .ofReply ((runs_timingBody q mode).ruleKeeps s)
  | configLed =>
    rw [exec, execConfigLed]
    refine boundCommand_finishes fun q => ?_
    exact .ofReply (ledBody_ruleKeeps q s)
  | suspend => exact boundCommand_finishes fun q => suspendRule_outcome q s
  | resume => exact boundCommand_finishes fun q => resumeRule_outcome q s

/-- With no word issued a step changes nothing. -/
theorem step_idle {s : State} (h : s.commands = []) : step s = .next s := by simp [step, fetch, h]

/-- A step with a word issued takes it, and is refused or runs the rule of the command it decodes to. -/
theorem step_finishes {s : State} {w : Word} {rest : List Word} (h : s.commands = w :: rest) :
    ∃ w', Finishes w' { s with commands := rest } (step s) := by
  cases hd : decode w with
  | none => exact ⟨w, _, by simp [step, fetch, h, hd, illegalCommand], .refused .illegalCommand⟩
  | some i =>
    have hstep : step s = exec i { s with commands := rest } := by simp [step, fetch, h, hd]
    exact ⟨encode i, hstep ▸ exec_finishes i _⟩

/-! ## What an outcome leaves at the end of the command -/

theorem RuleOutcome.commandFrame {s : State} {p : Result × State} (h : RuleOutcome s p) (w : Word) :
    CommandFrame s (finish w p) := by
  cases h with
  | refused r => exact commandFrame_finish rfl rfl rfl rfl
  | ran hres hkeeps => exact commandFrame_finish hkeeps.cfg hkeeps.commands hkeeps.chip hkeeps.index

/-- R24: the mark afterwards is the mark before, or a refusal's. -/
theorem RuleOutcome.refused_iff {s : State} {p : Result × State} (h : RuleOutcome s p) :
    p.2.core.refused = true ↔ s.core.refused = true ∨ ∃ r, p.1 = .refuse r := by
  cases h with
  | refused r => simp [refuse]
  | ran hres hkeeps => simp [hkeeps.refused, hres]

/-! ## The statements -/

theorem step_cfg {s t : State} (h : step s = .next t) : t.cfg = s.cfg := by
  cases hc : s.commands with
  | nil =>
    rw [step_idle hc] at h
    cases h
    rfl
  | cons w rest =>
    obtain ⟨w', p, hp, hout⟩ := step_finishes hc
    cases hp.symm.trans h
    exact (hout.commandFrame w').1

/-- Settles O11: no rule writes the configuration, and both tables are fields of it. -/
theorem noCommandWritesTheTables : Obligations.NoCommandWritesTheTables := by
  intro s t h
  rw [step_cfg h]
  exact ⟨rfl, rfl⟩

/-- Settles O14: a refusal sets the mark, and a rule that runs keeps it and gives no refusal as its result. -/
theorem refusedMarkIsSticky : Obligations.RefusedMarkIsSticky := by
  refine ⟨rfl, fun s t hne h => ?_⟩
  obtain ⟨w, rest, hc⟩ := List.exists_cons_of_ne_nil hne
  obtain ⟨w', p, hp, hout⟩ := step_finishes hc
  cases hp.symm.trans h
  simpa using hout.refused_iff

end Sys2Proof.Machine

/-! # One transaction, and several instances (20_memory.md R54, R55, R58, R66)

A transaction begins with the device's own event, which sets pending bits only; a write to the page-select address sets
PS alone; one that fails took its effect or not. A step of one chip writes that chip alone. -/

namespace Sys2Proof.Machine

/-! ## The device's own event (R58) -/

/-- Beyond the draw of the event itself, the device's event changes pending bits and value draws only. -/
theorem deviceActs_frame (s : State) : PendingOnly s.drawEvent.2 (deviceActs s) := by
  rw [deviceActs_eq]
  exact (deviceSets_foldl _ _).1

theorem deviceActs_pendingCell_status {s : State} {p a v : Reg} (hs : s.cfg.isStatus p a = true)
    (hv : s.pendingCell p a = some v) :
    (deviceActs s).pendingCell p a = some (v ||| eventBits (s.eventAhead 0) p a) := by
  rw [deviceActs_eq]
  exact deviceSets_bits _ (s := s.drawEvent.2) hs hv

/-- Settles O26: the event's entries set exactly their bits at a status location, by induction on the event
(`deviceSets_bits`), and nothing at any other; the rest is the event's frame. -/
theorem deviceOnlySetsPendingBits : Obligations.DeviceOnlySetsPendingBits := by
  intro s
  have hframe := deviceActs_frame s
  exact ⟨fun _ _ _ hs hv => deviceActs_pendingCell_status hs hv, fun _ _ hs => deviceActs_pendingCell_other hs,
    hframe.ps, hframe.bank, hframe.flat, hframe.core, hframe.log⟩

/-! ## A write to the page-select address (R55) -/

/-- A banked address reaches the bank of the current page, whatever the page (R51). -/
theorem locAt_of_isBanked {c : Cfg} {a : Reg} (page : Reg) (h : c.isBanked a = true) :
    locAt c page a = .bank page a := by
  have hne : a ≠ c.pageSel := by
    intro ha
    simp [Cfg.isBanked, ha] at h
  rw [locAt, if_neg hne, if_pos h]

/-- Settles O27: the write's location is the page-select register, so its transaction touches no bank, and `locAt` at
the new PS gives the page written. -/
theorem pageSelectWriteSetsPs : Obligations.PageSelectWriteSetsPs := by
  intro s v hok
  have htx := memWrite_tx s s.cfg.pageSel v
  have hps : (memWrite s.cfg.pageSel v s).2.dev.ps = v := by simp [memWrite_ps, hok]
  refine ⟨by simp [memWrite_fst, hok], hps, fun a ha => ?_, fun p a => htx.regs.1 p a (by simp)⟩
  rw [State.loc, hps, htx.cfg]
  exact locAt_of_isBanked v ha

/-! ## A transaction that fails (R54) -/

/-- A failed read clears no more than the status location it reached. -/
theorem memRead_err_tx {s : State} (a : Reg) {e : BusErr} {took : Bool} (h : s.busAhead 0 = .err e took) :
    Tx 1 [] [(s.dev.ps, a)] s (memRead a s).2 := by
  have htx := memRead_tx s a
  rw [if_neg (by simp [h])] at htx
  exact htx.mono (by simp) fun l hl => by simp [ackedAt_sub _ _ _ l hl]

/-- A failed read that took its effect leaves no pending bits at its status location. -/
theorem memRead_err_clears {s : State} {a p b : Reg} {e : BusErr} (h : s.busAhead 0 = .err e true)
    (hl : locAt s.cfg s.dev.ps a = .bank p b) (hs : s.cfg.isStatus p b = true) :
    (memRead a s).2.pendingCell p b = some 0x0000 := by
  have hturn := turn_frame s
  have hloc : s.turn.loc a = .bank p b := by rw [State.loc, hturn.cfg, hturn.ps, hl]
  rw [memRead_err a h, if_pos rfl, failedReadEffect_status hloc (by rw [hturn.cfg, hs])]
  simp [State.pendingCell]

/-- Settles O28: a failed write with its effect leaves what `WriteDone` says, as a successful one does; without it, and
in a failed read but for the pending bits cleared, no register is touched. -/
theorem failedTransactionTookEffectOrNot : Obligations.FailedTransactionTookEffectOrNot := by
  intro s a v e took h
  have hread := memRead_err_tx a h
  refine ⟨by simp [memWrite_fst, h], memRead_fst_err h, by simp [memWrite_ps, h], ?_, ?_, memRead_ps s a, hread.regs,
    ?_, ?_⟩
  · rintro rfl
    exact (memWrite_cell a v (by simp [h])).writeDone (memWrite_tx s a v)
  · rintro rfl
    have hlost := memWrite_tx_lost a v (s := s) (by simp [h])
    exact ⟨hlost.regs, hlost.pending⟩
  · rintro rfl
    exact (memRead_tx_lost a h).pending
  · rintro rfl
    exact ⟨hread.pending, fun _ _ hl hs => memRead_err_clears h hl hs⟩

/-! ## Steps of several instances (R66) -/

theorem System.stepAt_of_none {y : System} {k : Nat} (h : y[k]? = none) : System.stepAt k y = .next y := by
  simp [System.stepAt, h]

theorem System.stepAt_of_some {y : System} {k : Nat} {s s' : State} (h : y[k]? = some s) (hs : step s = .next s') :
    System.stepAt k y = .next (y.set k s') := by
  simp [System.stepAt, h, hs]

/-- What a step at a number can do: nothing where there is no chip, else the step of that chip. -/
theorem System.stepAt_cases {y z : System} {k : Nat} (h : System.stepAt k y = .next z) :
    (y[k]? = none ∧ z = y) ∨ ∃ s s', y[k]? = some s ∧ step s = .next s' ∧ z = y.set k s' := by
  cases hk : y[k]? with
  | none =>
    rw [System.stepAt_of_none hk] at h
    cases h
    exact .inl ⟨rfl, rfl⟩
  | some s =>
    cases hs : step s with
    | next s' =>
      rw [System.stepAt_of_some hk hs] at h
      cases h
      exact .inr ⟨s, s', rfl, hs, rfl⟩
    | fault r => simp [System.stepAt, hk, hs] at h
    | refused r => simp [System.stepAt, hk, hs] at h

theorem System.stepAt_other {y z : System} {j k : Nat} (hne : j ≠ k) (h : System.stepAt j y = .next z) :
    z[k]? = y[k]? := by
  obtain ⟨-, rfl⟩ | ⟨s, s', -, -, rfl⟩ := System.stepAt_cases h
  · rfl
  · exact List.getElem?_set_ne hne

theorem System.stepAt_comm {x y z : System} {j k : Nat} (hne : j ≠ k) (hj : System.stepAt j y = .next z)
    (hk : System.stepAt k z = .next x) : ∃ w, System.stepAt k y = .next w ∧ System.stepAt j w = .next x := by
  have hother := System.stepAt_other hne hj
  obtain ⟨hnone, rfl⟩ | ⟨s, s', hs, hstep, rfl⟩ := System.stepAt_cases hj
  · exact ⟨x, hk, System.stepAt_of_none ((System.stepAt_other hne.symm hk).trans hnone)⟩
  · obtain ⟨hnone, rfl⟩ | ⟨t, t', ht, hstep', rfl⟩ := System.stepAt_cases hk
    · exact ⟨y, System.stepAt_of_none (hother.symm.trans hnone), hj⟩
    · have hw : System.stepAt k y = .next (y.set k t') := System.stepAt_of_some (hother.symm.trans ht) hstep'
      refine ⟨y.set k t', hw, ?_⟩
      rw [List.set_comm _ _ hne]
      exact System.stepAt_of_some ((System.stepAt_other hne.symm hw).trans hs) hstep

/-- Settles O60: a step writes one place of the list, and writes at two places commute. -/
theorem instancesAreIndependent : Obligations.InstancesAreIndependent := by
  intro y z j k hne hj
  exact ⟨System.stepAt_other hne hj, fun _ hk => System.stepAt_comm hne hj hk⟩

end Sys2Proof.Machine

/-! # Words that are refused, and the pseudo-instructions (30_encoding.md R90, R91, R92, R96)

A word is refused as `IllegalCommand` when the decoder gives no command for it. Each of the three rules is then a
fact about the row the word would have to select. -/

namespace Sys2Proof

/-! ## An opcode outside the map (R90) -/

theorem opcodeTable_legal : ∀ r ∈ opcodeTable, opcodeField r.pattern ∈ legalOpcodes := by decide

theorem decode_of_illegalOpcode {w : Word} (h : opcodeField w ∉ legalOpcodes) : decode w = none :=
  decode_none fun r hr hsel => h (hsel.opcode hr ▸ opcodeTable_legal r hr)

/-! ## A nonzero reserved bit (R91) -/

/-- The masks outside the opcode are the reserved bits the formats leave. -/
theorem opcodeTable_reserved :
    ∀ r ∈ opcodeTable, (opcodeField r.pattern, r.mask &&& 0x00FFFFFFFFFFFFFF) ∈ reservedBits := by decide

/-- Outside the opcode a row's pattern is 0. -/
theorem opcodeTable_pattern_low : ∀ r ∈ opcodeTable, r.pattern &&& 0x00FFFFFFFFFFFFFF = 0 := by decide

/-- Each opcode has one entry of reserved bits. -/
theorem reservedBits_nodup : (reservedBits.map Prod.fst).Nodup := by decide

/-- A word that selects a row has 0 in the reserved bits of its opcode. -/
theorem OpRow.Selects.reserved_eq_zero {r : OpRow} {w : Word} {e : BitVec 8 × Word} (h : r.Selects w)
    (hr : r ∈ opcodeTable) (he : e ∈ reservedBits) (hop : opcodeField w = e.1) : w &&& e.2 = 0 := by
  have hentry : e = (opcodeField r.pattern, r.mask &&& 0x00FFFFFFFFFFFFFF) :=
    List.inj_on_of_nodup_map reservedBits_nodup he (opcodeTable_reserved r hr) (hop.symm.trans (h.opcode hr))
  calc w &&& e.2 = (w &&& r.mask) &&& 0x00FFFFFFFFFFFFFF := by rw [hentry, BitVec.and_assoc]
    _ = r.pattern &&& 0x00FFFFFFFFFFFFFF := by rw [h]
    _ = 0 := opcodeTable_pattern_low r hr

theorem decode_of_reservedBit {w : Word} {e : BitVec 8 × Word} (he : e ∈ reservedBits) (hop : opcodeField w = e.1)
    (hne : w &&& e.2 ≠ 0) : decode w = none :=
  decode_none fun _ hr hsel => hne (hsel.reserved_eq_zero hr he hop)

/-! ## A reserved mode code (R92) -/

theorem IfMode.code_lt (m : IfMode) : m.code.toNat < 5 := by cases m <;> decide

theorem IfMode.ofCode_eq_none {c : BitVec 8} (h : 5 ≤ c.toNat) : IfMode.ofCode c = none := by
  rw [Option.eq_none_iff_forall_ne_some]
  intro m hm
  have hlt := m.code_lt
  rw [IfMode.code_of_ofCode hm] at hlt
  omega

/-- The rows with INIT's and CONFIG_TIMING's opcode are the two that read a mode. -/
theorem opcodeTable_modeRows : ∀ r ∈ opcodeTable, opcodeField r.pattern = 0x30 ∨ opcodeField r.pattern = 0x31 →
    r.op = .init ∨ r.op = .configTiming := by decide

theorem decode_of_reservedMode {w : Word} (hop : opcodeField w = 0x30 ∨ opcodeField w = 0x31)
    (hmode : 5 ≤ (modeField w).toNat) : decode w = none := by
  by_cases hs : ∃ r ∈ opcodeTable, r.Selects w
  · obtain ⟨r, hr, hsel⟩ := hs
    rw [decode_of_selects hr hsel]
    rw [hsel.opcode hr] at hop
    obtain hinit | htiming := opcodeTable_modeRows r hr hop
    · simp [hinit, Opcode.instr, IfMode.ofCode_eq_none hmode]
    · simp [htiming, Opcode.instr, IfMode.ofCode_eq_none hmode]
  · exact decode_none fun r hr hsel => hs ⟨r, hr, hsel⟩

end Sys2Proof

namespace Sys2Proof.Machine

/-! ## The statements -/

/-- R110 step 1: a word that decodes to no command is refused, whatever is bound. -/
theorem step_of_decode_none {s : State} {w : Word} {rest : List Word} (hc : s.commands = w :: rest)
    (hd : decode w = none) : step s = .next (afterRefusal w .illegalCommand { s with commands := rest }) := by
  simp only [step, fetch, hc, hd]
  rfl

/-- Settles O3: every row's opcode is one of the twelve, so a word with another selects no row. -/
theorem illegalOpcodesAreRefused : Obligations.IllegalOpcodesAreRefused := by
  refine ⟨by decide +kernel, fun s w rest hc hop => ?_⟩
  have hd := decode_of_illegalOpcode hop
  exact ⟨hd, step_of_decode_none hc hd⟩

/-- Settles O4: outside the opcode a row's mask is its opcode's reserved bits and its pattern is 0, so a word with one of
them set selects no row. -/
theorem nonzeroReservedBitsAreRefused : Obligations.NonzeroReservedBitsAreRefused :=
  ⟨opcodeTable_reserved, fun _ _ _ _ hc he hop hne => step_of_decode_none hc (decode_of_reservedBit he hop hne)⟩

/-- Settles O5: the row such a word may select reads its mode, and no mode has a code of 5 or above. -/
theorem reservedModesAreRefused : Obligations.ReservedModesAreRefused :=
  fun _ _ _ hc hop hmode => step_of_decode_none hc (decode_of_reservedMode hop hmode)

/-- Settles O7: both lines and both words are closed terms. -/
theorem pseudoInstructionsExpand : Obligations.PseudoInstructionsExpand :=
  ⟨by decide, by decide, rfl, rfl, rfl⟩

end Sys2Proof.Machine

/-! # The paged access, outcome by outcome (40_register_access.md R111, R116, R117)

The operation of a paged access is one transaction, a read or a write. Each fact about the wrapper is proved once, for
every such operation. -/

namespace Sys2Proof.Machine

/-! ## Operations of one transaction (R54) -/

/-- The run is one transaction: it logs the event `ev` of its reply, and its reply fails exactly as the transport's
answer does. -/
structure OneTx {α : Type} (ev : Reply α → Ev) (op : Run α) : Prop where
  ran : ∀ s, ∃ rs qs, Ran rs qs [ev (op s).1] op s
  ok : ∀ s, s.busAhead 0 = .ok → ∃ x, (op s).1 = .ok x
  err : ∀ s e took, s.busAhead 0 = .err e took → (op s).1 = .err e

theorem oneTx_memRead (a : Reg) : OneTx (.busR a) (memRead a) where
  ran s := ⟨_, _, ran_memRead s a⟩
  ok _ h := memRead_fst_ok h
  err _ _ _ h := memRead_fst_err h

theorem oneTx_memWrite (a v : Reg) : OneTx (.busW a v) (memWrite a v) where
  ran s := ⟨_, _, by rw [memWrite_fst]; exact ran_memWrite s a v⟩
  ok s h := ⟨(), by rw [memWrite_fst, h]; rfl⟩
  err s e took h := by rw [memWrite_fst, h]; rfl

/-- The select is one transaction: the answers ahead move by one. -/
theorem selectPage_busAhead (page : Reg) (s : State) (k : Nat) :
    (selectPage page s).2.busAhead k = s.busAhead (1 + k) := (ran_selectPage s page).tx.bus k

/-! ## The reply of `try … finally` (R12) -/

theorem tryFinally_fst_err {α : Type} {body : Run α} (fin : Run Unit) {s : State} {e : BusErr}
    (h : (body s).1 = .err e) : (tryFinally body fin s).1 = .err e := by
  rw [tryFinally_eq, h]

/-! ## The three outcomes of a paged access (R116) -/

section
variable {α : Type} {ev : Reply α → Ev} {op : Run α} {s : State} {page : Reg}

/-- A failed select gives the result, and the restore follows it. -/
theorem pagedAccess_of_select_err (op : Run α) {e : BusErr} {took : Bool} (h0 : s.busAhead 0 = .err e took) :
    (pagedAccess page op s).1 = .err e
      ∧ (pagedAccess page op s).2.log = s.log
        ++ [.busW s.cfg.pageSel page (.err e), .busW s.cfg.pageSel 0x0000 (answerReply (s.busAhead 1))] := by
  have hselect : (selectPage page s).1 = .err e := by rw [selectPage_fst, h0]; rfl
  exact ⟨tryFinally_fst_err _ (by rw [andThen_err hselect]), (ran_pagedAccess_err op h0).log⟩

/-- After a successful select the access is the operation and the restore, from the state the select leaves. -/
theorem pagedAccess_of_select_ok (op : Run α) (h0 : s.busAhead 0 = .ok) :
    pagedAccess page op s = tryFinally op restorePage (selectPage page s).2 := by
  have hselect : (selectPage page s).1 = .ok () := by rw [selectPage_fst, h0]; rfl
  rw [pagedAccess, tryFinally_eq, tryFinally_eq, andThen_ok hselect]

/-- After a successful select the operation's event stands between the two writes, whatever its reply. -/
theorem OneTx.pagedAccess_log (hop : OneTx ev op) (h0 : s.busAhead 0 = .ok) :
    (pagedAccess page op s).2.log = s.log ++ [okWrite (s.cfg.pageSel, page), ev (op (selectPage page s).2).1,
      .busW s.cfg.pageSel 0x0000 (answerReply (s.busAhead 2))] := by
  obtain ⟨rs, qs, hran⟩ := hop.ran (selectPage page s).2
  exact (ran_pagedAccess h0 hran).log

/-- A failed operation gives the result. -/
theorem OneTx.pagedAccess_of_op_err (hop : OneTx ev op) {e : BusErr} {took : Bool} (h0 : s.busAhead 0 = .ok)
    (h1 : s.busAhead 1 = .err e took) :
    (pagedAccess page op s).1 = .err e
      ∧ (pagedAccess page op s).2.log = s.log ++ [okWrite (s.cfg.pageSel, page), ev (.err e),
        .busW s.cfg.pageSel 0x0000 (answerReply (s.busAhead 2))] := by
  have hreply : (op (selectPage page s).2).1 = .err e :=
    hop.err _ e took (by rw [selectPage_busAhead]; exact h1)
  refine ⟨?_, by rw [hop.pagedAccess_log h0, hreply]⟩
  rw [pagedAccess_of_select_ok op h0]
  exact tryFinally_fst_err _ hreply

/-- With select and operation successful, the restore decides between the operation's value and the restore's error. -/
theorem OneTx.pagedAccess_of_op_ok (hop : OneTx ev op) (h0 : s.busAhead 0 = .ok) (h1 : s.busAhead 1 = .ok) :
    ∃ x, (pagedAccess page op s).1 = (match s.busAhead 2 with | .ok => .ok x | .err e _ => .err e)
      ∧ (pagedAccess page op s).2.log = s.log ++ [okWrite (s.cfg.pageSel, page), ev (.ok x),
        .busW s.cfg.pageSel 0x0000 (answerReply (s.busAhead 2))] := by
  obtain ⟨x, hreply⟩ := hop.ok (selectPage page s).2 (by rw [selectPage_busAhead]; exact h1)
  obtain ⟨rs, qs, hran⟩ := hop.ran (selectPage page s).2
  have hbus : (op (selectPage page s).2).2.busAhead 0 = s.busAhead 2 := by
    rw [hran.tx.bus, selectPage_busAhead]
    rfl
  refine ⟨x, ?_, by rw [hop.pagedAccess_log h0, hreply]⟩
  rw [pagedAccess_of_select_ok op h0, tryFinally_eq, hreply, restorePage_fst, hbus]
  cases s.busAhead 2 <;> rfl

/-! ## What PS holds afterwards (R117) -/

/-- The restore leaves page 0 where it landed, else what the select and, if it ran, the operation left. -/
theorem OneTx.pagedAccess_ps (hop : OneTx ev op) :
    (pagedAccess page op s).2.dev.ps =
      if landed (s.busAhead (if s.busAhead 0 = .ok then 2 else 1)) then 0x0000
      else if s.busAhead 0 = .ok then (op (selectPage page s).2).2.dev.ps else (selectPage page s).2.dev.ps := by
  rw [Machine.pagedAccess_ps]
  cases h0 : s.busAhead 0 with
  | ok =>
    obtain ⟨rs, qs, hran⟩ := hop.ran (selectPage page s).2
    have hbody := andThen_ok (f := fun _ => op) (show (selectPage page s).1 = .ok () by rw [selectPage_fst, h0]; rfl)
    rw [(ran_selectThen h0 hran).tx.bus 0, hbody]
    rfl
  | err e took =>
    have hbody := andThen_err (f := fun _ => op) (show (selectPage page s).1 = .err e by rw [selectPage_fst, h0]; rfl)
    rw [(ran_selectThen_err op h0).tx.bus 0, hbody]
    rfl

end

/-! ## The statements -/

/-- Settles O33: the read and the write are each one transaction, and the three cases are those of the select and of the
operation. -/
theorem pagedAccessOutcomes : Obligations.PagedAccessOutcomes := by
  intro s page a v
  have hread := oneTx_memRead a
  have hwrite := oneTx_memWrite a v
  refine ⟨fun h0 h1 => ?_, fun e took h0 => ?_, fun e took h0 h1 => ?_⟩
  · obtain ⟨_, hwr, hwrLog⟩ := hwrite.pagedAccess_of_op_ok (page := page) h0 h1
    refine ⟨hread.pagedAccess_of_op_ok h0 h1, ?_, hwrLog⟩
    rw [hwr]
    cases s.busAhead 2 <;> rfl
  · obtain ⟨hrd, hrdLog⟩ := pagedAccess_of_select_err (page := page) (memRead a) h0
    obtain ⟨hwr, hwrLog⟩ := pagedAccess_of_select_err (page := page) (memWrite a v) h0
    exact ⟨hrd, hwr, hrdLog, hwrLog⟩
  · obtain ⟨hrd, hrdLog⟩ := hread.pagedAccess_of_op_err (page := page) h0 h1
    obtain ⟨hwr, hwrLog⟩ := hwrite.pagedAccess_of_op_err (page := page) h0 h1
    exact ⟨hrd, hwr, hrdLog, hwrLog⟩

/-- Settles O34: where the restore did not land, a read keeps the page of the select, and a write changes it only if it
ran, landed and was to the page-select address. -/
theorem pagedAccessRestoresPageZero : Obligations.PagedAccessRestoresPageZero := by
  intro s page a v
  have hcfg : (selectPage page s).2.cfg = s.cfg := (ran_selectPage s page).tx.cfg
  refine ⟨?_, ?_⟩
  · simp only [(oneTx_memRead a).pagedAccess_ps, memRead_ps, selectPage_ps, ite_self]
  · simp only [(oneTx_memWrite a v).pagedAccess_ps, memWrite_ps, selectPage_ps, selectPage_busAhead, hcfg]
    cases s.busAhead 0 with
    | ok => simp [and_comm]
    | err e took => simp

end Sys2Proof.Machine

/-! # RESOLVE and the profile table (41_profile_table.md R141, R142, R151)

The match of one profile, the first match in the table, and the three ways RESOLVE ends are each said once. Every other
command leaves `Bound` as it is. -/

namespace Sys2Proof

/-! ## The match of one profile (R141) -/

theorem Profile.matchesId_iff {p : Profile} {x : Ident} : p.matchesId x = true ↔ x &&& p.mask = p.id &&& p.mask :=
  beq_iff_eq

theorem Profile.matchesId_eq_false_iff {p : Profile} {x : Ident} :
    p.matchesId x = false ↔ x &&& p.mask ≠ p.id &&& p.mask :=
  beq_eq_false_iff_ne

/-- Of the identity only the bits in the mask count. -/
theorem Profile.matchesId_congr {p : Profile} {x y : Ident} (h : x &&& p.mask = y &&& p.mask) :
    p.matchesId x = p.matchesId y := by
  rw [matchesId, matchesId, h]

/-- Of the profile's own `id`, too, only the bits in the mask count. -/
theorem Profile.matchesId_withId {p : Profile} {z : Ident} (x : Ident) (h : z &&& p.mask = p.id &&& p.mask) :
    { p with id := z }.matchesId x = p.matchesId x := by
  rw [matchesId, matchesId, h]

theorem Profile.matchesId_of_mask_zero {p : Profile} (x : Ident) (h : p.mask = 0x00000000) : p.matchesId x = true := by
  simp [matchesId_iff, h]

theorem Profile.matchesId_of_mask_allOnes {p : Profile} {x : Ident} (h : p.mask = 0xFFFFFFFF) :
    p.matchesId x = true ↔ x = p.id := by
  have hmask : p.mask = BitVec.allOnes 32 := h
  rw [matchesId_iff, hmask, BitVec.and_allOnes, BitVec.and_allOnes]

/-- Settles O17: the match compares the two masked values, so each clause is a fact about the mask. -/
theorem matchUsesTheMaskedBits : Obligations.MatchUsesTheMaskedBits := by
  intro p x y
  exact ⟨Profile.matchesId_iff, fun h => by rw [Profile.matchesId_congr h], fun _ => Profile.matchesId_withId x,
    Profile.matchesId_of_mask_zero x, Profile.matchesId_of_mask_allOnes⟩

/-! ## The first match in the table (R142) -/

theorem resolveIndex_eq_some_iff {ps : List Profile} {x : Ident} {i : Nat} :
    resolveIndex ps x = some i ↔
      (∃ p, ps[i]? = some p ∧ p.matchesId x = true)
        ∧ ∀ j q, j < i → ps[j]? = some q → q.matchesId x = false := by
  rw [resolveIndex, List.findIdx?_eq_some_iff_getElem]
  constructor
  · rintro ⟨hi, hmatch, hfirst⟩
    refine ⟨⟨ps[i], List.getElem?_eq_getElem hi, hmatch⟩, fun j q hj hq => ?_⟩
    obtain ⟨hlt, rfl⟩ := List.getElem?_eq_some_iff.mp hq
    simpa using hfirst j hj
  · rintro ⟨⟨p, hp, hmatch⟩, hfirst⟩
    obtain ⟨hi, rfl⟩ := List.getElem?_eq_some_iff.mp hp
    refine ⟨hi, hmatch, fun j hj => ?_⟩
    simp [hfirst j _ hj (List.getElem?_eq_getElem (hj.trans hi))]

theorem resolveIndex_eq_none_iff {ps : List Profile} {x : Ident} :
    resolveIndex ps x = none ↔ ∀ q ∈ ps, q.matchesId x = false :=
  List.findIdx?_eq_none_iff

end Sys2Proof

namespace Sys2Proof.Machine

/-! ## The three ways RESOLVE ends (R142) -/

theorem resolveRule_of_bound {id : Ident} {s : State} {b : Nat} (h : s.core.bound = some b) :
    resolveRule id s = refuse .rebind s := by
  rw [resolveRule, h]

theorem resolveRule_of_match {id : Ident} {s : State} {i : Nat} (h : s.core.bound = none)
    (hi : resolveIndex s.cfg.profiles id = some i) : resolveRule id s = (.okIndex i, s.setBound i) := by
  simp only [resolveRule, h, hi]

theorem resolveRule_of_noMatch {id : Ident} {s : State} (h : s.core.bound = none)
    (hi : resolveIndex s.cfg.profiles id = none) : resolveRule id s = (.notFound, s) := by
  simp only [resolveRule, h, hi]

theorem exec_resolve {id : Ident} {s : State} {p : Result × State} (h : resolveRule id s = p) :
    exec (.resolve id) s = .next (finish (encode (.resolve id)) p) := by
  rw [exec, execResolve, h]

/-- Settles O18: bound already, a first match, or no match at all; each is one outcome of the rule. -/
theorem resolveBindsTheFirstMatch : Obligations.ResolveBindsTheFirstMatch := by
  intro s id
  refine ⟨fun b hb => exec_resolve (resolveRule_of_bound hb), fun i p hnone hp hmatch hfirst => ?_,
    fun hnone hmiss => ?_⟩
  · have hi : resolveIndex s.cfg.profiles id = some i := resolveIndex_eq_some_iff.mpr
      ⟨⟨p, hp, Profile.matchesId_iff.mpr hmatch⟩,
        fun j q hj hq => Profile.matchesId_eq_false_iff.mpr (hfirst j q hj hq)⟩
    exact exec_resolve (resolveRule_of_match hnone hi)
  · have hi : resolveIndex s.cfg.profiles id = none :=
      resolveIndex_eq_none_iff.mpr fun q hq => Profile.matchesId_eq_false_iff.mpr (hmiss q hq)
    exact exec_resolve (resolveRule_of_noMatch hnone hi)

/-! ## No other rule writes `Bound` (R151) -/

theorem Runs.bound {α : Type} {n : Nat} {m : Run α} (h : Runs n m) (s : State) :
    (m s).2.core.bound = s.core.bound := by
  obtain ⟨rs, qs, l, hran, -⟩ := h s
  rw [hran.tx.core]

theorem genericCall_bound (kind : GenKind) (s : State) : (genericCall kind s).2.core.bound = s.core.bound := by
  rw [genericCall_eq]
  exact congrArg CoreState.bound (afterGeneric_frame s).core

theorem ledBody_bound (q : Profile) (s : State) : (ledBody q s).2.core.bound = s.core.bound := by
  unfold ledBody
  cases q.init.bind InitBinding.led with
  | none => rfl
  | some l =>
    have hpair : (ledProfile s).2.core.bound = s.core.bound := by
      obtain ⟨-, hcore, -⟩ := ledProfile_eq s
      rw [hcore]
    dsimp only
    split
    · exact hpair
    · obtain ⟨ls, evs, hran, -⟩ := ran_ledSteps l (ledProfile s).1 (ledProfile s).2
      exact (congrArg CoreState.bound hran.tx.core).trans hpair

theorem configIntrRule_bound (en : Bool) (q : Profile) (s : State) :
    (configIntrRule en q s).2.core.bound = s.core.bound := by
  unfold configIntrRule
  cases q.intrEnable with
  | none => rfl
  | some b =>
    have hwrite := (runs_accessAt b.page (runs_memWrite b.reg (ierValue b en))).bound s
    dsimp only
    split <;> rename_i heq <;> rw [heq] at hwrite <;> exact hwrite

theorem ackIntrRule_bound (q : Profile) (s : State) : (ackIntrRule q s).2.core.bound = s.core.bound := by
  unfold ackIntrRule
  cases q.intrAck with
  | none => rfl
  | some b =>
    have hread := (runs_accessAt b.page (runs_memRead b.reg)).bound s
    dsimp only
    split <;> rename_i heq <;> rw [heq] at hread <;> exact hread

theorem initRule_bound (mode : IfMode) (q : Profile) (s : State) :
    (initRule mode q s).2.core.bound = s.core.bound := by
  unfold initRule
  cases q.init with
  | none => rfl
  | some b =>
    have htiming := (runs_timingBody q mode).bound s
    dsimp only
    split <;> rename_i heq <;> rw [heq] at htiming
    · exact htiming
    · exact (ledBody_bound q _).trans htiming

theorem suspendRule_bound (q : Profile) (s : State) : (suspendRule q s).2.core.bound = s.core.bound := by
  have hassist := (runs_assistWrite q.suspend).bound s
  unfold suspendRule
  split <;> rename_i heq <;> rw [heq] at hassist
  · exact hassist
  · rename_i s'
    have hcall := (genericCall_bound .suspend s').trans hassist
    split <;> rename_i heq' <;> rw [heq'] at hcall <;> exact hcall

theorem resumeRule_bound (q : Profile) (s : State) : (resumeRule q s).2.core.bound = s.core.bound := by
  have hcall := genericCall_bound .resume s
  unfold resumeRule
  split <;> rename_i heq <;> rw [heq] at hcall
  · exact hcall
  · exact ((runs_assistWrite q.resume).bound _).trans hcall

/-- A command that needs a bound profile keeps `Bound` where its rule does: its refusal sets the mark alone. -/
theorem boundCommand_bound {i : Instr} {rule : Profile → State → Result × State} {s t : State}
    (h : boundCommand i rule s = .next t) (hrule : ∀ q, (rule q s).2.core.bound = s.core.bound) :
    t.core.bound = s.core.bound := by
  cases hp : s.profile? with
  | none =>
    rw [boundCommand, hp] at h
    cases h
    rfl
  | some q =>
    cases (boundCommand_eq hp).symm.trans h
    exact hrule q

/-- A paged command's rule keeps `Bound` where its access does. -/
theorem pagedRule_bound {s : State} {p : Result × State} (binding : Bool) (h : p.2.core.bound = s.core.bound) :
    (if binding then p else refuse .noPagedBinding s).2.core.bound = s.core.bound := by
  cases binding with
  | true => exact h
  | false => rfl

theorem exec_bound_of_not_resolve {i : Instr} {s t : State} (h : exec i s = .next t) (hi : ∀ id, i ≠ .resolve id) :
    t.core.bound = s.core.bound := by
  cases i with
  | read a =>
    rw [exec, execRead] at h
    exact boundCommand_bound h fun _ => (runs_memRead a).bound s
  | write a v =>
    rw [exec, execWrite] at h
    exact boundCommand_bound h fun _ => (runs_memWrite a v).bound s
  | readPaged page a =>
    rw [exec, execReadPaged] at h
    exact boundCommand_bound h fun q =>
      pagedRule_bound q.pagedRead ((runs_pagedAccess page (runs_memRead a)).bound s)
  | writePaged page a v =>
    rw [exec, execWritePaged] at h
    exact boundCommand_bound h fun q =>
      pagedRule_bound q.pagedWrite ((runs_pagedAccess page (runs_memWrite a v)).bound s)
  | resolve id => exact absurd rfl (hi id)
  | configIntr en => exact boundCommand_bound h fun q => configIntrRule_bound en q s
  | ackIntr => exact boundCommand_bound h fun q => ackIntrRule_bound q s
  | init mode => exact boundCommand_bound h fun q => initRule_bound mode q s
  | configTiming mode =>
    rw [exec, execConfigTiming] at h
    exact boundCommand_bound h fun q => (runs_timingBody q mode).bound s
  | configLed =>
    rw [exec, execConfigLed] at h
    exact boundCommand_bound h fun q => ledBody_bound q s
  | suspend => exact boundCommand_bound h fun q => suspendRule_bound q s
  | resume => exact boundCommand_bound h fun q => resumeRule_bound q s

/-- What a command can do to `Bound`: nothing, or a RESOLVE on an unbound chip binds the index that is its result. -/
theorem exec_bound_cases {i : Instr} {s t : State} (h : exec i s = .next t) :
    t.core.bound = s.core.bound
      ∨ s.core.bound = none ∧ ∃ id b, i = .resolve id ∧ t.core.bound = some b ∧ t.lastResult = some (.okIndex b) := by
  by_cases hi : ∃ id, i = .resolve id
  · obtain ⟨id, rfl⟩ := hi
    cases (exec_resolve rfl).symm.trans h
    cases hb : s.core.bound with
    | some b => exact .inl (by rw [resolveRule_of_bound hb]; exact hb)
    | none =>
      cases hm : resolveIndex s.cfg.profiles id with
      | some k => exact .inr ⟨rfl, id, k, rfl, by simp [resolveRule_of_match hb hm]⟩
      | none => exact .inl (by rw [resolveRule_of_noMatch hb hm]; exact hb)
  · exact .inl (exec_bound_of_not_resolve h fun id hid => hi ⟨id, hid⟩)

theorem exec_cfg {i : Instr} {s t : State} (h : exec i s = .next t) : t.cfg = s.cfg := by
  obtain ⟨p, hp, hout⟩ := exec_finishes i s
  cases hp.symm.trans h
  exact (hout.commandFrame _).1

/-- The bound record is looked up in the table, so it stays where the index and the table stay. -/
theorem profile?_congr {s t : State} (hbound : t.core.bound = s.core.bound) (hcfg : t.cfg = s.cfg) :
    t.profile? = s.profile? := by
  rw [State.profile?, State.profile?, hbound, hcfg]

/-- Settles O21: of the two cases of a command (`exec_bound_cases`) the write is the one of an unbound chip. -/
theorem boundIsWrittenOnce : Obligations.BoundIsWrittenOnce := by
  intro i s t h
  obtain hkept | ⟨hnone, hwritten⟩ := exec_bound_cases h
  · exact ⟨fun b hb => ⟨hkept.trans hb, profile?_congr hkept (exec_cfg h)⟩,
      fun hnone hne => absurd (hkept.trans hnone) hne⟩
  · exact ⟨fun b hb => by simp [hnone] at hb, fun _ _ => hwritten⟩

end Sys2Proof.Machine

/-! # Interrupt configuration (42_interrupts.md R160, R161, R163)

CONFIG_INTR is one write, `intrWrite`, and then `IntrState` where that write succeeded. The rules of the other commands
leave `IntrState` as it is; what each does to the core state is said once, in full. -/

namespace Sys2Proof.Machine

/-! ## What the other rules do to the core state -/

theorem Runs.core {α : Type} {n : Nat} {m : Run α} (h : Runs n m) (s : State) : (m s).2.core = s.core := by
  obtain ⟨rs, qs, l, hran, -⟩ := h s
  exact hran.tx.core

theorem genericCall_core (kind : GenKind) (s : State) : (genericCall kind s).2.core = s.core := by
  rw [genericCall_eq]
  exact (afterGeneric_frame s).core

/-- The LED step writes no more of the core state than the stored pair (R184). -/
theorem ledBody_core (q : Profile) (s : State) : ∃ led, (ledBody q s).2.core = { s.core with led := led } := by
  unfold ledBody
  cases q.init.bind InitBinding.led with
  | none => exact ⟨s.core.led, rfl⟩
  | some l =>
    obtain ⟨-, hpair, -⟩ := ledProfile_eq s
    refine ⟨some s.ledPair, ?_⟩
    dsimp only
    split
    · exact hpair
    · obtain ⟨ls, evs, hran, -⟩ := ran_ledSteps l (ledProfile s).1 (ledProfile s).2
      exact hran.tx.core.trans hpair

theorem ackIntrRule_core (q : Profile) (s : State) : (ackIntrRule q s).2.core = s.core := by
  unfold ackIntrRule
  cases q.intrAck with
  | none => rfl
  | some b =>
    have hread := (runs_accessAt b.page (runs_memRead b.reg)).core s
    dsimp only
    split <;> rename_i heq <;> rw [heq] at hread <;> exact hread

theorem initRule_core (mode : IfMode) (q : Profile) (s : State) :
    ∃ led, (initRule mode q s).2.core = { s.core with led := led } := by
  unfold initRule
  cases q.init with
  | none => exact ⟨s.core.led, rfl⟩
  | some b =>
    have htiming := (runs_timingBody q mode).core s
    dsimp only
    split <;> rename_i heq <;> rw [heq] at htiming
    · exact ⟨s.core.led, htiming⟩
    · rename_i s'
      rw [← htiming]
      exact ledBody_core q s'

theorem suspendRule_core (q : Profile) (s : State) : (suspendRule q s).2.core = s.core := by
  have hassist := (runs_assistWrite q.suspend).core s
  unfold suspendRule
  split <;> rename_i heq <;> rw [heq] at hassist
  · exact hassist
  · rename_i s'
    have hcall := (genericCall_core .suspend s').trans hassist
    split <;> rename_i heq' <;> rw [heq'] at hcall <;> exact hcall

theorem resumeRule_core (q : Profile) (s : State) : (resumeRule q s).2.core = s.core := by
  have hcall := genericCall_core .resume s
  unfold resumeRule
  split <;> rename_i heq <;> rw [heq] at hcall
  · exact hcall
  · exact ((runs_assistWrite q.resume).core _).trans hcall

theorem resolveRule_intr (id : Ident) (s : State) : (resolveRule id s).2.core.intr = s.core.intr := by
  unfold resolveRule
  cases s.core.bound with
  | some b => rfl
  | none => cases resolveIndex s.cfg.profiles id <;> rfl

/-- The two ways a command that needs a bound profile ends (R110 step 2): refused, or by its rule. -/
theorem boundCommand_cases {i : Instr} {rule : Profile → State → Result × State} {s t : State}
    (h : boundCommand i rule s = .next t) :
    t = finish (encode i) (refuse .unbound s) ∨ ∃ q, s.profile? = some q ∧ t = finish (encode i) (rule q s) := by
  cases hp : s.profile? with
  | none =>
    rw [boundCommand, hp] at h
    cases h
    exact .inl rfl
  | some q =>
    cases (boundCommand_eq hp).symm.trans h
    exact .inr ⟨q, rfl, rfl⟩

/-- A command that needs a bound profile keeps `IntrState` where its rule does. -/
theorem boundCommand_intr {i : Instr} {rule : Profile → State → Result × State} {s t : State}
    (h : boundCommand i rule s = .next t) (hrule : ∀ q, (rule q s).2.core.intr = s.core.intr) :
    t.core.intr = s.core.intr := by
  obtain rfl | ⟨q, -, rfl⟩ := boundCommand_cases h
  · rfl
  · exact hrule q

theorem Runs.intr {α : Type} {n : Nat} {m : Run α} (h : Runs n m) (s : State) : (m s).2.core.intr = s.core.intr :=
  congrArg CoreState.intr (h.core s)

/-- A paged command's rule keeps `IntrState` where its access does. -/
theorem pagedRule_intr {s : State} {p : Result × State} (binding : Bool) (h : p.2.core.intr = s.core.intr) :
    (if binding then p else refuse .noPagedBinding s).2.core.intr = s.core.intr := by
  cases binding with
  | true => exact h
  | false => rfl

theorem exec_intr_of_not_configIntr {i : Instr} {s t : State} (h : exec i s = .next t)
    (hi : ∀ en, i ≠ .configIntr en) : t.core.intr = s.core.intr := by
  cases i with
  | read a =>
    rw [exec, execRead] at h
    exact boundCommand_intr h fun _ => (runs_memRead a).intr s
  | write a v =>
    rw [exec, execWrite] at h
    exact boundCommand_intr h fun _ => (runs_memWrite a v).intr s
  | readPaged page a =>
    rw [exec, execReadPaged] at h
    exact boundCommand_intr h fun q => pagedRule_intr q.pagedRead ((runs_pagedAccess page (runs_memRead a)).intr s)
  | writePaged page a v =>
    rw [exec, execWritePaged] at h
    exact boundCommand_intr h fun q => pagedRule_intr q.pagedWrite ((runs_pagedAccess page (runs_memWrite a v)).intr s)
  | resolve id =>
    cases (exec_resolve rfl).symm.trans h
    exact resolveRule_intr id s
  | configIntr en => exact absurd rfl (hi en)
  | ackIntr => exact boundCommand_intr h fun q => congrArg CoreState.intr (ackIntrRule_core q s)
  | init mode =>
    refine boundCommand_intr h fun q => ?_
    obtain ⟨led, hcore⟩ := initRule_core mode q s
    rw [hcore]
  | configTiming mode =>
    rw [exec, execConfigTiming] at h
    exact boundCommand_intr h fun q => (runs_timingBody q mode).intr s
  | configLed =>
    rw [exec, execConfigLed] at h
    refine boundCommand_intr h fun q => ?_
    obtain ⟨led, hcore⟩ := ledBody_core q s
    have hintr : (ledBody q s).2.core.intr = s.core.intr := by rw [hcore]
    exact hintr
  | suspend => exact boundCommand_intr h fun q => congrArg CoreState.intr (suspendRule_core q s)
  | resume => exact boundCommand_intr h fun q => congrArg CoreState.intr (resumeRule_core q s)

/-! ## CONFIG_INTR as one write (R161) -/

/-- The write of CONFIG_INTR to the interrupt-enable register; without the binding there is none. -/
def intrWrite (en : Bool) (q : Profile) : Run Unit := fun s =>
  match q.intrEnable with
  | none => (.ok (), s)
  | some b => accessAt b.page (memWrite b.reg (ierValue b en)) s

/-- The transactions of that write when it succeeds. -/
def intrWriteEvs (c : Cfg) (en : Bool) (q : Profile) : List Ev :=
  match q.intrEnable with
  | none => []
  | some b =>
    match b.page with
    | none => [okWrite (b.reg, ierValue b en)]
    | some pg => pagedEvs c pg (okWrite (b.reg, ierValue b en))

theorem intrWrite_core (en : Bool) (q : Profile) (s : State) : (intrWrite en q s).2.core = s.core := by
  unfold intrWrite
  cases q.intrEnable with
  | none => rfl
  | some b => exact (runs_accessAt b.page (runs_memWrite b.reg (ierValue b en))).core s

/-- R160: `IntrState` is set where the write succeeded, and its error is the result where it failed. -/
theorem configIntrRule_eq (en : Bool) (q : Profile) (s : State) :
    configIntrRule en q s =
      ((intrWrite en q s).1.result,
        match (intrWrite en q s).1 with
        | .ok _ => (intrWrite en q s).2.setIntr (intrOf en)
        | .err _ => (intrWrite en q s).2) := by
  unfold configIntrRule intrWrite
  cases q.intrEnable with
  | none => rfl
  | some b =>
    dsimp only
    split <;> rename_i heq <;> simp only [heq] <;> rfl

theorem configIntrRule_of_ok {en : Bool} {q : Profile} {s : State} (h : (intrWrite en q s).1 = .ok ()) :
    configIntrRule en q s = (.ok, (intrWrite en q s).2.setIntr (intrOf en)) := by
  rw [configIntrRule_eq, h]
  rfl

theorem configIntrRule_of_err {en : Bool} {q : Profile} {s : State} {e : BusErr}
    (h : (intrWrite en q s).1 = .err e) : configIntrRule en q s = (.busError e, (intrWrite en q s).2) := by
  rw [configIntrRule_eq, h]
  rfl

/-- What CONFIG_INTR does to `IntrState`, for each way it ends. -/
theorem exec_configIntr_intr {en : Bool} {s t : State} (h : exec (.configIntr en) s = .next t) :
    t.lastResult = some .ok ∧ t.core.intr = intrOf en ∨ t.lastResult ≠ some .ok ∧ t.core.intr = s.core.intr := by
  obtain rfl | ⟨q, -, rfl⟩ := boundCommand_cases h
  · exact .inr ⟨by simp [refuse], rfl⟩
  · cases hw : (intrWrite en q s).1 with
    | ok => exact .inl (by simp [configIntrRule_of_ok hw])
    | err e => exact .inr (by simp [configIntrRule_of_err hw, intrWrite_core])

/-- Settles O37: CONFIG_INTR by the way it ends (`exec_configIntr_intr`); every other command keeps `IntrState`. -/
theorem intrStateFollowsConfigIntr : Obligations.IntrStateFollowsConfigIntr := by
  intro i s t h
  refine ⟨?_, ?_, exec_intr_of_not_configIntr h⟩
  · rintro en rfl hok
    obtain ⟨-, hintr⟩ | ⟨hne, -⟩ := exec_configIntr_intr h
    · exact hintr
    · exact absurd hok hne
  · rintro en rfl hne
    obtain ⟨hok, -⟩ | ⟨-, hintr⟩ := exec_configIntr_intr h
    · exact absurd hok hne
    · exact hintr

/-! ## CONFIG_INTR that returns `Ok` (R161, R163) -/

/-- What the write leaves when it succeeds from page 0 and its register is not the page-select register: the page is 0
again, and the register is the one at the bound page, or at page 0. -/
theorem intrWrite_ok {en : Bool} {q : Profile} {s : State} (hclean : s.PsClean)
    (hreg : ∀ b, q.intrEnable = some b → b.reg ≠ s.cfg.pageSel) (h : (intrWrite en q s).1 = .ok ()) :
    (intrWrite en q s).2.log = s.log ++ intrWriteEvs s.cfg en q ∧ (intrWrite en q s).2.PsClean
      ∧ ∀ b, q.intrEnable = some b →
        WroteCell s.cfg (b.page.getD 0) b.reg (ierValue b en) (intrWrite en q s).2 := by
  unfold intrWrite intrWriteEvs at *
  cases hb : q.intrEnable with
  | none => exact ⟨by simp, hclean, by simp⟩
  | some b =>
    simp only [hb, Option.some.injEq, forall_eq'] at h ⊢
    cases hpage : b.page with
    | none =>
      rw [hpage, accessAt, memWrite_fst, answerReply_eq_ok] at h
      have hcell := memWrite_cell (s := s) b.reg (ierValue b en) (by rw [h]; rfl)
      rw [hclean] at hcell
      refine ⟨by rw [accessAt, memWrite_log, h]; rfl, ?_, hcell⟩
      rw [accessAt, State.PsClean, memWrite_ps, if_neg fun hps => hreg b hb hps.2]
      exact hclean
    | some pg =>
      rw [hpage] at h
      obtain ⟨u, hu, hlog, hps, -, -, hcell⟩ :=
        pagedWrite_ok (page := pg) (a := b.reg) (v := ierValue b en) (pagedWrite_ok_inv h)
      rw [accessAt, hu]
      exact ⟨hlog, hps, hcell⟩

/-- CONFIG_INTR returned `Ok`: its transactions, `IntrState`, the page, and the interrupt-enable register. -/
structure ConfigIntrDone (en : Bool) (q : Profile) (s t : State) : Prop where
  logged : Logged (.configIntr en) (intrWriteEvs s.cfg en q) .ok s t
  intr : t.core.intr = intrOf en
  clean : t.PsClean
  cfg : t.cfg = s.cfg
  profile : t.profile? = s.profile?
  cell : ∀ b, q.intrEnable = some b → storesAt s.cfg (b.page.getD 0) b.reg = true →
    t.cellAt (b.page.getD 0) b.reg = some (ierValue b en)

theorem configIntr_done {en : Bool} {q : Profile} {s t : State} (hq : s.profile? = some q)
    (ha : s.cfg.accepted = true) (hclean : s.PsClean) (h : exec (.configIntr en) s = .next t)
    (hok : t.lastResult = some .ok) : ConfigIntrDone en q s t := by
  have hcfg := exec_cfg h
  have hprofile := profile?_congr (exec_bound_of_not_resolve h (by simp)) hcfg
  cases (exec_configIntr hq en).symm.trans h
  cases hw : (intrWrite en q s).1 with
  | err e => simp [configIntrRule_of_err hw] at hok
  | ok =>
    obtain ⟨hlog, hps, hcell⟩ := intrWrite_ok hclean (fun b => ierReg_ne hq ha) hw
    rw [configIntrRule_of_ok hw] at hcfg hprofile ⊢
    exact {
      logged := logged_finish (i := .configIntr en) hlog
      intr := rfl
      clean := hps
      cfg := hcfg
      profile := hprofile
      cell := fun b hb hs => WroteCell.cellAt (hcell b hb) hcfg hs }

/-- Settles O39: the first call leaves page 0, the configuration and the profile as the second needs them
(`ConfigIntrDone`), and what a call does is a function of these and the operand. -/
theorem configIntrIsIdempotent : Obligations.ConfigIntrIsIdempotent := by
  intro s t u q en hq ha hclean hst hokt htu hoku
  have ht := configIntr_done hq ha hclean hst hokt
  have hu := configIntr_done (ht.profile.trans hq) (ht.cfg ▸ ha) ht.clean htu hoku
  refine ⟨⟨intrWriteEvs s.cfg en q, ht.logged, ht.cfg ▸ hu.logged⟩, ht.intr.trans hu.intr.symm, fun b hb hs => ?_⟩
  exact ⟨ht.cell b hb hs, hu.cell b hb (ht.cfg ▸ hs)⟩

end Sys2Proof.Machine

/-! # CONFIG_TIMING and CONFIG_LED (43_bound_operations.md R182, R183, R184)

The timing step's write differs from what it read in the delay bit alone. The platform lookup is a search for the first
entry that names the platform. The LedProfile is derived in `ledProfile` and nowhere else: once it is there, no rule
queries the platform or writes the stored pair (`LedKept`). -/

namespace Sys2Proof.Machine

/-! ## The timing step (R181, R182) -/

theorem timingValue_getLsbD (c : Cfg) {b : TimingBinding} (mode : IfMode) (old : Reg) {n : Nat}
    (hn : b.bit.getLsbD n = false) : (timingValue c b mode old).getLsbD n = old.getLsbD n := by
  unfold timingValue
  split
  · rw [BitVec.getLsbD_or, hn, Bool.or_false]
  · rw [BitVec.getLsbD_and, BitVec.getLsbD_not, hn, Bool.not_false, Bool.and_true]
    by_cases hlt : n < 16
    · rw [decide_eq_true hlt, Bool.and_true]
    · rw [BitVec.getLsbD_of_ge old n (Nat.le_of_not_lt hlt), Bool.false_and]

theorem timingBody_of_binding {q : Profile} {b : TimingBinding} (mode : IfMode) (s : State)
    (hb : q.init.bind InitBinding.timing = some b) : timingBody q mode s = timingSteps b mode s := by
  simp only [timingBody, hb]

theorem Reply.result_eq_ok {r : Reply Unit} (h : r.result = .ok) : r = .ok () := by
  cases r with
  | ok => rfl
  | err e => cases h

/-- The timing step that succeeded from a storage register known to hold `old` left the value written back there. -/
theorem timingSteps_cellAt {s : State} {b : TimingBinding} {mode : IfMode} {old : Reg}
    (hstores : storesAt s.cfg b.page b.reg = true) (hold : s.cellAt b.page b.reg = some old)
    (hok : (timingSteps b mode s).1 = .ok ()) :
    (timingSteps b mode s).2.cellAt b.page b.reg = some (timingValue s.cfg b mode old) := by
  obtain ⟨t, v, hrun, -, -, htx, hread, hwrote⟩ := timing_ok (timing_ok_inv hok)
  rw [hrun, ← hread hstores old hold]
  exact hwrote.cellAt htx.cfg hstores

/-- Settles O43: `Ok` is the reply of the timing step, which leaves `timingValue` of the old content in the register. -/
theorem timingKeepsEveryOtherBit : Obligations.TimingKeepsEveryOtherBit := by
  intro s t q b mode old hq _ hb hstores hold h hok
  cases (exec_configTiming hq mode).symm.trans h
  rw [timingBody_of_binding mode s hb] at hok ⊢
  have hcell := timingSteps_cellAt (mode := mode) hstores hold (Reply.result_eq_ok (by simpa using hok))
  refine ⟨hcell.trans (congrArg some (timingValue_eq s.cfg b mode old)), fun new hnew n hn => ?_⟩
  cases hcell.symm.trans hnew
  exact timingValue_getLsbD s.cfg mode old hn

/-! ## The platform lookup (R14, R183) -/

theorem isNamePrefix_iff {n s : List Byte} : isNamePrefix n s = true ↔ n <+: s := by
  induction n generalizing s with
  | nil => simp [isNamePrefix]
  | cons x n ih =>
    cases s with
    | nil => simp [isNamePrefix]
    | cons y s => simp [isNamePrefix, List.cons_prefix_cons, ih]

/-- R14: a name begins another when their bytes agree as far as it goes. -/
theorem prefix_iff_bytes {n s : List Byte} :
    n <+: s ↔ n.length ≤ s.length ∧ ∀ i, i < n.length → s[i]? = n[i]? := by
  refine ⟨fun h => ⟨h.length_le, fun i hi => ?_⟩, fun ⟨_, h⟩ => List.prefix_iff_getElem?.mpr fun i hi => ?_⟩
  · exact (List.prefix_iff_getElem?.mp h i hi).trans (List.getElem?_eq_getElem hi).symm
  · exact (h i hi).trans (List.getElem?_eq_getElem hi)

theorem platformMatches_iff {e : Platform} {s : List Byte} :
    platformMatches e s = true ↔ (e.kind = .exactName ∧ e.name = s) ∨ (e.kind = .prefixName ∧ e.name <+: s) := by
  unfold platformMatches
  cases e.kind with
  | exactName => simp
  | prefixName => simp [isNamePrefix_iff]

theorem lookupPlatform_of_no_match {es : List Platform} {s : List Byte}
    (h : ∀ e ∈ es, platformMatches e s = false) : lookupPlatform es (.name s) = (0x0000, 0x0000) := by
  have hfind : es.find? (platformMatches · s) = none := by simpa using h
  simp [lookupPlatform, hfind]

theorem lookupPlatform_of_first_match {pre post : List Platform} {e : Platform} {s : List Byte}
    (hpre : ∀ d ∈ pre, platformMatches d s = false) (he : platformMatches e s = true) :
    lookupPlatform (pre ++ e :: post) (.name s) = (e.led, e.eee) := by
  have hfind : (pre ++ e :: post).find? (platformMatches · s) = some e :=
    List.find?_eq_some_iff_append.mpr ⟨he, pre, post, rfl, by simpa using hpre⟩
  simp [lookupPlatform, hfind]

/-- Settles O45: an entry is hit exactly when it matches (`platformMatches_iff`), and the lookup takes the first match. -/
theorem platformLookupTakesTheFirstMatch : Obligations.PlatformLookupTakesTheFirstMatch := by
  unfold Obligations.PlatformLookupTakesTheFirstMatch
  simp only [← prefix_iff_bytes, ← platformMatches_iff, Bool.not_eq_true]
  exact ⟨fun _ => rfl, fun _ _ => lookupPlatform_of_no_match, fun _ _ _ _ => lookupPlatform_of_first_match⟩

/-! ## What keeps the LedProfile (R184) -/

/-- From `s` to `t` the stored pair stays and no platform query is logged. -/
structure LedKept (s t : State) : Prop where
  led : t.core.led = s.core.led
  log : ∃ l, t.log = s.log ++ l ∧ ∀ e ∈ l, e.isPlat = false

theorem LedKept.refl (s : State) : LedKept s s := ⟨rfl, [], by simp, by simp⟩

theorem LedKept.trans {s t u : State} (h1 : LedKept s t) (h2 : LedKept t u) : LedKept s u := by
  obtain ⟨hled1, l1, hlog1, hl1⟩ := h1
  obtain ⟨hled2, l2, hlog2, hl2⟩ := h2
  refine ⟨hled2.trans hled1, l1 ++ l2, by rw [hlog2, hlog1, List.append_assoc], fun e he => ?_⟩
  obtain he | he := List.mem_append.mp he
  · exact hl1 e he
  · exact hl2 e he

theorem Ev.isPlat_of_isBus {e : Ev} (h : e.isBus = true) : e.isPlat = false := by
  cases e with
  | plat ans => cases h
  | _ => rfl

theorem Ran.ledKept {α : Type} {rs qs : List (Reg × Reg)} {l : List Ev} {m : Run α} {s : State}
    (h : Ran rs qs l m s) : LedKept s (m s).2 :=
  ⟨congrArg CoreState.led h.tx.core, l, h.log, fun e he => Ev.isPlat_of_isBus (h.bus e he)⟩

theorem Runs.ledKept {α : Type} {n : Nat} {m : Run α} (h : Runs n m) (s : State) : LedKept s (m s).2 := by
  obtain ⟨rs, qs, l, hran, -⟩ := h s
  exact hran.ledKept

theorem refuse_ledKept (r : Reason) (s : State) : LedKept s (refuse r s).2 := ⟨rfl, [], by simp [refuse], by simp⟩

theorem setIntr_ledKept (s : State) (x : IntrState) : LedKept s (s.setIntr x) := ⟨rfl, [], by simp, by simp⟩

theorem genericCall_ledKept (kind : GenKind) (s : State) : LedKept s (genericCall kind s).2 := by
  refine ⟨congrArg CoreState.led (genericCall_core kind s), [.gen kind (genericReply s.genericAhead)], ?_, ?_⟩
  · rw [genericCall_eq, State.addEv_log, (afterGeneric_frame s).log]
  · simp [Ev.isPlat]

/-- The stored pair is used again with no query. -/
theorem ledProfile_ledKept {s : State} {pair : Reg × Reg} (h : s.core.led = some pair) : LedKept s (ledProfile s).2 := by
  simp only [ledProfile, h]
  exact .refl s

/-- After the pair is derived the LED step makes transactions alone. -/
theorem ledBody_ledKept_profile {q : Profile} {l : LedBinding} (s : State) (hl : q.init.bind InitBinding.led = some l) :
    LedKept (ledProfile s).2 (ledBody q s).2 := by
  simp only [ledBody, hl]
  split
  · exact .refl _
  · obtain ⟨ls, evs, hran, -⟩ := ran_ledSteps l (ledProfile s).1 (ledProfile s).2
    exact hran.ledKept

theorem ledBody_of_no_binding {q : Profile} (s : State) (hl : q.init.bind InitBinding.led = none) :
    ledBody q s = (.ok (), s) := by
  simp only [ledBody, hl]

theorem ledBody_ledKept (q : Profile) {s : State} {pair : Reg × Reg} (h : s.core.led = some pair) :
    LedKept s (ledBody q s).2 := by
  cases hl : q.init.bind InitBinding.led with
  | none =>
    rw [ledBody_of_no_binding s hl]
    exact .refl s
  | some l => exact (ledProfile_ledKept h).trans (ledBody_ledKept_profile s hl)

/-! ## The rules, once the pair is stored -/

theorem resolveRule_ledKept (id : Ident) (s : State) : LedKept s (resolveRule id s).2 := by
  unfold resolveRule
  cases s.core.bound with
  | some i => exact refuse_ledKept .rebind s
  | none =>
    cases resolveIndex s.cfg.profiles id with
    | some i => exact ⟨rfl, [], by simp, by simp⟩
    | none => exact .refl s

theorem configIntrRule_ledKept (en : Bool) (q : Profile) (s : State) : LedKept s (configIntrRule en q s).2 := by
  unfold configIntrRule
  cases q.intrEnable with
  | none => exact setIntr_ledKept s _
  | some b =>
    have hwrite := (runs_accessAt b.page (runs_memWrite b.reg (ierValue b en))).ledKept s
    dsimp only
    split <;> rename_i heq <;> rw [heq] at hwrite
    · exact hwrite.trans (setIntr_ledKept _ _)
    · exact hwrite

theorem ackIntrRule_ledKept (q : Profile) (s : State) : LedKept s (ackIntrRule q s).2 := by
  unfold ackIntrRule
  cases q.intrAck with
  | none => exact .refl s
  | some b =>
    have hread := (runs_accessAt b.page (runs_memRead b.reg)).ledKept s
    dsimp only
    split <;> rename_i heq <;> rw [heq] at hread <;> exact hread

theorem initRule_ledKept (mode : IfMode) (q : Profile) {s : State} {pair : Reg × Reg} (h : s.core.led = some pair) :
    LedKept s (initRule mode q s).2 := by
  unfold initRule
  cases q.init with
  | none => exact .refl s
  | some b =>
    have htiming := (runs_timingBody q mode).ledKept s
    dsimp only
    split <;> rename_i heq <;> rw [heq] at htiming
    · exact htiming
    · exact htiming.trans (ledBody_ledKept q (htiming.led.trans h))

theorem suspendRule_ledKept (q : Profile) (s : State) : LedKept s (suspendRule q s).2 := by
  have hassist := (runs_assistWrite q.suspend).ledKept s
  unfold suspendRule
  split <;> rename_i heq <;> rw [heq] at hassist
  · exact hassist
  · rename_i s'
    have hcall := hassist.trans (genericCall_ledKept .suspend s')
    split <;> rename_i heq' <;> rw [heq'] at hcall <;> exact hcall

theorem resumeRule_ledKept (q : Profile) (s : State) : LedKept s (resumeRule q s).2 := by
  have hcall := genericCall_ledKept .resume s
  unfold resumeRule
  split <;> rename_i heq <;> rw [heq] at hcall
  · exact hcall
  · exact hcall.trans ((runs_assistWrite q.resume).ledKept _)

theorem pagedRule_ledKept {s : State} {p : Result × State} (binding : Bool) (h : LedKept s p.2) :
    LedKept s (if binding then p else refuse .noPagedBinding s).2 := by
  cases binding with
  | true => exact h
  | false => exact refuse_ledKept .noPagedBinding s

/-! ## The commands, once the pair is stored -/

/-- The command ends in a state that it reached with the stored pair kept and no query. -/
def FinishesLedKept (w : Word) (s t : State) : Prop := ∃ p, t = finish w p ∧ LedKept s p.2

theorem boundCommand_ledKept {i : Instr} {rule : Profile → State → Result × State} {s t : State}
    (h : boundCommand i rule s = .next t) (hrule : ∀ q, LedKept s (rule q s).2) : FinishesLedKept (encode i) s t := by
  obtain rfl | ⟨q, -, rfl⟩ := boundCommand_cases h
  · exact ⟨_, rfl, refuse_ledKept .unbound s⟩
  · exact ⟨_, rfl, hrule q⟩

theorem exec_ledKept {i : Instr} {s t : State} {pair : Reg × Reg} (hled : s.core.led = some pair)
    (h : exec i s = .next t) : FinishesLedKept (encode i) s t := by
  cases i with
  | read a =>
    rw [exec, execRead] at h
    exact boundCommand_ledKept h fun _ => (runs_memRead a).ledKept s
  | write a v =>
    rw [exec, execWrite] at h
    exact boundCommand_ledKept h fun _ => (runs_memWrite a v).ledKept s
  | readPaged page a =>
    rw [exec, execReadPaged] at h
    refine boundCommand_ledKept h fun q => pagedRule_ledKept q.pagedRead ?_
    exact (runs_pagedAccess page (runs_memRead a)).ledKept s
  | writePaged page a v =>
    rw [exec, execWritePaged] at h
    refine boundCommand_ledKept h fun q => pagedRule_ledKept q.pagedWrite ?_
    exact (runs_pagedAccess page (runs_memWrite a v)).ledKept s
  | resolve id =>
    cases (exec_resolve rfl).symm.trans h
    exact ⟨_, rfl, resolveRule_ledKept id s⟩
  | configIntr en => exact boundCommand_ledKept h fun q => configIntrRule_ledKept en q s
  | ackIntr => exact boundCommand_ledKept h fun q => ackIntrRule_ledKept q s
  | init mode => exact boundCommand_ledKept h fun q => initRule_ledKept mode q hled
  | configTiming mode =>
    rw [exec, execConfigTiming] at h
    exact boundCommand_ledKept h fun q => (runs_timingBody q mode).ledKept s
  | configLed =>
    rw [exec, execConfigLed] at h
    exact boundCommand_ledKept h fun q => ledBody_ledKept q hled
  | suspend => exact boundCommand_ledKept h fun q => suspendRule_ledKept q s
  | resume => exact boundCommand_ledKept h fun q => resumeRule_ledKept q s

/-! ## CONFIG_LED, the first time -/

/-- The first CONFIG_LED stores the pair it derives, and its one query comes before its transactions. -/
theorem ledBody_derives {q : Profile} {l : LedBinding} {s : State} (hl : q.init.bind InitBinding.led = some l)
    (hnone : s.core.led = none) :
    (ledBody q s).2.core.led = some (lookupPlatform s.cfg.platforms s.platformAhead)
      ∧ ∃ evs, (ledBody q s).2.log = s.log ++ .plat s.platformAhead :: evs ∧ ∀ e ∈ evs, e.isPlat = false := by
  obtain ⟨hled, evs, hlog, hevs⟩ := ledBody_ledKept_profile s hl
  rw [ledProfile_none hnone] at hled hlog
  exact ⟨hled, evs, by simpa using hlog, hevs⟩

/-- Settles O47: the first CONFIG_LED by `ledBody_derives`, every command after it by `exec_ledKept`. -/
theorem ledProfileIsDerivedOnce : Obligations.LedProfileIsDerivedOnce := by
  refine ⟨fun s t q l hq hl hnone h => ?_, fun i s t pair hled h => ?_, fun s t q hq hl h => ?_⟩
  · cases (exec_configLed hq).symm.trans h
    obtain ⟨hled, evs, hlog, hevs⟩ := ledBody_derives hl hnone
    exact ⟨hled, _, evs, logged_finish (i := .configLed) hlog, hevs⟩
  · obtain ⟨p, rfl, hkept, l, hlog, hl⟩ := exec_ledKept hled h
    exact ⟨hkept.trans hled, l, p.1, logged_finish hlog, hl⟩
  · cases (exec_configLed hq).symm.trans h
    rw [ledBody_of_no_binding s hl]
    exact ⟨rfl, logged_finish (i := .configLed) (by simp)⟩

end Sys2Proof.Machine

/-! # Refusals, `NotFound` and bus errors (60_exceptions.md R212 to R215)

A refusal is the one outcome `refuse`, whatever raised it. Every rule but INIT's reports the first failure among the
events it logged (`ReportsBus`); INIT reports that of its timing step as its result and that of its LED step as
`ledStatus` (`InitReports`). -/

namespace Sys2Proof

/-! ## A decoded word is its command's encoding (R80, R91) -/

/-- A field that the row's mask covers is the pattern's. -/
theorem OpRow.Selects.field {r : OpRow} {w : Word} (h : r.Selects w) (k l : Nat)
    (hm : r.mask.extractLsb' k l = BitVec.allOnes l) : w.extractLsb' k l = r.pattern.extractLsb' k l := by
  rw [← h, field_and, hm, BitVec.and_allOnes]

/-- A row that masks the whole word is selected by its pattern alone. -/
theorem OpRow.Selects.eq_pattern {r : OpRow} {w : Word} (h : r.Selects w) (hm : r.mask = BitVec.allOnes 64) :
    r.pattern = w := by
  rw [← h, hm, BitVec.and_allOnes]

/-- Two fields side by side are one field. -/
theorem field_join {n : Nat} (w : BitVec n) (k l m : Nat) :
    w.extractLsb' (k + l) m ++ w.extractLsb' k l = w.extractLsb' k (m + l) :=
  BitVec.extractLsb'_append_extractLsb'_eq_extractLsb' rfl

theorem word_of_addr_value (w : Word) : w.extractLsb' 32 32 ++ addrField w ++ valueField w = w := by
  rw [addrField, field_join w 16 16 32]
  exact field_split (m := 48) (n := 16) w

theorem word_of_page_addr_value (w : Word) :
    w.extractLsb' 48 16 ++ pageField w ++ addrField w ++ valueField w = w := by
  rw [pageField, field_join w 32 16 16]
  exact word_of_addr_value w

theorem word_of_id (w : Word) : w.extractLsb' 32 32 ++ idField w = w := field_split (m := 32) (n := 32) w

theorem word_of_mode (w : Word) : w.extractLsb' 8 56 ++ modeField w = w := field_split (m := 56) (n := 8) w

theorem word_of_en (w : Word) : w.extractLsb' 1 63 ++ BitVec.ofBool (enField w) = w := by
  have hen : BitVec.ofBool (enField w) = w.extractLsb' 0 1 := by
    apply BitVec.eq_of_getLsbD_eq
    intro i hi
    obtain rfl : i = 0 := by omega
    simp [enField]
  rw [hen]
  exact field_split (m := 63) (n := 1) w

/-- The decoder takes each field from the row's unmasked bits, and the masked ones are the row's pattern. -/
theorem encode_of_decode {w : Word} {i : Instr} (h : decode w = some i) : encode i = w := by
  obtain ⟨r, hr, hsel, hi⟩ := selects_of_decode h
  simp only [opcodeTable, List.mem_cons, List.not_mem_nil, or_false] at hr
  obtain rfl | rfl | rfl | rfl | rfl | rfl | rfl | rfl | rfl | rfl | rfl | rfl := hr
  · -- READ
    cases hi
    refine .trans ?_ (word_of_addr_value w)
    rw [valueField, hsel.field 32 32 rfl, hsel.field 0 16 rfl]
    rfl
  · -- WRITE
    cases hi
    refine .trans ?_ (word_of_addr_value w)
    rw [hsel.field 32 32 rfl]
    rfl
  · -- READ_PAGED
    cases hi
    refine .trans ?_ (word_of_page_addr_value w)
    rw [valueField, hsel.field 48 16 rfl, hsel.field 0 16 rfl]
    rfl
  · -- WRITE_PAGED
    cases hi
    refine .trans ?_ (word_of_page_addr_value w)
    rw [hsel.field 48 16 rfl]
    rfl
  · -- RESOLVE
    cases hi
    refine .trans ?_ (word_of_id w)
    rw [hsel.field 32 32 rfl]
    rfl
  · -- CONFIG_INTR
    cases hi
    refine .trans ?_ (word_of_en w)
    rw [hsel.field 1 63 rfl]
    rfl
  · -- ACK_INTR
    cases hi
    exact hsel.eq_pattern rfl
  · -- INIT
    obtain ⟨mode, hmode, rfl⟩ := Option.map_eq_some_iff.mp hi
    refine .trans ?_ (word_of_mode w)
    rw [← IfMode.code_of_ofCode hmode, hsel.field 8 56 rfl]
    rfl
  · -- CONFIG_TIMING
    obtain ⟨mode, hmode, rfl⟩ := Option.map_eq_some_iff.mp hi
    refine .trans ?_ (word_of_mode w)
    rw [← IfMode.code_of_ofCode hmode, hsel.field 8 56 rfl]
    rfl
  · -- CONFIG_LED
    cases hi
    exact hsel.eq_pattern rfl
  · -- SUSPEND
    cases hi
    exact hsel.eq_pattern rfl
  · -- RESUME
    cases hi
    exact hsel.eq_pattern rfl

end Sys2Proof

namespace Sys2Proof.Machine

/-! ## Refusals (R215) -/

/-- A step with a word issued ends with the `Cmd` event of that word. -/
theorem step_finishes_word {s : State} {w : Word} {rest : List Word} (h : s.commands = w :: rest) :
    Finishes w { s with commands := rest } (step s) := by
  cases hd : decode w with
  | none =>
    exact ⟨refuse .illegalCommand { s with commands := rest }, step_of_decode_none h hd, .refused .illegalCommand⟩
  | some i =>
    have hstep : step s = exec i { s with commands := rest } := by simp [step, fetch, h, hd]
    rw [hstep, ← encode_of_decode hd]
    exact exec_finishes i _

theorem RuleOutcome.eq_refuse {s : State} {p : Result × State} {r : Reason} (h : RuleOutcome s p)
    (hr : p.1 = .refuse r) : p = refuse r s := by
  cases h with
  | refused r' =>
    cases hr
    rfl
  | ran hres _ => exact absurd hr (hres r)

/-- Settles O13: a rule whose result is a refusal was refused (`RuleOutcome.eq_refuse`), so it did no more than set the
mark, and the word in its `Cmd` event is the one issued. -/
theorem refusalChangesOnlyTheMark : Obligations.RefusalChangesOnlyTheMark := by
  intro s t w rest r hc h hr
  obtain ⟨p, hp, hout⟩ := step_finishes_word hc
  cases hp.symm.trans h
  rw [hout.eq_refuse (by simpa using hr)]
  rfl

/-! ## The failure a result reports -/

/-- The transport's error, where the result is `BusError`. -/
def Result.busErr? : Result → Option BusErr
  | .busError e => some e
  | _ => none

/-- The transport's error, where the result carries it as `ledStatus`. -/
def Result.ledErr? : Result → Option BusErr
  | .okLed (.busError e) => some e
  | _ => none

theorem Result.busErr?_eq_some_iff {r : Result} {e : BusErr} : r.busErr? = some e ↔ r = .busError e := by
  cases r <;> simp [Result.busErr?]

theorem Result.ledErr?_eq_some_iff {r : Result} {e : BusErr} : r.ledErr? = some e ↔ r = .okLed (.busError e) := by
  cases r with
  | okLed l => cases l <;> simp [Result.ledErr?]
  | _ => simp [Result.ledErr?]

/-- From `s` to `t` events were logged whose first failure is `o`. -/
def LogsErr (o : Option BusErr) (s t : State) : Prop := ∃ l, t.log = s.log ++ l ∧ firstBusErr l = o

theorem LogsErr.of_log_eq {s t : State} (h : t.log = s.log) : LogsErr none s t := ⟨[], by simp [h], rfl⟩

theorem LogsErr.trans {o o' : Option BusErr} {s t u : State} (h : LogsErr o s t) (h' : LogsErr o' t u) :
    LogsErr (o.or o') s u := by
  obtain ⟨l, hlog, rfl⟩ := h
  obtain ⟨l', hlog', rfl⟩ := h'
  exact ⟨l ++ l', by rw [hlog', hlog, List.append_assoc], firstBusErr_append l l'⟩

theorem Runs.logsErr {α : Type} {n : Nat} {m : Run α} (h : Runs n m) (s : State) :
    LogsErr (m s).1.err? s (m s).2 := by
  obtain ⟨rs, qs, l, hran, -⟩ := h s
  exact ⟨l, hran.log, hran.err⟩

/-- The collaborator's failure is no transaction's (R190). -/
theorem genericCall_logsErr (kind : GenKind) (s : State) : LogsErr none s (genericCall kind s).2 := by
  refine ⟨[.gen kind (genericReply s.genericAhead)], ?_, rfl⟩
  rw [genericCall_eq, State.addEv_log, (afterGeneric_frame s).log]

theorem ledProfile_logsErr (s : State) : LogsErr none s (ledProfile s).2 := by
  obtain ⟨-, -, hlog, -⟩ := ledProfile_eq s
  refine ⟨platformEvs s, hlog, ?_⟩
  unfold platformEvs
  split <;> rfl

theorem ledBody_logsErr (q : Profile) (s : State) : LogsErr (ledBody q s).1.err? s (ledBody q s).2 := by
  unfold ledBody
  cases q.init.bind InitBinding.led with
  | none => exact .of_log_eq rfl
  | some l =>
    have hpair := ledProfile_logsErr s
    dsimp only
    split
    · exact hpair
    · obtain ⟨ls, evs, hran, -⟩ := ran_ledSteps l (ledProfile s).1 (ledProfile s).2
      exact hpair.trans ⟨evs, hran.log, hran.err⟩

/-! ## Every rule but INIT's (R212, R219) -/

/-- The result is the first failure among the transactions logged, and it is no `ledStatus`. -/
structure ReportsBus (s : State) (p : Result × State) : Prop where
  bus : LogsErr p.1.busErr? s p.2
  led : p.1.ledErr? = none

/-- The same, and the result is not `NotFound` (R213). -/
structure Reports (s : State) (p : Result × State) : Prop extends ReportsBus s p where
  found : p.1 ≠ .notFound

theorem Reports.ofReply {x : Reply Unit} {s t : State} (h : LogsErr x.err? s t) : Reports s (x.result, t) := by
  cases x <;> exact ⟨⟨h, rfl⟩, by simp [Reply.result]⟩

theorem Reports.ofValueReply {x : Reply Reg} {s t : State} (h : LogsErr x.err? s t) :
    Reports s (x.valueResult, t) := by
  cases x <;> exact ⟨⟨h, rfl⟩, by simp [Reply.valueResult]⟩

theorem refuse_reports (r : Reason) (s : State) : Reports s (refuse r s) :=
  ⟨⟨.of_log_eq rfl, rfl⟩, by simp [refuse]⟩

theorem resolveRule_reportsBus (id : Ident) (s : State) : ReportsBus s (resolveRule id s) := by
  unfold resolveRule
  cases s.core.bound with
  | some i => exact (refuse_reports .rebind s).toReportsBus
  | none => cases resolveIndex s.cfg.profiles id <;> exact ⟨.of_log_eq rfl, rfl⟩

theorem configIntrRule_reports (en : Bool) (q : Profile) (s : State) : Reports s (configIntrRule en q s) := by
  unfold configIntrRule
  cases q.intrEnable with
  | none => exact ⟨⟨.of_log_eq rfl, rfl⟩, by simp⟩
  | some b =>
    have hwrite := (runs_accessAt b.page (runs_memWrite b.reg (ierValue b en))).logsErr s
    dsimp only
    split <;> rename_i heq <;> rw [heq] at hwrite <;> exact ⟨⟨hwrite, rfl⟩, by simp⟩

theorem ackIntrRule_reports (q : Profile) (s : State) : Reports s (ackIntrRule q s) := by
  unfold ackIntrRule
  cases q.intrAck with
  | none => exact ⟨⟨.of_log_eq rfl, rfl⟩, by simp⟩
  | some b =>
    have hread := (runs_accessAt b.page (runs_memRead b.reg)).logsErr s
    dsimp only
    split <;> rename_i heq <;> rw [heq] at hread <;> exact ⟨⟨hread, rfl⟩, by simp⟩

theorem suspendRule_reports (q : Profile) (s : State) : Reports s (suspendRule q s) := by
  have hassist := (runs_assistWrite q.suspend).logsErr s
  unfold suspendRule
  split <;> rename_i heq <;> rw [heq] at hassist
  · exact ⟨⟨hassist, rfl⟩, by simp⟩
  · rename_i s'
    have hcall := hassist.trans (genericCall_logsErr .suspend s')
    split <;> rename_i heq' <;> rw [heq'] at hcall <;> exact ⟨⟨hcall, rfl⟩, by simp⟩

theorem resumeRule_reports (q : Profile) (s : State) : Reports s (resumeRule q s) := by
  have hcall := genericCall_logsErr .resume s
  unfold resumeRule
  split <;> rename_i heq <;> rw [heq] at hcall
  · exact ⟨⟨hcall, rfl⟩, by simp⟩
  · exact .ofReply (hcall.trans ((runs_assistWrite q.resume).logsErr _))

theorem pagedRule_reports {s : State} {p : Result × State} (binding : Bool) (h : Reports s p) :
    Reports s (if binding then p else refuse .noPagedBinding s) := by
  cases binding with
  | true => exact h
  | false => exact refuse_reports .noPagedBinding s

/-- A command that needs a bound profile reports as its rule does: its refusal logs nothing before the `Cmd` event. -/
theorem boundCommand_reports {i : Instr} {rule : Profile → State → Result × State} {s t : State}
    (h : boundCommand i rule s = .next t) (hrule : ∀ q, Reports s (rule q s)) :
    ∃ p, t = finish (encode i) p ∧ Reports s p := by
  obtain rfl | ⟨q, -, rfl⟩ := boundCommand_cases h
  · exact ⟨_, rfl, refuse_reports .unbound s⟩
  · exact ⟨_, rfl, hrule q⟩

theorem boundCommand_of_unbound {i : Instr} {rule : Profile → State → Result × State} {s : State}
    (h : s.profile? = none) : boundCommand i rule s = .next (finish (encode i) (refuse .unbound s)) := by
  rw [boundCommand, h]

theorem exec_reports {i : Instr} {s t : State} (h : exec i s = .next t) (hres : ∀ id, i ≠ .resolve id)
    (hinit : ∀ m, i ≠ .init m) : ∃ p, t = finish (encode i) p ∧ Reports s p := by
  cases i with
  | read a =>
    rw [exec, execRead] at h
    exact boundCommand_reports h fun _ => .ofValueReply ((runs_memRead a).logsErr s)
  | write a v =>
    rw [exec, execWrite] at h
    exact boundCommand_reports h fun _ => .ofReply ((runs_memWrite a v).logsErr s)
  | readPaged page a =>
    rw [exec, execReadPaged] at h
    refine boundCommand_reports h fun q => pagedRule_reports q.pagedRead ?_
    exact .ofValueReply ((runs_pagedAccess page (runs_memRead a)).logsErr s)
  | writePaged page a v =>
    rw [exec, execWritePaged] at h
    refine boundCommand_reports h fun q => pagedRule_reports q.pagedWrite ?_
    exact .ofReply ((runs_pagedAccess page (runs_memWrite a v)).logsErr s)
  | resolve id => exact absurd rfl (hres id)
  | configIntr en => exact boundCommand_reports h fun q => configIntrRule_reports en q s
  | ackIntr => exact boundCommand_reports h fun q => ackIntrRule_reports q s
  | init m => exact absurd rfl (hinit m)
  | configTiming mode =>
    rw [exec, execConfigTiming] at h
    exact boundCommand_reports h fun q => .ofReply ((runs_timingBody q mode).logsErr s)
  | configLed =>
    rw [exec, execConfigLed] at h
    exact boundCommand_reports h fun q => .ofReply (ledBody_logsErr q s)
  | suspend => exact boundCommand_reports h fun q => suspendRule_reports q s
  | resume => exact boundCommand_reports h fun q => resumeRule_reports q s

theorem exec_reportsBus {i : Instr} {s t : State} (h : exec i s = .next t) (hinit : ∀ m, i ≠ .init m) :
    ∃ p, t = finish (encode i) p ∧ ReportsBus s p := by
  by_cases hi : ∃ id, i = .resolve id
  · obtain ⟨id, rfl⟩ := hi
    cases (exec_resolve rfl).symm.trans h
    exact ⟨_, rfl, resolveRule_reportsBus id s⟩
  · obtain ⟨p, hp, hrep⟩ := exec_reports h (fun id hid => hi ⟨id, hid⟩) hinit
    exact ⟨p, hp, hrep.toReportsBus⟩

/-! ## INIT (R187, R212) -/

/-- What INIT reports of its timing events and of its LED events. -/
structure InitReports (timing led : List Ev) (r : Result) : Prop where
  bus : r.busErr? = firstBusErr timing
  ledStatus : r.ledErr? = firstBusErr led
  stops : firstBusErr timing ≠ none → led = []

/-- The rule of INIT logs what the timing step logs and, where that succeeded, what the LED step logs. -/
theorem initRule_reports (mode : IfMode) (q : Profile) (s : State) :
    ∃ timing led, (timingBody q mode s).2.log = s.log ++ timing
      ∧ (initRule mode q s).2.log = s.log ++ (timing ++ led) ∧ InitReports timing led (initRule mode q s).1 := by
  unfold initRule
  cases hq : q.init with
  | none =>
    have htiming : timingBody q mode s = (.ok (), s) := by simp only [timingBody, hq, Option.bind_none]
    exact ⟨[], [], by simp [htiming], by simp, rfl, rfl, fun _ => rfl⟩
  | some b =>
    obtain ⟨timing, hlog, herr⟩ := (runs_timingBody q mode).logsErr s
    refine ⟨timing, ?_⟩
    dsimp only
    split <;> rename_i heq <;> rw [heq] at hlog herr ⊢
    · exact ⟨[], hlog, by simpa using hlog, herr.symm, rfl, fun _ => rfl⟩
    · rename_i s'
      obtain ⟨led, hled, hlederr⟩ := ledBody_logsErr q s'
      refine ⟨led, hlog, by rw [hled, hlog, List.append_assoc], herr.symm, ?_, fun hne => absurd herr hne⟩
      rw [hlederr]
      cases (ledBody q s').1 <;> rfl

theorem initRule_ne_notFound (mode : IfMode) (q : Profile) (s : State) : (initRule mode q s).1 ≠ .notFound := by
  unfold initRule
  split
  · simp
  · split <;> simp

/-- INIT and CONFIG_TIMING on the same state: both are refused `Unbound`, or INIT begins with the other's events. -/
theorem exec_init_reports {mode : IfMode} {s t : State} (h : exec (.init mode) s = .next t) :
    ∃ u p timing led r', exec (.configTiming mode) s = .next u ∧ Logged (.configTiming mode) timing r' s u
      ∧ t = finish (encode (.init mode)) p ∧ p.2.log = s.log ++ (timing ++ led) ∧ InitReports timing led p.1 := by
  cases hp : s.profile? with
  | none =>
    cases (boundCommand_of_unbound hp).symm.trans h
    have htiming : exec (.configTiming mode) s
        = .next (finish (encode (.configTiming mode)) (refuse .unbound s)) := by
      rw [exec, execConfigTiming, boundCommand_of_unbound hp]
    exact ⟨_, refuse .unbound s, [], [], _, htiming, logged_finish (by simp [refuse]), rfl, by simp [refuse],
      rfl, rfl, fun _ => rfl⟩
  | some q =>
    cases (exec_init hp mode).symm.trans h
    obtain ⟨timing, led, htiming, hlog, hrep⟩ := initRule_reports mode q s
    exact ⟨_, _, timing, led, _, exec_configTiming hp mode, logged_finish htiming, rfl, hlog, hrep⟩

/-- The events and the result that a command's log shows are those of its rule. -/
theorem logged_finish_unique {i : Instr} {s : State} {p : Result × State} {l l' : List Ev} {r : Result}
    (hlog : p.2.log = s.log ++ l') (h : Logged i l r s (finish (encode i) p)) : l = l' ∧ r = p.1 := by
  rw [Logged, finish_log, hlog] at h
  obtain ⟨hevs, hcmd⟩ := List.append_inj' h rfl
  exact ⟨(List.append_cancel_left hevs).symm, by simpa using hcmd.symm⟩

/-- Settles O35: `exec_reportsBus` for every command but INIT and `exec_init_reports` for INIT; a log shows one list of
events and one result. -/
theorem busErrorIsTheFirstFailedTransaction : Obligations.BusErrorIsTheFirstFailedTransaction := by
  intro i s t l r e h hl
  refine ⟨fun hinit => ?_, ?_⟩
  · obtain ⟨p, rfl, ⟨l', hlog, hbus⟩, hled⟩ := exec_reportsBus h hinit
    obtain ⟨rfl, rfl⟩ := logged_finish_unique hlog hl
    rw [hbus, Result.busErr?_eq_some_iff, ne_eq, ← Result.ledErr?_eq_some_iff, hled]
    exact ⟨Iff.rfl, by simp⟩
  · rintro m rfl
    obtain ⟨u, p, timing, led, r', hu, hul, rfl, hlog, hrep⟩ := exec_init_reports h
    obtain ⟨rfl, rfl⟩ := logged_finish_unique hlog hl
    refine ⟨u, timing, led, r', hu, hul, rfl, ?_, hrep.stops, ?_⟩
    · rw [← Result.busErr?_eq_some_iff, hrep.bus]
    · rw [← Result.ledErr?_eq_some_iff, hrep.ledStatus]
      refine ⟨fun hfail => ⟨?_, hfail⟩, And.right⟩
      by_contra hne
      rw [hrep.stops hne] at hfail
      cases hfail

/-! ## `NotFound` (R213) -/

theorem exec_lastResult_ne_notFound {i : Instr} {s t : State} (h : exec i s = .next t)
    (hres : ∀ id, i ≠ .resolve id) : t.lastResult ≠ some .notFound := by
  by_cases hi : ∃ m, i = .init m
  · obtain ⟨m, rfl⟩ := hi
    obtain rfl | ⟨q, -, rfl⟩ := boundCommand_cases h
    · simp [refuse]
    · simpa using initRule_ne_notFound m q s
  · obtain ⟨p, rfl, hrep⟩ := exec_reports h hres fun m hm => hi ⟨m, hm⟩
    simpa using hrep.found

/-- Of the three ways RESOLVE ends, the one with `NotFound` is that of an unbound chip and no match. -/
theorem resolveRule_eq_notFound {id : Ident} {s : State} (h : (resolveRule id s).1 = .notFound) :
    s.core.bound = none ∧ resolveIndex s.cfg.profiles id = none := by
  cases hb : s.core.bound with
  | some b =>
    rw [resolveRule_of_bound hb] at h
    cases h
  | none =>
    cases hm : resolveIndex s.cfg.profiles id with
    | some k =>
      rw [resolveRule_of_match hb hm] at h
      cases h
    | none => exact ⟨rfl, rfl⟩

/-- Settles O20: no other command ends with it, and the RESOLVE that does leaves the state as it was. -/
theorem notFoundIsOnlyResolves : Obligations.NotFoundIsOnlyResolves := by
  intro i s t h hr
  by_cases hi : ∃ id, i = .resolve id
  · obtain ⟨id, rfl⟩ := hi
    cases (exec_resolve rfl).symm.trans h
    obtain ⟨hb, hm⟩ := resolveRule_eq_notFound (by simpa using hr)
    rw [resolveRule_of_noMatch hb hm]
    exact ⟨id, rfl, fun q hq => Profile.matchesId_eq_false_iff.mp (resolveIndex_eq_none_iff.mp hm q hq),
      logged_finish (i := .resolve id) (by simp), hb, rfl⟩
  · exact absurd hr (exec_lastResult_ne_notFound h fun id hid => hi ⟨id, hid⟩)

/-! ## An unavailable platform identity (R214) -/

/-- The pair derived from no name is (0, 0), for which the LED step makes no transaction. -/
theorem ledBody_of_unavailable {q : Profile} {l : LedBinding} {s : State} (hl : q.init.bind InitBinding.led = some l)
    (hled : s.core.led = none) (hplat : s.platformAhead = .unavailable) :
    ledBody q s = (.ok (), (s.drawPlatform.2.addEv (.plat .unavailable)).setLed (0x0000, 0x0000)) := by
  simp only [ledBody, hl, ledProfile_none hled, hplat, lookupPlatform, and_self, if_true]

/-- Settles O49: the whole LED step is the query and the stored pair (`ledBody_of_unavailable`). -/
theorem unavailablePlatformWritesNothing : Obligations.UnavailablePlatformWritesNothing := by
  intro s q l hq hl hled hplat
  refine ⟨_, exec_configLed hq, ?_⟩
  rw [ledBody_of_unavailable hl hled hplat]
  exact ⟨logged_finish (i := .configLed) (by simp), rfl, rfl⟩

end Sys2Proof.Machine

/-! # PS at a command boundary (40_register_access.md R117, 70_reset_and_hazards.md R247, R254)

Every run that moves PS ends with the restoring write of page 0. So it leaves page 0, or that write was lost: then the
run failed, and nothing of its command follows it. This is said once for `try … finally` with the restore
(`tryFinally_restorePage_psOutcome`), carried to each rule, to the step, and by induction to the runs of R254. -/

namespace Sys2Proof.Machine

/-! ## A lost restore among the events of a rule -/

/-- From `s` to `t` the events `l` were logged, and the answers ahead moved by the transactions among them. -/
structure LeadsBy (l : List Ev) (s t : State) : Prop where
  cfg : t.cfg = s.cfg
  log : t.log = s.log ++ l
  bus : ∀ k, t.busAhead k = s.busAhead (busCount l + k)

theorem Ran.leadsBy {α : Type} {rs qs : List (Reg × Reg)} {l : List Ev} {m : Run α} {s : State}
    (h : Ran rs qs l m s) : LeadsBy l s (m s).2 :=
  ⟨h.tx.cfg, h.log, fun k => by rw [h.tx.bus, busCount_eq_length h.bus]⟩

theorem Runs.leadsBy {α : Type} {n : Nat} {m : Run α} (h : Runs n m) (s : State) : ∃ l, LeadsBy l s (m s).2 := by
  obtain ⟨rs, qs, l, hran, -⟩ := h s
  exact ⟨l, hran.leadsBy⟩

theorem busCount_platformEvs (s : State) : busCount (platformEvs s) = 0 := by
  unfold platformEvs
  split <;> rfl

theorem ledProfile_leadsBy (s : State) : LeadsBy (platformEvs s) s (ledProfile s).2 := by
  obtain ⟨-, -, hlog, -, hcfg, -, -, -, hbus, -⟩ := ledProfile_eq s
  exact ⟨hcfg, hlog, fun k => by rw [hbus, busCount_platformEvs, Nat.zero_add]⟩

theorem busCount_append (l l' : List Ev) : busCount (l ++ l') = busCount l + busCount l' := by
  rw [busCount, List.filter_append, List.length_append, busCount, busCount]

/-- The last event from `s` to `t` is a write of page 0 to PS that failed and took no effect (R247). -/
def LostRestore (s t : State) : Prop :=
  ∃ l e, t.log = s.log ++ (l ++ [.busW s.cfg.pageSel 0x0000 (.err e)]) ∧ s.busAhead (busCount l) = .err e false

theorem LostRestore.after {l : List Ev} {s t u : State} (hlost : LostRestore t u) (hlead : LeadsBy l s t) :
    LostRestore s u := by
  obtain ⟨l', e, hlog, hbus⟩ := hlost
  refine ⟨l ++ l', e, ?_, ?_⟩
  · rw [hlog, hlead.log, hlead.cfg]
    simp
  · rw [busCount_append, ← hlead.bus]
    exact hbus

/-- At the end of a command that is no plain WRITE, a lost restore is the one of R254. -/
theorem LostRestore.restoreLost {s : State} {p : Result × State} {w : Word} (hlost : LostRestore s p.2)
    (hw : ∀ a v, decode w ≠ some (.write a v)) : RestoreLost s (finish w p) := by
  obtain ⟨l, e, hlog, hbus⟩ := hlost
  exact ⟨l, e, w, p.1, by rw [finish_log, hlog]; simp, hbus, hw⟩

/-! ## What a run leaves in PS -/

/-- PS is 0 in `t`, or the last event from `s` to it is a lost restore. -/
def LeavesPageZero (s t : State) : Prop := t.PsClean ∨ LostRestore s t

/-- A run from `s` leaves page 0; or it failed, and its last event is a lost restore. -/
def PsOutcome {α : Type} (s : State) (p : Reply α × State) : Prop :=
  p.2.PsClean ∨ p.1.err? ≠ none ∧ LostRestore s p.2

theorem PsOutcome.psClean_of_ok {α : Type} {s : State} {p : Reply α × State} {v : α} (h : PsOutcome s p)
    (hv : p.1 = .ok v) : p.2.PsClean := by
  obtain hclean | ⟨hfail, -⟩ := h
  · exact hclean
  · exact absurd (by rw [hv]; rfl) hfail

theorem PsOutcome.leavesPageZero {α : Type} {s : State} {p : Reply α × State} (h : PsOutcome s p) :
    LeavesPageZero s p.2 := h.imp_right And.right

theorem PsOutcome.after {α : Type} {l : List Ev} {s t : State} {p : Reply α × State} (h : PsOutcome t p)
    (hlead : LeadsBy l s t) : PsOutcome s p := h.imp_right fun ⟨hfail, hlost⟩ => ⟨hfail, hlost.after hlead⟩

theorem landed_eq_false_iff {b : BusAnswer} : landed b = false ↔ ∃ e, b = .err e false := by
  cases b <;> simp [landed]

/-- R117 and R247: whatever the body did to PS, the restore leaves page 0, or it was lost and fails the whole. -/
theorem tryFinally_restorePage_psOutcome {α : Type} {rs qs : List (Reg × Reg)} {l : List Ev} {body : Run α} {s : State}
    (h : Ran rs qs l body s) : PsOutcome s (tryFinally body restorePage s) := by
  have hstate : (tryFinally body restorePage s).2 = (restorePage (body s).2).2 := by rw [tryFinally_eq]
  cases hland : landed ((body s).2.busAhead 0) with
  | true =>
    refine .inl ?_
    rw [hstate, State.PsClean, restorePage_ps, if_pos hland]
  | false =>
    obtain ⟨e, hb⟩ := landed_eq_false_iff.mp hland
    have hran := h.tryFinally (ran_restorePage (body s).2)
    have hlog := hran.log
    rw [h.tx.cfg, hb, answerReply_err] at hlog
    refine .inr ⟨?_, l, e, hlog, by rw [← hb, h.leadsBy.bus, Nat.add_zero]⟩
    rw [← hran.err, firstBusErr_append, hb]
    cases firstBusErr l <;> simp [firstBusErr, Ev.busErr?]

/-- A lost restore of the first of two runs ends both; else the second one decides. -/
theorem PsOutcome.andThen {α β : Type} {l : List Ev} {m : Run α} {f : α → Run β} {s : State}
    (hlead : LeadsBy l s (m s).2) (hm : PsOutcome s (m s)) (hf : ∀ v, PsOutcome (m s).2 (f v (m s).2)) :
    PsOutcome s (m.andThen f s) := by
  cases hv : (m s).1 with
  | ok v =>
    rw [andThen_ok hv]
    exact (hf v).after hlead
  | err e =>
    rw [andThen_err hv]
    exact hm.imp_right fun ⟨_, hlost⟩ => ⟨by simp, hlost⟩

theorem pagedAccess_psOutcome {α : Type} {n : Nat} {op : Run α} (page : Reg) (hop : Runs n op) (s : State) :
    PsOutcome s (pagedAccess page op s) := by
  cases h0 : s.busAhead 0 with
  | ok =>
    obtain ⟨rs, qs, l, hran, -⟩ := hop (selectPage page s).2
    exact tryFinally_restorePage_psOutcome (ran_selectThen h0 hran)
  | err e took => exact tryFinally_restorePage_psOutcome (ran_selectThen_err op h0)

/-- A plain access that keeps PS, or a paged one. -/
theorem accessAt_psOutcome {α : Type} {n : Nat} {op : Run α} {s : State} (page : Option Reg) (hop : Runs n op)
    (hplain : (op s).2.PsClean) : PsOutcome s (accessAt page op s) := by
  cases page with
  | some pg => exact pagedAccess_psOutcome pg hop s
  | none => exact .inl hplain

theorem memRead_psClean {s : State} (a : Reg) (h : s.PsClean) : (memRead a s).2.PsClean := (memRead_ps s a).trans h

/-- A plain write that is not to PS, or one of page 0. -/
theorem memWrite_psClean {s : State} {a v : Reg} (h : s.PsClean) (ha : a = s.cfg.pageSel → v = 0x0000) :
    (memWrite a v s).2.PsClean := by
  rw [State.PsClean, memWrite_ps]
  split
  · rename_i hps
    exact ha hps.2
  · exact h

theorem genericCall_psClean {s : State} (kind : GenKind) (h : s.PsClean) : (genericCall kind s).2.PsClean := by
  rw [genericCall_eq]
  exact (afterGeneric_frame s).ps.trans h

theorem assistWrite_psClean {s : State} {d : Option PdBinding} (h : s.PsClean)
    (hd : ∀ b, d = some b → b.reg ≠ s.cfg.pageSel) : (assistWrite d s).2.PsClean := by
  cases d with
  | none => exact h
  | some b => exact memWrite_psClean h fun hb => absurd hb (hd b rfl)

theorem timingBody_psOutcome (q : Profile) (mode : IfMode) {s : State} (h : s.PsClean) :
    PsOutcome s (timingBody q mode s) := by
  cases hb : q.init.bind InitBinding.timing with
  | none =>
    simp only [timingBody, hb]
    exact .inl h
  | some b =>
    rw [timingBody_of_binding mode s hb]
    obtain ⟨l, hlead⟩ := (runs_pagedAccess b.page (runs_memRead b.reg)).leadsBy s
    exact .andThen hlead (pagedAccess_psOutcome b.page (runs_memRead b.reg) s)
      fun old => pagedAccess_psOutcome b.page (runs_memWrite b.reg (timingValue s.cfg b mode old)) _

theorem ledSteps_psOutcome (l : LedBinding) (pair : Reg × Reg) (s : State) : PsOutcome s (ledSteps l pair s) := by
  obtain ⟨ls, evs, hran, -⟩ := ran_writeAll (ledWrites s.cfg l pair) s
  exact tryFinally_restorePage_psOutcome hran

theorem ledBody_psOutcome (q : Profile) {s : State} (h : s.PsClean) : PsOutcome s (ledBody q s) := by
  cases hl : q.init.bind InitBinding.led with
  | none =>
    rw [ledBody_of_no_binding s hl]
    exact .inl h
  | some l =>
    obtain ⟨-, -, -, hdev, -⟩ := ledProfile_eq s
    simp only [ledBody, hl]
    split
    · exact .inl ((congrArg DevState.ps hdev).trans h)
    · exact (ledSteps_psOutcome l _ _).after (ledProfile_leadsBy s)

/-! ## What a rule leaves in PS -/

theorem resolveRule_psClean (id : Ident) {s : State} (h : s.PsClean) : (resolveRule id s).2.PsClean := by
  unfold resolveRule
  cases s.core.bound with
  | some i => exact h
  | none => cases resolveIndex s.cfg.profiles id <;> exact h

theorem configIntrRule_leavesPageZero (en : Bool) {q : Profile} {s : State} (h : s.PsClean)
    (hreg : ∀ b, q.intrEnable = some b → b.reg ≠ s.cfg.pageSel) : LeavesPageZero s (configIntrRule en q s).2 := by
  unfold configIntrRule
  cases hb : q.intrEnable with
  | none => exact .inl h
  | some b =>
    have hplain := memWrite_psClean (v := ierValue b en) h fun hps => absurd hps (hreg b hb)
    have hwrite := (accessAt_psOutcome b.page (runs_memWrite b.reg (ierValue b en)) hplain).leavesPageZero
    dsimp only
    split <;> rename_i heq <;> rw [heq] at hwrite <;> exact hwrite

theorem ackIntrRule_leavesPageZero (q : Profile) {s : State} (h : s.PsClean) :
    LeavesPageZero s (ackIntrRule q s).2 := by
  unfold ackIntrRule
  cases q.intrAck with
  | none => exact .inl h
  | some b =>
    have hread := (accessAt_psOutcome b.page (runs_memRead b.reg) (memRead_psClean b.reg h)).leavesPageZero
    dsimp only
    split <;> rename_i heq <;> rw [heq] at hread <;> exact hread

/-- The LED step runs only after a timing step that succeeded, and so from page 0. -/
theorem initRule_leavesPageZero (mode : IfMode) (q : Profile) {s : State} (h : s.PsClean) :
    LeavesPageZero s (initRule mode q s).2 := by
  unfold initRule
  cases q.init with
  | none => exact .inl h
  | some b =>
    have htiming := timingBody_psOutcome q mode h
    obtain ⟨l, hlead⟩ := (runs_timingBody q mode).leadsBy s
    dsimp only
    split <;> rename_i heq <;> rw [heq] at htiming hlead
    · exact htiming.leavesPageZero
    · exact ((ledBody_psOutcome q (htiming.psClean_of_ok rfl)).after hlead).leavesPageZero

theorem suspendRule_psClean {q : Profile} {s : State} (h : s.PsClean)
    (hreg : ∀ d, q.suspend = some d → d.reg ≠ s.cfg.pageSel) : (suspendRule q s).2.PsClean := by
  have hassist := assistWrite_psClean h hreg
  unfold suspendRule
  split <;> rename_i heq <;> rw [heq] at hassist
  · exact hassist
  · have hcall := genericCall_psClean .suspend hassist
    split <;> rename_i heq' <;> rw [heq'] at hcall <;> exact hcall

theorem resumeRule_psClean {q : Profile} {s : State} (h : s.PsClean)
    (hreg : ∀ d, q.resume = some d → d.reg ≠ s.cfg.pageSel) : (resumeRule q s).2.PsClean := by
  have hcall := genericCall_psClean .resume h
  have hcfg := (genericCall_ruleKeeps .resume s).cfg
  unfold resumeRule
  split <;> rename_i heq <;> rw [heq] at hcall hcfg
  · exact hcall
  · exact assistWrite_psClean hcall (hcfg ▸ hreg)

theorem pagedRule_leavesPageZero {s : State} {p : Result × State} (binding : Bool) (h : s.PsClean)
    (hp : LeavesPageZero s p.2) : LeavesPageZero s (if binding then p else refuse .noPagedBinding s).2 := by
  cases binding with
  | true => exact hp
  | false => exact .inl h

/-! ## What a command leaves in PS -/

/-- The command ends in a state that leaves page 0 or lost its restore. -/
def FinishesAtPageZero (w : Word) (s t : State) : Prop := ∃ p, t = finish w p ∧ LeavesPageZero s p.2

theorem boundCommand_finishesAtPageZero {i : Instr} {rule : Profile → State → Result × State} {s t : State}
    (h : boundCommand i rule s = .next t) (hs : s.PsClean)
    (hrule : ∀ q, s.profile? = some q → LeavesPageZero s (rule q s).2) : FinishesAtPageZero (encode i) s t := by
  obtain rfl | ⟨q, hq, rfl⟩ := boundCommand_cases h
  · exact ⟨_, rfl, .inl hs⟩
  · exact ⟨_, rfl, hrule q hq⟩

theorem exec_finishesAtPageZero {i : Instr} {s t : State} (ha : s.cfg.accepted = true) (hs : s.PsClean)
    (hw : ∀ a v, i ≠ .write a v) (h : exec i s = .next t) : FinishesAtPageZero (encode i) s t := by
  cases i with
  | read a =>
    rw [exec, execRead] at h
    exact boundCommand_finishesAtPageZero h hs fun _ _ => .inl (memRead_psClean a hs)
  | write a v => exact absurd rfl (hw a v)
  | readPaged page a =>
    rw [exec, execReadPaged] at h
    refine boundCommand_finishesAtPageZero h hs fun q _ => pagedRule_leavesPageZero q.pagedRead hs ?_
    exact (pagedAccess_psOutcome page (runs_memRead a) s).leavesPageZero
  | writePaged page a v =>
    rw [exec, execWritePaged] at h
    refine boundCommand_finishesAtPageZero h hs fun q _ => pagedRule_leavesPageZero q.pagedWrite hs ?_
    exact (pagedAccess_psOutcome page (runs_memWrite a v) s).leavesPageZero
  | resolve id =>
    cases (exec_resolve rfl).symm.trans h
    exact ⟨_, rfl, .inl (resolveRule_psClean id hs)⟩
  | configIntr en =>
    exact boundCommand_finishesAtPageZero h hs fun q hq =>
      configIntrRule_leavesPageZero en hs fun _ => ierReg_ne hq ha
  | ackIntr => exact boundCommand_finishesAtPageZero h hs fun q _ => ackIntrRule_leavesPageZero q hs
  | init mode => exact boundCommand_finishesAtPageZero h hs fun q _ => initRule_leavesPageZero mode q hs
  | configTiming mode =>
    rw [exec, execConfigTiming] at h
    exact boundCommand_finishesAtPageZero h hs fun q _ => (timingBody_psOutcome q mode hs).leavesPageZero
  | configLed =>
    rw [exec, execConfigLed] at h
    exact boundCommand_finishesAtPageZero h hs fun q _ => (ledBody_psOutcome q hs).leavesPageZero
  | suspend =>
    exact boundCommand_finishesAtPageZero h hs fun q hq =>
      .inl (suspendRule_psClean hs fun _ => suspendReg_ne hq ha)
  | resume =>
    exact boundCommand_finishesAtPageZero h hs fun q hq =>
      .inl (resumeRule_psClean hs fun _ => resumeReg_ne hq ha)

/-- R254, condition 3: a plain WRITE that is not of a nonzero page to PS leaves page 0. -/
theorem exec_write_psClean {a v : Reg} {s t : State} (hs : s.PsClean) (hv : a = s.cfg.pageSel → v = 0x0000)
    (h : exec (.write a v) s = .next t) : t.PsClean := by
  rw [exec, execWrite] at h
  obtain rfl | ⟨q, -, rfl⟩ := boundCommand_cases h
  · exact hs
  · exact memWrite_psClean hs hv

/-- R247: a command, issued as a word that decodes to it, leaves page 0 or lost its restore. -/
theorem exec_psClean_or_restoreLost {i : Instr} {s t : State} (ha : s.cfg.accepted = true) (hs : s.PsClean)
    (hi : ∀ v, i = .write s.cfg.pageSel v → v = 0x0000) (hd : decode (encode i) = some i) (h : exec i s = .next t) :
    t.PsClean ∨ RestoreLost s t := by
  by_cases hw : ∃ a v, i = .write a v
  · obtain ⟨a, v, rfl⟩ := hw
    exact .inl (exec_write_psClean hs (fun hps => hi v (by rw [hps])) h)
  · push Not at hw
    obtain ⟨p, rfl, hp⟩ := exec_finishesAtPageZero ha hs hw h
    refine hp.imp_right fun hlost => hlost.restoreLost fun a v hav => hw a v ?_
    exact Option.some.inj (hd.symm.trans hav)

/-! ## What a step and a run leave in PS (R254) -/

theorem step_psClean_or_restoreLost {s t : State} (ha : s.cfg.accepted = true) (hs : s.PsClean)
    (hkeeps : KeepsPageSelect s) (h : step s = .next t) : t.PsClean ∨ RestoreLost s t := by
  cases hc : s.commands with
  | nil =>
    rw [step_idle hc] at h
    cases h
    exact .inl hs
  | cons w rest =>
    cases hd : decode w with
    | none =>
      cases (step_of_decode_none hc hd).symm.trans h
      exact .inl hs
    | some i =>
      have hexec : exec i { s with commands := rest } = .next t := by
        rw [← h]
        simp [step, fetch, hc, hd]
      have hw := encode_of_decode hd
      subst hw
      exact exec_psClean_or_restoreLost (s := { s with commands := rest }) ha hs
        (fun v hv => hkeeps _ rest v hc (hv ▸ hd)) hd hexec

theorem CleanRun.cfg {s t : State} (h : CleanRun s t) : t.cfg = s.cfg := by
  induction h with
  | start => rfl
  | hosts ws _ ih => exact ih
  | step _ _ hstep _ ih => exact (step_cfg hstep).trans ih

theorem CleanRun.psClean {s t : State} (ha : s.cfg.accepted = true) (hs : s.PsClean) (h : CleanRun s t) :
    t.PsClean := by
  induction h with
  | start => exact hs
  | hosts ws _ ih => exact ih
  | step hrun hkeeps hstep hnotLost ih =>
    exact (step_psClean_or_restoreLost (hrun.cfg.symm ▸ ha) ih hkeeps hstep).resolve_right hnotLost

/-- Settles O59, by induction on the run: a step that neither writes a nonzero page to PS by a plain WRITE nor loses its
restore keeps PS at 0 (`step_psClean_or_restoreLost`), and at PS 0 a banked address is on the default page. -/
theorem psIsZeroAtEveryBoundary : Obligations.PsIsZeroAtEveryBoundary := by
  intro s t ha hs hrun
  have hps : t.dev.ps = 0x0000 := hrun.psClean ha hs
  refine ⟨hps, fun a hbanked => ?_⟩
  rw [State.loc, hps]
  exact locAt_of_isBanked 0x0000 hbanked

end Sys2Proof.Machine


/-! # The encoding, and the step (30_encoding.md R82 to R97, 40_register_access.md R110)

Every command's word selects the command's own row (`OpcodeRow`), and the row's fields of that word are the operands. -/

namespace Sys2Proof

open Laws

/-! ## A command's word is read by its own row -/

theorem opcodeRow (i : Instr) : OpcodeRow.Statement i := by
  cases i with
  | read addr => exact OpcodeRow.read addr
  | write addr value => exact OpcodeRow.write addr value
  | readPaged page addr => exact OpcodeRow.readPaged page addr
  | writePaged page addr value => exact OpcodeRow.writePaged page addr value
  | resolve id => exact OpcodeRow.resolve id
  | configIntr en => exact OpcodeRow.configIntr en
  | ackIntr => exact OpcodeRow.ackIntr
  | init mode => exact OpcodeRow.init mode
  | configTiming mode => exact OpcodeRow.configTiming mode
  | configLed => exact OpcodeRow.configLed
  | suspend => exact OpcodeRow.suspend
  | resume => exact OpcodeRow.resume

/-! ## The fields of a command's word (R82 to R86) -/

/-- The lowest 16 bits of a word are its `value` field. -/
theorem valueField_append (x : BitVec 48) (value : Reg) : valueField (x ++ value) = value := field_last x value

/-- The 16 bits above the lowest 16 are its `addr` field. -/
theorem addrField_append (x : BitVec 32) (addr value : Reg) : addrField (x ++ addr ++ value) = addr := by
  rw [addrField, field_skip (x ++ addr) value 0 16, field_last x addr]

/-- The 16 bits above those are its `page` field. -/
theorem pageField_append (x : BitVec 16) (page addr value : Reg) : pageField (x ++ page ++ addr ++ value) = page := by
  rw [pageField, field_skip (x ++ page ++ addr) value 16 16, field_skip (x ++ page) addr 0 16, field_last x page]

theorem idField_append (x : BitVec 32) (id : Ident) : idField (x ++ id) = id := field_last x id

theorem modeField_append (x : BitVec 56) (code : BitVec 8) : modeField (x ++ code) = code := field_last x code

theorem enField_append (x : BitVec 63) (en : Bool) : enField (x ++ BitVec.ofBool en) = en := by
  rw [enField, BitVec.getLsbD_append, if_pos Nat.one_pos, BitVec.getLsbD_ofBool, decide_eq_true rfl, Bool.true_and]

/-- The command's own row reads every operand back from the command's word. -/
theorem instr_encode (i : Instr) : (opcodeOf i).instr (encode i) = some i := by
  cases i with
  | read addr => exact congrArg (fun a => some (Instr.read a)) (addrField_append _ addr _)
  | write addr value =>
    exact congrArg₂ (fun a v => some (Instr.write a v)) (addrField_append _ addr value) (valueField_append _ value)
  | readPaged page addr =>
    exact congrArg₂ (fun p a => some (Instr.readPaged p a)) (pageField_append _ page addr _) (addrField_append _ addr _)
  | writePaged page addr value =>
    have hpage := pageField_append (0x04#8 ++ 0#8) page addr value
    have haddr := addrField_append (0x04#8 ++ 0#8 ++ page) addr value
    have hvalue := valueField_append (0x04#8 ++ 0#8 ++ page ++ addr) value
    simp only [opcodeOf, Opcode.instr, encode]
    rw [hpage, haddr, hvalue]
  | resolve id => exact congrArg (fun x => some (Instr.resolve x)) (idField_append _ id)
  | configIntr en => exact congrArg (fun b => some (Instr.configIntr b)) (enField_append _ en)
  | ackIntr => rfl
  | init mode =>
    show (IfMode.ofCode (modeField (_ ++ mode.code))).map Instr.init = _
    rw [modeField_append, IfMode.ofCode_code]
    rfl
  | configTiming mode =>
    show (IfMode.ofCode (modeField (_ ++ mode.code))).map Instr.configTiming = _
    rw [modeField_append, IfMode.ofCode_code]
    rfl
  | configLed => rfl
  | suspend => rfl
  | resume => rfl

theorem decode_encode (i : Instr) : decode (encode i) = some i := by
  obtain ⟨r, hr, hop, hsel⟩ := opcodeRow i
  rw [decode_of_selects hr hsel, hop, instr_encode]

theorem encode_injective : Function.Injective encode := fun i j h =>
  Option.some.inj ((decode_encode i).symm.trans ((congrArg decode h).trans (decode_encode j)))

/-- Settles O1: the word selects the command's row (`opcodeRow`), which reads every operand back (`instr_encode`). -/
theorem decodeOfEncodeIsTheCommand : Obligations.DecodeOfEncodeIsTheCommand := decode_encode

/-- Settles O2: the masked bits of the word are its row's pattern and the others are the operands
(`encode_of_decode`). -/
theorem everyDecodedWordIsTheEncoding : Obligations.EveryDecodedWordIsTheEncoding := fun _ _ => encode_of_decode

end Sys2Proof

namespace Sys2Proof.Machine

/-- Settles O6: each word is a closed term. -/
theorem sampleWordsDecode : Obligations.SampleWordsDecode := by
  unfold Obligations.SampleWordsDecode
  decide +kernel

/-- A step whose word decodes is the command's `exec`, once the word is taken. -/
theorem step_of_decode_some {s : State} {w : Word} {rest : List Word} {i : Instr} (hc : s.commands = w :: rest)
    (hd : decode w = some i) : step s = exec i { s with commands := rest } := by
  simp [step, fetch, hc, hd]

/-- Settles O8: the step's own equation, and the word of a decoded command is its encoding. -/
theorem stepRunsTheDecodedCommand : Obligations.StepRunsTheDecodedCommand :=
  fun _ _ _ _ hc hd => ⟨step_of_decode_some hc hd, encode_of_decode hd⟩

/-- Settles O9: with no word a step is idle, with one it ends in the state that finishes that word's command. -/
theorem everyStepAnswersANextState : Obligations.EveryStepAnswersANextState := by
  intro s
  cases hc : s.commands with
  | nil => exact ⟨s, step_idle hc, fun _ => rfl⟩
  | cons w rest =>
    obtain ⟨p, hp, -⟩ := step_finishes_word hc
    exact ⟨finish w p, hp, by simp⟩

/-- Settles O58: `exec_psClean_or_restoreLost` for every command, since every command's word decodes to it. -/
theorem onlyALostRestoreStrandsThePage : Obligations.OnlyALostRestoreStrandsThePage :=
  fun i _ _ ha hs hi h => exec_psClean_or_restoreLost ha hs hi (decode_encode i) h

end Sys2Proof.Machine


/-! # What every command's body does (10_state.md R41, R42, 70_reset_and_hazards.md R250)

The events a body logs, how many there are, what becomes of the stored pair, of the register stores and of pending bits
are said together (`Account`): once for each rule, and then for `exec`. The invariant's step lemma rests on it. -/

namespace Sys2Proof.Machine

/-! ## The account of a body -/

/-- From `s` to `t` a body logged the events `l`: at most `n` transactions and `m` events in all, no `Cmd` event, and a
query exactly where the stored pair was derived, which only happens where `led` holds. -/
structure Account (n m : Nat) (led : Prop) (l : List Ev) (s t : State) : Prop where
  log : t.log = s.log ++ l
  noCmd : ∀ e ∈ l, e.isCmd = false
  bus : busCount l ≤ n
  length : l.length ≤ m
  plat : (l.filter Ev.isPlat).length + (if s.core.led.isSome then 1 else 0) = if t.core.led.isSome then 1 else 0
  ledWritten : t.core.led = s.core.led ∨ led
  regsOk : s.RegsOk → t.RegsOk
  grew : ∀ p a, (∀ e ∈ l, e.atAddr a = false) → Grew (s.pendingCell p a) (t.pendingCell p a)

/-- The same, for events that are not named. -/
def Accounted (n m : Nat) (led : Prop) (s t : State) : Prop := ∃ l, Account n m led l s t

/-- An update of the core state that keeps the stored pair. -/
theorem Accounted.ofCore {led : Prop} {s t : State} (hlog : t.log = s.log) (hled : t.core.led = s.core.led)
    (hdev : t.dev = s.dev) (hcfg : t.cfg = s.cfg) : Accounted 0 0 led s t :=
  ⟨[], {
    log := by simp [hlog]
    noCmd := by simp
    bus := le_rfl
    length := le_rfl
    plat := by simp [hled]
    ledWritten := .inl hled
    regsOk := fun h => h.congr (by rw [hdev]) (by rw [hdev]) (by rw [hdev]) hcfg
    grew := fun p a _ => by rw [State.pendingCell, State.pendingCell, hdev]; exact Grew.refl _ }⟩

theorem Accounted.refl (led : Prop) (s : State) : Accounted 0 0 led s s := .ofCore rfl rfl rfl rfl

theorem refuse_accounted {led : Prop} (r : Reason) (s : State) : Accounted 0 0 led s (refuse r s).2 :=
  .ofCore rfl rfl rfl rfl

theorem setIntr_accounted {led : Prop} (s : State) (x : IntrState) : Accounted 0 0 led s (s.setIntr x) :=
  .ofCore rfl rfl rfl rfl

theorem setBound_accounted {led : Prop} (s : State) (i : Nat) : Accounted 0 0 led s (s.setBound i) :=
  .ofCore rfl rfl rfl rfl

/-- Wider bounds. -/
theorem Accounted.mono {n m n' m' : Nat} {led : Prop} {s t : State} (h : Accounted n m led s t) (hn : n ≤ n')
    (hm : m ≤ m') : Accounted n' m' led s t := by
  obtain ⟨l, h⟩ := h
  exact ⟨l, { h with bus := h.bus.trans hn, length := h.length.trans hm }⟩

/-- A weaker condition on writing the stored pair. -/
theorem Accounted.imp {n m : Nat} {led led' : Prop} {s t : State} (h : Accounted n m led s t) (hled : led → led') :
    Accounted n m led' s t := by
  obtain ⟨l, h⟩ := h
  exact ⟨l, { h with ledWritten := h.ledWritten.imp_right hled }⟩

theorem Accounted.trans {n m n' m' : Nat} {led : Prop} {s t u : State} (h : Accounted n m led s t)
    (h' : Accounted n' m' led t u) : Accounted (n + n') (m + m') led s u := by
  obtain ⟨l, h⟩ := h
  obtain ⟨l', h'⟩ := h'
  refine ⟨l ++ l', {
    log := by rw [h'.log, h.log, List.append_assoc]
    noCmd := fun e he => (List.mem_append.mp he).elim (h.noCmd e) (h'.noCmd e)
    bus := by rw [busCount_append]; exact Nat.add_le_add h.bus h'.bus
    length := by rw [List.length_append]; exact Nat.add_le_add h.length h'.length
    plat := ?_
    ledWritten := ?_
    regsOk := fun hs => h'.regsOk (h.regsOk hs)
    grew := fun p a hne => (h.grew p a fun e he => hne e (List.mem_append_left _ he)).trans
      (h'.grew p a fun e he => hne e (List.mem_append_right _ he)) }⟩
  · have h1 := h.plat
    have h2 := h'.plat
    rw [List.filter_append, List.length_append]
    omega
  · obtain hkept | hled := h'.ledWritten
    · exact h.ledWritten.imp_left hkept.trans
    · exact .inr hled

theorem Ev.isCmd_of_isBus {e : Ev} (h : e.isBus = true) : e.isCmd = false := by
  cases e with
  | cmd w r => cases h
  | _ => rfl

/-- Transactions alone. -/
theorem Runs.accounted {α : Type} {n : Nat} {m : Run α} {led : Prop} (h : Runs n m) (s : State) :
    Accounted n n led s (m s).2 := by
  obtain ⟨rs, qs, l, hran, hl⟩ := h s
  have hplat : l.filter Ev.isPlat = [] :=
    List.filter_eq_nil_iff.mpr fun e he => by simp [Ev.isPlat_of_isBus (hran.bus e he)]
  exact ⟨l, {
    log := hran.log
    noCmd := fun e he => Ev.isCmd_of_isBus (hran.bus e he)
    bus := (busCount_eq_length hran.bus).trans_le hl
    length := hl
    plat := by simp [hplat, hran.tx.core]
    ledWritten := .inl (congrArg CoreState.led hran.tx.core)
    regsOk := hran.tx.regsOk
    grew := hran.grew }⟩

theorem genericCall_accounted {led : Prop} (kind : GenKind) (s : State) :
    Accounted 0 1 led s (genericCall kind s).2 := by
  have hframe := afterGeneric_frame s
  rw [genericCall_eq]
  exact ⟨[.gen kind (genericReply s.genericAhead)], {
    log := by simp [hframe.log]
    noCmd := by simp [Ev.isCmd]
    bus := le_rfl
    length := le_rfl
    plat := by simp [Ev.isPlat, hframe.core]
    ledWritten := .inl (congrArg CoreState.led hframe.core)
    regsOk := fun h => (hframe.regsOk h).congr rfl rfl rfl rfl
    grew := fun p a _ => by
      simp only [State.pendingCell, State.addEv_dev, hframe.pending]
      exact Grew.refl _ }⟩

theorem ledProfile_accounted {led : Prop} (s : State) (hled : led) : Accounted 0 1 led s (ledProfile s).2 := by
  obtain ⟨-, hcore, hlog, hdev, hcfg, -⟩ := ledProfile_eq s
  refine ⟨platformEvs s, {
    log := hlog
    noCmd := ?_
    bus := (busCount_platformEvs s).le
    length := ?_
    plat := ?_
    ledWritten := .inr hled
    regsOk := fun h => h.congr (by rw [hdev]) (by rw [hdev]) (by rw [hdev]) hcfg
    grew := fun p a _ => by rw [State.pendingCell, State.pendingCell, hdev]; exact Grew.refl _ }⟩
  · unfold platformEvs
    split <;> simp [Ev.isCmd]
  · unfold platformEvs
    split <;> simp
  · rw [hcore]
    cases h : s.core.led with
    | some pair => simp [platformEvs, h]
    | none =>
      simp only [platformEvs, h, if_true]
      rfl

theorem runs_ledSteps (l : LedBinding) (pair : Reg × Reg) : Runs 5 (ledSteps l pair) := by
  intro s
  obtain ⟨ls, evs, hran, hl⟩ := ran_ledSteps l pair s
  exact ⟨ls, ls, evs, hran, hl⟩

/-! ## The rules -/

/-- The bound profile has an LED binding. -/
def State.HasLed (s : State) : Prop := ∃ p l, s.profile? = some p ∧ p.init.bind InitBinding.led = some l

theorem ledBody_accounted (q : Profile) (s : State) :
    Accounted 5 6 (∃ l, q.init.bind InitBinding.led = some l) s (ledBody q s).2 := by
  cases hl : q.init.bind InitBinding.led with
  | none =>
    rw [ledBody_of_no_binding s hl]
    exact (Accounted.refl _ s).mono (by omega) (by omega)
  | some l =>
    have hpair := ledProfile_accounted (led := ∃ l', some l = some l') s ⟨l, rfl⟩
    simp only [ledBody, hl]
    split
    · exact hpair.mono (by omega) (by omega)
    · exact (hpair.trans ((runs_ledSteps l _).accounted _)).mono (by omega) (by omega)

theorem resolveRule_accounted {led : Prop} (id : Ident) (s : State) : Accounted 0 0 led s (resolveRule id s).2 := by
  unfold resolveRule
  cases s.core.bound with
  | some i => exact refuse_accounted .rebind s
  | none =>
    cases resolveIndex s.cfg.profiles id with
    | some i => exact setBound_accounted s i
    | none => exact .refl led s

theorem configIntrRule_accounted {led : Prop} (en : Bool) (q : Profile) (s : State) :
    Accounted 3 3 led s (configIntrRule en q s).2 := by
  unfold configIntrRule
  cases q.intrEnable with
  | none => exact (setIntr_accounted s _).mono (by omega) (by omega)
  | some b =>
    have hwrite := (runs_accessAt b.page (runs_memWrite b.reg (ierValue b en))).accounted (led := led) s
    dsimp only
    split <;> rename_i heq <;> rw [heq] at hwrite
    · exact hwrite.trans (setIntr_accounted _ _)
    · exact hwrite

theorem ackIntrRule_accounted {led : Prop} (q : Profile) (s : State) :
    Accounted 3 3 led s (ackIntrRule q s).2 := by
  unfold ackIntrRule
  cases q.intrAck with
  | none => exact (Accounted.refl led s).mono (by omega) (by omega)
  | some b =>
    have hread := (runs_accessAt b.page (runs_memRead b.reg)).accounted (led := led) s
    dsimp only
    split <;> rename_i heq <;> rw [heq] at hread <;> exact hread

theorem initRule_accounted (mode : IfMode) (q : Profile) (s : State) :
    Accounted 11 12 (∃ l, q.init.bind InitBinding.led = some l) s (initRule mode q s).2 := by
  unfold initRule
  split
  · exact (Accounted.refl _ s).mono (by omega) (by omega)
  · have htiming := (runs_timingBody q mode).accounted (led := ∃ l, q.init.bind InitBinding.led = some l) s
    split <;> rename_i heq <;> rw [heq] at htiming
    · exact htiming.mono (by omega) (by omega)
    · exact htiming.trans (ledBody_accounted q _)

theorem suspendRule_accounted {led : Prop} (q : Profile) (s : State) :
    Accounted 1 2 led s (suspendRule q s).2 := by
  have hassist := (runs_assistWrite q.suspend).accounted (led := led) s
  unfold suspendRule
  split <;> rename_i heq <;> rw [heq] at hassist
  · exact hassist.mono (by omega) (by omega)
  · rename_i s'
    have hcall := hassist.trans (genericCall_accounted .suspend s')
    split <;> rename_i heq' <;> rw [heq'] at hcall <;> exact hcall

theorem resumeRule_accounted {led : Prop} (q : Profile) (s : State) :
    Accounted 1 2 led s (resumeRule q s).2 := by
  have hcall := genericCall_accounted (led := led) .resume s
  unfold resumeRule
  split <;> rename_i heq <;> rw [heq] at hcall
  · exact hcall.mono (by omega) (by omega)
  · exact (hcall.trans ((runs_assistWrite q.resume).accounted _)).mono (by omega) (by omega)

theorem pagedRule_accounted {n m : Nat} {led : Prop} {s : State} {p : Result × State} (binding : Bool)
    (h : Accounted n m led s p.2) : Accounted n m led s (if binding then p else refuse .noPagedBinding s).2 := by
  cases binding with
  | true => exact h
  | false => exact (refuse_accounted .noPagedBinding s).mono (Nat.zero_le n) (Nat.zero_le m)

/-! ## The commands -/

/-- The command ends in a state whose body is accounted for, within the bounds that hold for every command. -/
def FinishesAccounted (w : Word) (s t : State) : Prop := ∃ p, t = finish w p ∧ Accounted 11 12 s.HasLed s p.2

theorem boundCommand_accounted {i : Instr} {rule : Profile → State → Result × State} {s t : State}
    (h : boundCommand i rule s = .next t)
    (hrule : ∀ q, Accounted 11 12 (∃ l, q.init.bind InitBinding.led = some l) s (rule q s).2) :
    FinishesAccounted (encode i) s t := by
  obtain rfl | ⟨q, hq, rfl⟩ := boundCommand_cases h
  · exact ⟨_, rfl, (refuse_accounted .unbound s).mono (Nat.zero_le _) (Nat.zero_le _)⟩
  · exact ⟨_, rfl, (hrule q).imp fun ⟨l, hl⟩ => ⟨q, l, hq, hl⟩⟩

theorem exec_accounted {i : Instr} {s t : State} (h : exec i s = .next t) : FinishesAccounted (encode i) s t := by
  cases i with
  | read a =>
    rw [exec, execRead] at h
    exact boundCommand_accounted h fun _ => ((runs_memRead a).accounted s).mono (by omega) (by omega)
  | write a v =>
    rw [exec, execWrite] at h
    exact boundCommand_accounted h fun _ => ((runs_memWrite a v).accounted s).mono (by omega) (by omega)
  | readPaged page a =>
    rw [exec, execReadPaged] at h
    refine boundCommand_accounted h fun q => pagedRule_accounted q.pagedRead ?_
    exact ((runs_pagedAccess page (runs_memRead a)).accounted s).mono (by omega) (by omega)
  | writePaged page a v =>
    rw [exec, execWritePaged] at h
    refine boundCommand_accounted h fun q => pagedRule_accounted q.pagedWrite ?_
    exact ((runs_pagedAccess page (runs_memWrite a v)).accounted s).mono (by omega) (by omega)
  | resolve id =>
    cases (exec_resolve rfl).symm.trans h
    exact ⟨_, rfl, (resolveRule_accounted id s).mono (by omega) (by omega)⟩
  | configIntr en =>
    exact boundCommand_accounted h fun q => (configIntrRule_accounted en q s).mono (by omega) (by omega)
  | ackIntr => exact boundCommand_accounted h fun q => (ackIntrRule_accounted q s).mono (by omega) (by omega)
  | init mode => exact boundCommand_accounted h fun q => initRule_accounted mode q s
  | configTiming mode =>
    rw [exec, execConfigTiming] at h
    exact boundCommand_accounted h fun q => ((runs_timingBody q mode).accounted s).mono (by omega) (by omega)
  | configLed =>
    rw [exec, execConfigLed] at h
    exact boundCommand_accounted h fun q => (ledBody_accounted q s).mono (by omega) (by omega)
  | suspend => exact boundCommand_accounted h fun q => (suspendRule_accounted q s).mono (by omega) (by omega)
  | resume => exact boundCommand_accounted h fun q => (resumeRule_accounted q s).mono (by omega) (by omega)

/-! ## The statements about one command -/

/-- Settles O10: the body's events are no `Cmd` events (`Account.noCmd`), and the end of the command adds its one. -/
theorem eachCommandLogsOneResult : Obligations.EachCommandLogsOneResult := by
  intro i s t h
  obtain ⟨p, hp, hout⟩ := exec_finishes i s
  obtain ⟨p', ht, l, hacc⟩ := exec_accounted h
  have hframe : CommandFrame s t := by
    cases hp.symm.trans h
    exact hout.commandFrame _
  exact ⟨hframe, l, p'.1, ht ▸ logged_finish hacc.log, hacc.noCmd⟩

/-- Settles O12: the longest body is INIT's, the timing step's six transactions, one query and the LED step's five. -/
theorem commandsAreBounded : Obligations.CommandsAreBounded := by
  intro i s t h
  obtain ⟨p, rfl, l, hacc⟩ := exec_accounted h
  exact ⟨l, p.1, logged_finish hacc.log, hacc.bus, hacc.length⟩

/-- Settles O36: a transaction clears no pending bits but at its own address (`Account.grew`). -/
theorem pendingStaysUntilAccessed : Obligations.PendingStaysUntilAccessed := by
  intro i s t l r p a h hl hne
  obtain ⟨p', rfl, l', hacc⟩ := exec_accounted h
  obtain ⟨rfl, -⟩ := logged_finish_unique hacc.log hl
  exact hacc.grew p a hne

end Sys2Proof.Machine


/-! # The invariant over one step (10_state.md R21 to R42, R160, R167, R184)

Each clause about the log is a fact about the events a body adds (`Account`) and the one `Cmd` event that ends it; each
clause about the registers, the configuration and `Bound` is kept by the body. -/

namespace Sys2Proof.Machine

/-! ## The one body that a finished command had -/

/-- The end of a command can be undone: it adds one event and one to the index. -/
theorem finish_injective (w : Word) : Function.Injective (finish w) := by
  rintro ⟨r, s⟩ ⟨r', s'⟩ h
  obtain ⟨core, cfg, dev, log, index, commands, draws⟩ := s
  obtain ⟨core', cfg', dev', log', index', commands', draws'⟩ := s'
  simp only [finish, State.mk.injEq] at h
  obtain ⟨rfl, rfl, rfl, hlog, hindex, rfl, rfl⟩ := h
  obtain ⟨rfl, hcmd⟩ := List.append_inj' hlog rfl
  obtain rfl : index = index' := by omega
  obtain rfl : r = r' := by simpa using hcmd
  rfl

/-- What a command does: one body, whose outcome and whose account are both known. -/
theorem exec_body {i : Instr} {s t : State} (h : exec i s = .next t) :
    ∃ p, t = finish (encode i) p ∧ RuleOutcome s p ∧ Accounted 11 12 s.HasLed s p.2 := by
  obtain ⟨p, hp, hout⟩ := exec_finishes i s
  obtain ⟨p', rfl, hacc⟩ := exec_accounted h
  have hfin := hp.symm.trans h
  cases finish_injective _ (Host.Outcome.next.inj hfin)
  exact ⟨p, rfl, hout, hacc⟩

/-! ## `IntrState` and the log (R160, R167) -/

theorem intrStep_of_not_isCmd (x : IntrState) {e : Ev} (h : e.isCmd = false) : intrStep x e = x := by
  cases e with
  | cmd w r => cases h
  | _ => rfl

theorem intrStep_of_ne_ok (x : IntrState) (w : Word) {r : Result} (h : r ≠ .ok) : intrStep x (.cmd w r) = x := by
  cases r with
  | ok => exact absurd rfl h
  | _ => rfl

theorem intrStep_ok (x : IntrState) (w : Word) : intrStep x (.cmd w .ok) =
    if w = encode (.configIntr true) then .enabled else if w = encode (.configIntr false) then .disabled else x := rfl

theorem intrStep_configIntr (x : IntrState) (en : Bool) :
    intrStep x (.cmd (encode (.configIntr en)) .ok) = intrOf en := by
  rw [intrStep_ok]
  cases en with
  | true => exact if_pos rfl
  | false => exact (if_neg (encode_injective.ne (by decide))).trans (if_pos rfl)

theorem intrStep_of_not_configIntr (x : IntrState) {i : Instr} (r : Result) (hi : ∀ en, i ≠ .configIntr en) :
    intrStep x (.cmd (encode i) r) = x := by
  cases r with
  | ok =>
    rw [intrStep_ok]
    exact (if_neg (encode_injective.ne (hi true))).trans (if_neg (encode_injective.ne (hi false)))
  | _ => rfl

/-- R160's table, read off the command's `Cmd` event. -/
theorem exec_intrStep {i : Instr} {s : State} {p : Result × State} (h : exec i s = .next (finish (encode i) p)) :
    p.2.core.intr = intrStep s.core.intr (.cmd (encode i) p.1) := by
  by_cases hi : ∃ en, i = .configIntr en
  · obtain ⟨en, rfl⟩ := hi
    obtain ⟨hok, hintr⟩ | ⟨hne, hintr⟩ := exec_configIntr_intr h
    · obtain hok : p.1 = .ok := by simpa using hok
      rw [hok, intrStep_configIntr]
      exact hintr
    · rw [intrStep_of_ne_ok _ _ (by simpa using hne)]
      exact hintr
  · have hi' : ∀ en, i ≠ .configIntr en := fun en hen => hi ⟨en, hen⟩
    rw [intrStep_of_not_configIntr _ _ hi']
    have hintr := exec_intr_of_not_configIntr h hi'
    exact hintr

/-- Events that end no command leave the interrupt state as it is. -/
theorem intrAfter_append {l l' : List Ev} (h : ∀ e ∈ l', e.isCmd = false) (e : Ev) :
    intrAfter (l ++ l' ++ [e]) = intrStep (intrAfter l) e := by
  have hkept : ∀ x, l'.foldl intrStep x = x := by
    intro x
    induction l' with
    | nil => rfl
    | cons a l' ih =>
      rw [List.foldl_cons, intrStep_of_not_isCmd x (h a List.mem_cons_self)]
      exact ih fun b hb => h b (List.mem_cons_of_mem _ hb)
  simp only [intrAfter, List.foldl_append, hkept, List.foldl_cons, List.foldl_nil]

/-! ## `Bound` and the table (R21) -/

theorem resolveIndex_lt {ps : List Profile} {x : Ident} {i : Nat} (h : resolveIndex ps x = some i) : i < ps.length := by
  obtain ⟨⟨p, hp, -⟩, -⟩ := resolveIndex_eq_some_iff.mp h
  exact (List.getElem?_eq_some_iff.mp hp).1

/-- What becomes of `Bound`: it stays, or an unbound chip is bound to an index of the table and keeps its pair. -/
def BoundOutcome (s t : State) : Prop :=
  t.core.bound = s.core.bound
    ∨ s.core.bound = none ∧ t.core.led = s.core.led ∧ ∃ k, t.core.bound = some k ∧ k < s.cfg.profiles.length

theorem exec_boundOutcome {i : Instr} {s t : State} (h : exec i s = .next t) : BoundOutcome s t := by
  by_cases hi : ∃ id, i = .resolve id
  · obtain ⟨id, rfl⟩ := hi
    cases (exec_resolve rfl).symm.trans h
    cases hb : s.core.bound with
    | some b => exact .inl (by rw [resolveRule_of_bound hb]; rfl)
    | none =>
      cases hm : resolveIndex s.cfg.profiles id with
      | some k =>
        rw [resolveRule_of_match hb hm]
        exact .inr ⟨hb, rfl, k, rfl, resolveIndex_lt hm⟩
      | none => exact .inl (by rw [resolveRule_of_noMatch hb hm]; rfl)
  · exact .inl (exec_bound_of_not_resolve h fun id hid => hi ⟨id, hid⟩)

theorem profile?_of_unbound {s : State} (h : s.core.bound = none) : s.profile? = none := by
  rw [State.profile?, h, Option.bind_none]

/-! ## The step lemma -/

theorem State.Inv.regsOk {s : State} (h : s.Inv) : s.RegsOk :=
  ⟨h.bankWf, h.flatWf, h.pendingWf, h.bankBanked, h.flatUnbanked, h.pendingAtStatus⟩

/-- The invariant says nothing of the words to come. -/
theorem State.Inv.withCommands {s : State} (h : s.Inv) (ws : List Word) : { s with commands := ws }.Inv := by
  obtain ⟨hbank, hflat, hpending, hbanked, hunbanked, hstatus, hacc, hbound, hled, hindex, hrefused, hplat, hintr⟩ := h
  exact ⟨hbank, hflat, hpending, hbanked, hunbanked, hstatus, hacc, hbound, hled, hindex, hrefused, hplat, hintr⟩

/-- The stored pair belongs to a profile with an LED binding (R184). -/
theorem hasLed_of_boundOutcome {s t : State} (hinv : s.Inv) (hcfg : t.cfg = s.cfg) (hbound : BoundOutcome s t)
    (hwritten : t.core.led = s.core.led ∨ s.HasLed) (hled : t.core.led ≠ none) : t.HasLed := by
  have hs : s.HasLed := hwritten.elim (fun hkept => hinv.ledBound (hkept ▸ hled)) id
  obtain hkept | ⟨hnone, -⟩ := hbound
  · obtain ⟨p, l, hp, hl⟩ := hs
    exact ⟨p, l, (profile?_congr hkept hcfg).trans hp, hl⟩
  · obtain ⟨p, l, hp, -⟩ := hs
    rw [profile?_of_unbound hnone] at hp
    cases hp

/-- The invariant at the end of a command, from what its body did. -/
theorem inv_finish {w : Word} {s : State} {p : Result × State} (hinv : s.Inv) (hout : RuleOutcome s p)
    (haccounted : Accounted 11 12 s.HasLed s p.2) (hbound : BoundOutcome s p.2)
    (hintr : p.2.core.intr = intrStep s.core.intr (.cmd w p.1)) : (finish w p).Inv := by
  obtain ⟨hcfg, -, -, hindex⟩ := hout.commandFrame w
  obtain ⟨l, hacc⟩ := haccounted
  obtain ⟨hbank, hflat, hpending, hbanked, hunbanked, hstatus⟩ := hacc.regsOk hinv.regsOk
  have hcfg : p.2.cfg = s.cfg := hcfg
  have hlog : (finish w p).log = s.log ++ l ++ [.cmd w p.1] := by rw [finish_log, hacc.log]
  exact {
    bankWf := hbank
    flatWf := hflat
    pendingWf := hpending
    bankBanked := hbanked
    flatUnbanked := hunbanked
    pendingAtStatus := hstatus
    accepted := by rw [finish_cfg, hcfg, hinv.accepted]
    boundInTable := by
      rw [finish_core, finish_cfg, hcfg]
      obtain hkept | ⟨-, -, k, hk, hlt⟩ := hbound
      · rw [hkept]
        exact hinv.boundInTable
      · rw [hk]
        rintro i ⟨⟩
        exact hlt
    ledBound := hasLed_of_boundOutcome hinv hcfg hbound hacc.ledWritten
    indexCounts := by
      have hnone : l.filter Ev.isCmd = [] := List.filter_eq_nil_iff.mpr fun e he => by simp [hacc.noCmd e he]
      rw [hindex, hlog, hinv.indexCounts]
      simp only [List.filter_append, hnone, List.append_nil, List.length_append]
      rfl
    refusedLogged := by
      have hnot : ∀ w' r, Ev.cmd w' (.refuse r) ∉ l := fun w' r hmem => by simpa [Ev.isCmd] using hacc.noCmd _ hmem
      rw [finish_core, hout.refused_iff, hinv.refusedLogged, hlog]
      simp [hnot, or_comm, exists_or, eq_comm]
    platformOnce := by
      have hplat := hacc.plat
      rw [hlog, finish_core, ← hplat, ← hinv.platformOnce]
      simp [Ev.isPlat, Nat.add_comm]
    intrLogged := by
      rw [hlog, intrAfter_append hacc.noCmd, ← hinv.intrLogged]
      exact hintr }

theorem exec_keeps_inv {i : Instr} {s t : State} (hinv : s.Inv) (h : exec i s = .next t) : t.Inv := by
  obtain ⟨p, rfl, hout, hacc⟩ := exec_body h
  have hbound := exec_boundOutcome h
  exact inv_finish hinv hout hacc hbound (exec_intrStep h)

theorem illegalCommand_keeps_inv {s : State} (w : Word) (hinv : s.Inv) : (illegalCommand w s).Inv :=
  inv_finish hinv (.refused .illegalCommand) ((refuse_accounted .illegalCommand s).mono (by omega) (by omega))
    (.inl rfl) (intrStep_of_ne_ok _ w (by simp [refuse])).symm

/-- Settles O57: an idle step changes nothing, an illegal word is refused (`illegalCommand_keeps_inv`), and a command
keeps each clause (`exec_keeps_inv`). -/
theorem stepKeepsTheInvariant : Obligations.StepKeepsTheInvariant := by
  intro s t hinv h
  cases hc : s.commands with
  | nil =>
    cases (step_idle hc).symm.trans h
    exact hinv
  | cons w rest =>
    cases hd : decode w with
    | none =>
      cases (step_of_decode_none hc hd).symm.trans h
      exact illegalCommand_keeps_inv w (hinv.withCommands rest)
    | some i => exact exec_keeps_inv (hinv.withCommands rest) ((step_of_decode_some hc hd).symm.trans h)

end Sys2Proof.Machine


/-! # Reset, the configuration checks, and the profile table (10_state.md R40, 41_profile_table.md R141 to R149)

What a power-on leaves in the banked registers is the list `P_INIT_CONTENTS` looked up; each check of R145 is said as
the condition it stands for, and so is the whole of `Cfg.accepted`. -/

namespace Sys2Proof

/-! ## The checks of R145, as conditions -/

section
variable {p : Profile} {ps : Reg}

theorem wfIerMaskNonzero_iff : wfIerMaskNonzero p = true ↔ ∀ b, p.intrEnable = some b → b.mask ≠ 0 := by
  simp [wfIerMaskNonzero, Option.all_eq_true]

theorem wfIerPaged_iff :
    wfIerPaged p = true ↔ ∀ b, p.intrEnable = some b → b.page ≠ none → p.pagedWrite = true := by
  simp [wfIerPaged, Option.all_eq_true, or_iff_not_imp_left]

theorem wfIsrPaged_iff : wfIsrPaged p = true ↔ ∀ b, p.intrAck = some b → b.page ≠ none → p.pagedRead = true := by
  simp [wfIsrPaged, Option.all_eq_true, or_iff_not_imp_left]

theorem wfTimingPaged_iff : wfTimingPaged p = true ↔
    ∀ i, p.init = some i → i.timing ≠ none → p.pagedRead = true ∧ p.pagedWrite = true := by
  simp [wfTimingPaged, Option.all_eq_true, or_iff_not_imp_left]

theorem oneBit_iff {v : Reg} : oneBit v = true ↔ ∃ n, n < 16 ∧ v = bit n := by
  simp [oneBit]

theorem wfDelayOneBit_iff : wfDelayOneBit p = true ↔
    ∀ i t, p.init = some i → i.timing = some t → ∃ n, n < 16 ∧ t.bit = bit n := by
  simp only [wfDelayOneBit, Option.all_eq_true, oneBit_iff]
  exact ⟨fun h i t hi => h i hi t, fun h i hi t => h i t hi⟩

theorem wfRegNotPs_iff : wfRegNotPs ps p = true ↔
    (∀ b, p.intrEnable = some b → b.reg ≠ ps) ∧ (∀ b, p.intrAck = some b → b.reg ≠ ps)
      ∧ (∀ i t, p.init = some i → i.timing = some t → t.reg ≠ ps)
      ∧ (∀ i l, p.init = some i → i.led = some l → l.ledReg ≠ ps ∧ l.eeeReg ≠ ps)
      ∧ (∀ d, p.suspend = some d → d.reg ≠ ps) ∧ ∀ d, p.resume = some d → d.reg ≠ ps := by
  simp only [wfRegNotPs, Bool.and_eq_true, Option.all_eq_true, bne_iff_ne, and_assoc]
  constructor
  · rintro ⟨hier, hisr, hinit, hpd⟩
    exact ⟨hier, hisr, fun i t hi => (hinit i hi).1 t, fun i l hi => (hinit i hi).2 l, hpd⟩
  · rintro ⟨hier, hisr, htiming, hled, hpd⟩
    exact ⟨hier, hisr, fun i hi => ⟨fun t => htiming i t hi, fun l => hled i l hi⟩, hpd⟩

theorem wfPdPair_iff : wfPdPair p = true ↔
    (p.suspend = none ↔ p.resume = none) ∧ ∀ d e, p.suspend = some d → p.resume = some e → d.reg = e.reg := by
  unfold wfPdPair
  cases p.suspend <;> cases p.resume <;> simp

end

/-- Two of the RGMII codes, and they differ (R180). -/
theorem wfTxDelayModes_iff {ms : List IfMode} :
    wfTxDelayModes ms = true ↔ ∃ m n : IfMode, m ≠ n ∧ m ≠ .other ∧ n ≠ .other ∧ ms = [m, n] := by
  have hrgmii : ∀ m : IfMode, m.isRgmii = true ↔ m ≠ .other := fun m => by cases m <;> decide
  simp only [wfTxDelayModes, Bool.and_eq_true, beq_iff_eq, decide_eq_true_eq, List.length_eq_two]
  constructor
  · rintro ⟨⟨⟨m, n, rfl⟩, hnodup⟩, hall⟩
    simp [hrgmii] at hnodup hall
    exact ⟨m, n, hnodup, hall.1, hall.2, rfl⟩
  · rintro ⟨m, n, hne, hm, hn, rfl⟩
    simp [hrgmii, hne, hm, hn]

end Sys2Proof

namespace Sys2Proof.Machine

/-- Settles O24: the configuration is accepted exactly when each check's condition holds. -/
theorem bootRefusesIllFormedTables : Obligations.BootRefusesIllFormedTables := by
  intro chip c good
  have hgood : good ↔ c.accepted = true := by
    simp only [Cfg.accepted, Bool.and_eq_true, List.all_eq_true, Profile.wf, wfIerMaskNonzero_iff, wfIerPaged_iff,
      wfIsrPaged_iff, wfTimingPaged_iff, wfDelayOneBit_iff, wfRegNotPs_iff, wfPdPair_iff, wfTxDelayModes_iff, and_assoc]
    exact Iff.rfl
  rw [hgood]
  exact ⟨fun h => if_pos h, fun h => if_neg h⟩

/-! ## Reset (R40) -/

theorem lookup_cons_eq_ite {es : List ((Reg × Reg) × Reg)} {e : (Reg × Reg) × Reg} {k : Reg × Reg} :
    (e :: es).lookup k = if k = e.1 then some e.2 else es.lookup k := by
  rw [List.lookup_cons]
  by_cases h : k = e.1
  · simp [h]
  · simp [h, beq_eq_false_iff_ne.mpr h]

/-- A banked register's initial content is the first entry for it; one that is not banked has none. -/
theorem initialBank_look (c : Cfg) (p a : Reg) :
    (initialBank c).look (locKey p a) = if c.isBanked a then c.initContents.lookup (p, a) else none := by
  unfold initialBank
  induction c.initContents with
  | nil => simp
  | cons e es ih =>
    obtain ⟨⟨p', a'⟩, v⟩ := e
    rw [List.foldr_cons, lookup_cons_eq_ite]
    by_cases hk : (p, a) = (p', a')
    · obtain ⟨rfl, rfl⟩ := Prod.mk.inj hk
      by_cases hb : c.isBanked a = true
      · simp [hb]
      · simp [hb, ih]
    · have hne : locKey p a ≠ locKey p' a' := fun h => hk (Prod.ext (locKey_inj h).1 (locKey_inj h).2)
      rw [if_neg hk]
      split
      · rw [Memory.look_store_ne _ _ hne, ih]
      · exact ih

theorem bankCell_powerOn {s : State} {c : Cfg} (h : s.dev = .powerOn c) (p a : Reg) :
    s.bankCell p a = if c.isBanked a then c.initContents.lookup (p, a) else none := by
  rw [State.bankCell, h]
  exact initialBank_look c p a

theorem bankCell_powerOn_none {s : State} {c : Cfg} (h : s.dev = .powerOn c) {p a : Reg}
    (hnone : c.initContents.lookup (p, a) = none) : s.bankCell p a = none := by
  rw [bankCell_powerOn h, hnone, ite_self]

/-- Settles O23: the values are those of `State.resetWith`, and the banked registers' are `initialBank_look`. -/
theorem resetLeavesTheSpecifiedValues : Obligations.ResetLeavesTheSpecifiedValues := by
  intro chip c
  have hdev : (State.resetWith chip c).dev = .powerOn c := rfl
  exact ⟨rfl, rfl, rfl, fun p a hb => by rw [bankCell_powerOn hdev, if_pos hb],
    fun p a => bankCell_powerOn_none hdev, fun _ _ => rfl, rfl, rfl⟩

/-- Settles O25: each operation writes only its own part of the state. -/
theorem coreAndDeviceResetApart : Obligations.CoreAndDeviceResetApart :=
  fun s => ⟨rfl, rfl, rfl, rfl, rfl, rfl, rfl, fun _ _ => bankCell_powerOn_none (s := devicePowerOn s) rfl⟩

theorem initialBank_banked (c : Cfg) : ∀ x ∈ initialBank c, ∃ p a, c.isBanked a = true ∧ x.1 = locKey p a := by
  unfold initialBank
  induction c.initContents with
  | nil => simp
  | cons e es ih =>
    rw [List.foldr_cons]
    split
    · rename_i hb
      intro x hx
      obtain rfl | hx := Memory.mem_store hx
      · exact ⟨_, _, hb, rfl⟩
      · exact ih x hx
    · exact ih

theorem initialFlat_unbanked (c : Cfg) :
    ∀ x ∈ initialFlat c, ∃ a, c.isBanked a = false ∧ a ≠ c.pageSel ∧ x.1 = a.toNat := by
  unfold initialFlat
  induction c.initContents with
  | nil => simp
  | cons e es ih =>
    rw [List.foldr_cons]
    split
    · rename_i hb
      simp only [Bool.and_eq_true, Bool.not_eq_true', bne_iff_ne] at hb
      intro x hx
      obtain rfl | hx := Memory.mem_store hx
      · exact ⟨_, hb.1.1, hb.1.2, rfl⟩
      · exact ih x hx
    · exact ih

/-- Whatever the host gives, the reset configuration passes the checks and holds the known profiles (R145 to R147). -/
theorem params_accepted : Config.params.accepted = true ∧ hasKnownProfiles Config.params.profiles = true := by
  unfold Config.params
  dsimp only
  split
  · rename_i h
    exact Bool.and_eq_true_iff.mp h
  · exact ⟨by decide +kernel, by decide +kernel⟩

/-- Settles O56: the stores hold what `P_INIT_CONTENTS` puts at its locations, and everything else is empty. -/
theorem resetMeetsTheInvariant : Obligations.ResetMeetsTheInvariant where
  bankWf := wf_initialBank _
  flatWf := wf_initialFlat _
  pendingWf := List.Pairwise.nil
  bankBanked := initialBank_banked _
  flatUnbanked := initialFlat_unbanked _
  pendingAtStatus := by simp [State.reset, State.resetWith, DevState.powerOn]
  accepted := params_accepted.1
  boundInTable := by simp [State.reset, State.resetWith, CoreState.reset]
  ledBound h := absurd rfl h
  indexCounts := rfl
  refusedLogged := by simp [State.reset, State.resetWith, CoreState.reset]
  platformOnce := rfl
  intrLogged := rfl

/-! ## Commands that are refused (R110 step 2, R114, R115) -/

/-- Every command but RESOLVE needs a bound profile. -/
theorem exec_eq_boundCommand {i : Instr} (hi : ∀ id, i ≠ .resolve id) (s : State) :
    ∃ rule, exec i s = boundCommand i rule s := by
  cases i with
  | read a => exact ⟨_, by rw [exec, execRead]⟩
  | write a v => exact ⟨_, by rw [exec, execWrite]⟩
  | readPaged page a => exact ⟨_, by rw [exec, execReadPaged]⟩
  | writePaged page a v => exact ⟨_, by rw [exec, execWritePaged]⟩
  | resolve id => exact absurd rfl (hi id)
  | configIntr en => exact ⟨_, rfl⟩
  | ackIntr => exact ⟨_, rfl⟩
  | init mode => exact ⟨_, rfl⟩
  | configTiming mode => exact ⟨_, by rw [exec, execConfigTiming]⟩
  | configLed => exact ⟨_, by rw [exec, execConfigLed]⟩
  | suspend => exact ⟨_, rfl⟩
  | resume => exact ⟨_, rfl⟩

/-- Settles O15: with no profile bound the rule is not run. -/
theorem unboundCommandsAreRefused : Obligations.UnboundCommandsAreRefused := by
  intro i s hnone hi
  obtain ⟨rule, hexec⟩ := exec_eq_boundCommand hi s
  rw [hexec, boundCommand_of_unbound (profile?_of_unbound hnone)]
  rfl

/-- Settles O16: the rule of a paged command is refused where its binding is missing. -/
theorem missingPagedBindingIsRefused : Obligations.MissingPagedBindingIsRefused := by
  intro s q page addr value hq
  refine ⟨fun hread => ?_, fun hwrite => ?_⟩
  · rw [exec, execReadPaged, boundCommand_eq hq, hread]
    rfl
  · rw [exec, execWritePaged, boundCommand_eq hq, hwrite]
    rfl

/-! ## RESOLVE from reset (R146, R147) -/

theorem selected_eq_some {ps : List Profile} {x : Ident} {f : Profile} (h : selected ps x = some f) :
    ∃ i, resolveIndex ps x = some i ∧ ps[i]? = some f := by
  simpa [selected, Option.bind_eq_some_iff] using h

/-- RESOLVE on an unbound chip binds the profile that the identity selects. -/
theorem exec_resolve_selected {s : State} {x : Ident} {f : Profile} (hnone : s.core.bound = none)
    (hf : selected s.cfg.profiles x = some f) : ∃ t, exec (.resolve x) s = .next t ∧ t.profile? = some f := by
  obtain ⟨i, hi, hget⟩ := selected_eq_some hf
  exact ⟨_, exec_resolve (resolveRule_of_match hnone hi), hget⟩

/-- Settles O22: the reset configuration holds a profile F and a profile B (`params_accepted`), and RESOLVE binds the
one selected. -/
theorem knownIdentitiesBindTheirProfiles : Obligations.KnownIdentitiesBindTheirProfiles := by
  have hknown := params_accepted.2
  rw [hasKnownProfiles, Bool.and_eq_true, Option.any_eq_true, Option.any_eq_true] at hknown
  obtain ⟨⟨f, hf, hF⟩, b, hb, hB⟩ := hknown
  obtain ⟨t, ht, htf⟩ := exec_resolve_selected (s := State.reset) rfl hf
  obtain ⟨u, hu, hub⟩ := exec_resolve_selected (s := State.reset) rfl hb
  refine ⟨⟨t, f, ht, htf, ?_⟩, u, b, hu, hub, ?_⟩
  · simp only [isProfileF, Bool.and_eq_true, beq_iff_eq, Option.any_eq_true, Option.isSome_iff_exists, and_assoc] at hF
    obtain ⟨hmask, hid, hfeatures, hread, hwrite, ⟨i, hinit, l, hled⟩, ier, hier, hpage, himask⟩ := hF
    refine ⟨hmask, hid, hfeatures, hread, hwrite, ⟨i, l, hinit, hled⟩, ier.reg, ?_⟩
    rw [hier, ← hpage, ← himask]
  · simpa [isProfileB] using hB

end Sys2Proof.Machine

namespace Sys2Proof

/-! ## Profiles that overlap (R149) -/

/-- Where two values agree on both masks, the bits of each under its own mask make a value that agrees with both. -/
theorem masked_or_agrees {a b m n : Ident} (h : a &&& m &&& n = b &&& m &&& n) :
    (a &&& m ||| b &&& n) &&& m = a &&& m ∧ (a &&& m ||| b &&& n) &&& n = b &&& n := by
  have hbool : ∀ a b m n : Bool, (a && m && n) = (b && m && n) →
      ((a && m || b && n) && m) = (a && m) ∧ ((a && m || b && n) && n) = (b && n) := by decide
  have hbit : ∀ i, _ := fun i => hbool (a.getLsbD i) (b.getLsbD i) (m.getLsbD i) (n.getLsbD i)
    (by simpa only [BitVec.getLsbD_and] using congrArg (BitVec.getLsbD · i) h)
  refine ⟨BitVec.eq_of_getLsbD_eq fun i _ => ?_, BitVec.eq_of_getLsbD_eq fun i _ => ?_⟩
  · simpa only [BitVec.getLsbD_and, BitVec.getLsbD_or] using (hbit i).1
  · simpa only [BitVec.getLsbD_and, BitVec.getLsbD_or] using (hbit i).2

theorem Profile.overlaps_iff {p q : Profile} :
    p.overlaps q = true ↔ ∃ x, p.matchesId x = true ∧ q.matchesId x = true := by
  simp only [overlaps, beq_iff_eq, matchesId_iff]
  constructor
  · exact fun h => ⟨_, masked_or_agrees h⟩
  · rintro ⟨x, hp, hq⟩
    calc p.id &&& p.mask &&& q.mask = x &&& p.mask &&& q.mask := by rw [hp]
      _ = x &&& q.mask &&& p.mask := by rw [BitVec.and_assoc, BitVec.and_comm p.mask, BitVec.and_assoc]
      _ = q.id &&& q.mask &&& p.mask := by rw [hq]
      _ = q.id &&& p.mask &&& q.mask := by rw [BitVec.and_assoc, BitVec.and_comm q.mask, BitVec.and_assoc]

/-- Settles O19: an overlap is an identity common to both (`overlaps_iff`), and the index selected is that of the first
match. -/
theorem overlapMeansACommonIdentity : Obligations.OverlapMeansACommonIdentity := by
  refine ⟨fun _ _ => Profile.overlaps_iff, fun ps x i j p hj hlt hp => ?_⟩
  obtain ⟨-, hfirst⟩ := resolveIndex_eq_some_iff.mp hj
  exact hfirst i p hlt hp

end Sys2Proof

namespace Sys2Proof.Machine

/-! ## CONFIG_INTR twice (R164) -/

/-- Settles O40: the first call leaves the page, the configuration and the profile as the second needs them, and the
second alone decides the register and `IntrState` (`ConfigIntrDone`). -/
theorem enableThenDisableClears : Obligations.EnableThenDisableClears := by
  intro s t u q b en hq ha hclean hb hs hst hokt htu hoku
  have ht := configIntr_done hq ha hclean hst hokt
  have hu := configIntr_done (ht.profile.trans hq) (ht.cfg ▸ ha) ht.clean htu hoku
  have hcell := hu.cell b hb (ht.cfg ▸ hs)
  have hintr := hu.intr
  refine ⟨?_, ?_⟩
  · rintro rfl
    exact ⟨hcell, hintr⟩
  · rintro rfl
    exact ⟨hcell, hintr⟩

end Sys2Proof.Machine


/-! # Register accesses, interrupts and the timing step that succeed (R112 to R115, R161, R162, R181)

Each command is its one run and its end: what the run does is said in `memRead_done`, `pagedRead_ok`, `pagedWrite_ok`
and `timing_ok`, and the end of a command touches no device register. -/

namespace Sys2Proof.Machine

/-! ## One transaction that succeeded -/

/-- A write that succeeded. -/
theorem memWrite_done {s : State} (a v : Reg) (h : s.busAhead 0 = .ok) :
    (memWrite a v s).1 = .ok () ∧ (memWrite a v s).2.log = s.log ++ [okWrite (a, v)]
      ∧ WriteDone 1 s.dev.ps a v s (memWrite a v s).2 := by
  refine ⟨by simp [memWrite_fst, h], by simp [memWrite_log, h, okWrite], ?_⟩
  exact (memWrite_cell a v (by simp [h])).writeDone (memWrite_tx s a v)

/-- Settles O29: READ is one read transaction (`memRead_done`) and its end. -/
theorem readReturnsTheRegister : Obligations.ReadReturnsTheRegister := by
  intro s q a hq hok
  obtain ⟨v, hv, hdone⟩ := memRead_done a hok
  have htx := memRead_tx s a
  refine ⟨_, v, exec_read hq a, ?_, htx.commandFrame, htx.core, memRead_ps s a, hdone⟩
  rw [hv]
  exact logged_finish (i := .read a) (by simp [memRead_log, hv, okRead])

/-- Settles O30: WRITE is one write transaction (`memWrite_done`) and its end. -/
theorem writeStoresTheValue : Obligations.WriteStoresTheValue := by
  intro s q a v hq hok
  obtain ⟨hv, hlog, hdone⟩ := memWrite_done a v hok
  have htx := memWrite_tx s a v
  refine ⟨_, exec_write hq a v, ?_, htx.commandFrame, htx.core, ?_, hdone⟩
  · rw [hv]
    exact logged_finish (i := .write a v) hlog
  · simp [memWrite_ps, hok]

/-- Settles O31: READ_PAGED is the paged read (`pagedRead_ok`) and its end. -/
theorem pagedReadReturnsTheRegister : Obligations.PagedReadReturnsTheRegister := by
  intro s q page a hq hread hok
  obtain ⟨v, t, hrun, hlog, hps, hdone, htx⟩ := pagedRead_ok (page := page) (a := a) hok
  refine ⟨_, v, exec_readPaged hq hread page a, ?_⟩
  rw [hrun]
  exact ⟨logged_finish (i := .readPaged page a) hlog, htx.commandFrame, htx.core, hps, hdone⟩

/-- Settles O32: WRITE_PAGED is the paged write (`pagedWrite_ok`) and its end. -/
theorem pagedWriteStoresTheValue : Obligations.PagedWriteStoresTheValue := by
  intro s q page a v hq hwrite hok
  obtain ⟨t, hrun, hlog, hps, hdone, htx, -⟩ := pagedWrite_ok (page := page) (a := a) (v := v) hok
  refine ⟨_, exec_writePaged hq hwrite page a v, ?_⟩
  rw [hrun]
  exact ⟨logged_finish (i := .writePaged page a v) hlog, htx.commandFrame, htx.core, hps, hdone⟩

/-! ## CONFIG_INTR (R161) -/

theorem intrWrite_of_no_binding {q : Profile} (en : Bool) (s : State) (hb : q.intrEnable = none) :
    intrWrite en q s = (.ok (), s) := by
  simp only [intrWrite, hb]

theorem intrWrite_plain {q : Profile} {b : IerBinding} (en : Bool) (s : State) (hb : q.intrEnable = some b)
    (hpage : b.page = none) : intrWrite en q s = memWrite b.reg (ierValue b en) s := by
  simp only [intrWrite, hb, hpage, accessAt]

theorem intrWrite_paged {q : Profile} {b : IerBinding} {pg : Reg} (en : Bool) (s : State) (hb : q.intrEnable = some b)
    (hpage : b.page = some pg) : intrWrite en q s = pagedAccess pg (memWrite b.reg (ierValue b en)) s := by
  simp only [intrWrite, hb, hpage, accessAt]

/-- CONFIG_INTR whose write succeeded: the write's transactions, then `IntrState` and the end. -/
theorem exec_configIntr_ok {s t : State} {q : Profile} {en : Bool} {n : Nat} {rs qs : List (Reg × Reg)} {l : List Ev}
    (hq : s.profile? = some q) (hrun : intrWrite en q s = (.ok (), t)) (hlog : t.log = s.log ++ l)
    (htx : Tx n rs qs s t) :
    ∃ u, exec (.configIntr en) s = .next u ∧ Logged (.configIntr en) l .ok s u ∧ CommandFrame s u
      ∧ u.core = { s.core with intr := intrOf en } ∧ u.dev = t.dev := by
  refine ⟨_, exec_configIntr hq en, ?_⟩
  rw [configIntrRule_of_ok (by rw [hrun]), hrun]
  refine ⟨logged_finish (i := .configIntr en) hlog, ?_, ?_, rfl⟩
  · exact commandFrame_finish htx.cfg htx.commands htx.chip htx.index
  · rw [← htx.core]
    rfl

/-- What a write did is a fact about the device. -/
theorem WriteDone.of_dev_eq {n : Nat} {p a v : Reg} {s t u : State} (h : WriteDone n p a v s t) (hdev : u.dev = t.dev) :
    WriteDone n p a v s u := by
  unfold WriteDone SameRegsBut PendingOnlySet State.bankCell State.flatCell State.pendingCell at *
  rw [hdev]
  exact h

/-- Settles O38: without the binding there is no write; a plain one is one transaction, a paged one three. -/
theorem configIntrWritesTheEnableRegister : Obligations.ConfigIntrWritesTheEnableRegister := by
  intro s q en hq ha x
  refine ⟨fun hb => ?_, fun b hb hpage hok => ?_, fun b pg hb hpage hok => ?_⟩
  · exact exec_configIntr_ok hq (intrWrite_of_no_binding en s hb) (by simp) (Tx.refl s)
  · obtain ⟨hv, hlog, hdone⟩ := memWrite_done b.reg (ierValue b en) hok
    obtain ⟨u, hu, hl, hframe, hcore, hdev⟩ := exec_configIntr_ok hq
      ((intrWrite_plain en s hb hpage).trans (Prod.ext hv rfl)) hlog (memWrite_tx s b.reg (ierValue b en))
    have hps : u.dev.ps = s.dev.ps := by
      rw [hdev, memWrite_ps, if_neg fun h => ierReg_ne hq ha hb h.2]
    exact ⟨u, hu, hl, hframe, hcore, hps, hdone.of_dev_eq hdev⟩
  · obtain ⟨t, hrun, hlog, hps, hdone, htx, -⟩ := pagedWrite_ok (page := pg) (a := b.reg) (v := ierValue b en) hok
    obtain ⟨u, hu, hl, hframe, hcore, hdev⟩ := exec_configIntr_ok hq
      ((intrWrite_paged en s hb hpage).trans hrun) hlog htx
    exact ⟨u, hu, hl, hframe, hcore, by rw [hdev, hps], hdone.of_dev_eq hdev⟩

/-! ## ACK_INTR (R162, R166) -/

theorem ackIntrRule_of_no_binding {q : Profile} (s : State) (hb : q.intrAck = none) : ackIntrRule q s = (.ok, s) := by
  simp only [ackIntrRule, hb]

theorem ackIntrRule_of_ok {q : Profile} {b : IsrBinding} {s t : State} {v : Reg} (hb : q.intrAck = some b)
    (hrun : accessAt b.page (memRead b.reg) s = (.ok v, t)) : ackIntrRule q s = (.ok, t) := by
  simp only [ackIntrRule, hb, hrun]

/-- A bound profile's acknowledge register is a status location (R56). -/
theorem isStatus_of_intrAck {s : State} {q : Profile} {b : IsrBinding} (hq : s.profile? = some q)
    (hb : q.intrAck = some b) : s.cfg.isStatus (b.page.getD 0) b.reg = true := by
  rw [Cfg.isStatus, List.contains_iff_mem, Cfg.statusRegs, List.mem_filterMap]
  exact ⟨q, profile_mem hq, by rw [hb]; rfl⟩

/-- Settles O41: without the binding there is no read; a plain one is one transaction, a paged one three. -/
theorem ackIntrReadsTheStatusRegister : Obligations.AckIntrReadsTheStatusRegister := by
  intro s q hq _
  refine ⟨fun hb => ⟨_, exec_ackIntr hq, ?_⟩, fun b hb hpage hok => ?_, fun b pg hb hpage hok => ?_,
    fun b hb => isStatus_of_intrAck hq hb⟩
  · rw [ackIntrRule_of_no_binding s hb]
    exact ⟨logged_finish (i := .ackIntr) (by simp), (Tx.refl s).commandFrame, rfl, rfl⟩
  · obtain ⟨v, hv, hdone⟩ := memRead_done b.reg hok
    have htx := memRead_tx s b.reg
    have hrun : accessAt b.page (memRead b.reg) s = (.ok v, (memRead b.reg s).2) := by
      rw [hpage, accessAt, ← hv]
    refine ⟨_, v, exec_ackIntr hq, ?_⟩
    rw [ackIntrRule_of_ok hb hrun]
    exact ⟨logged_finish (i := .ackIntr) (by simp [memRead_log, hv, okRead]), htx.commandFrame, htx.core,
      memRead_ps s b.reg, hdone⟩
  · obtain ⟨v, t, hrun, hlog, hps, hdone, htx⟩ := pagedRead_ok (page := pg) (a := b.reg) hok
    refine ⟨_, v, exec_ackIntr hq, ?_⟩
    rw [ackIntrRule_of_ok hb (by rw [hpage, accessAt, hrun])]
    exact ⟨logged_finish (i := .ackIntr) hlog, htx.commandFrame, htx.core, hps, hdone⟩

/-! ## CONFIG_TIMING (R181) -/

theorem timingBody_of_no_binding {q : Profile} (mode : IfMode) (s : State)
    (hb : q.init.bind InitBinding.timing = none) : timingBody q mode s = (.ok (), s) := by
  simp only [timingBody, hb]

/-- Settles O42: without the binding there is no step, else it is `timing_ok`. -/
theorem configTimingSetsTheDelayBit : Obligations.ConfigTimingSetsTheDelayBit := by
  intro s q mode hq _
  refine ⟨fun hb => ⟨_, exec_configTiming hq mode, ?_⟩, fun b hb hok => ?_⟩
  · rw [timingBody_of_no_binding mode s hb]
    exact ⟨logged_finish (i := .configTiming mode) (by simp), (Tx.refl s).commandFrame, rfl, rfl⟩
  · obtain ⟨t, old, hrun, hlog, hps, htx, hold, hcell⟩ := timing_ok (mode := mode) hok
    refine ⟨_, old, exec_configTiming hq mode, ?_⟩
    rw [timingBody_of_binding mode s hb, hrun, ← timingValue_eq]
    exact ⟨logged_finish (i := .configTiming mode) hlog, htx.commandFrame, htx.core, hps,
      fun hs => ⟨hold hs, hcell.cellAt htx.cfg hs⟩, htx.regs, htx.pending⟩

/-- A paged access whose operation fails touches no register that the operation did not (R111). -/
theorem pagedRead_failed {s : State} {page a : Reg} {e : BusErr} {took : Bool} (h0 : s.busAhead 0 = .ok)
    (h1 : s.busAhead 1 = .err e took) :
    ∃ qs t, pagedAccess page (memRead a) s = (.err e, t) ∧ t.log = s.log ++ [okWrite (s.cfg.pageSel, page),
      .busR a (.err e), .busW s.cfg.pageSel 0x0000 (answerReply (s.busAhead 2))] ∧ Tx 3 [] qs s t := by
  obtain ⟨hreply, hlog⟩ := (oneTx_memRead a).pagedAccess_of_op_err (page := page) h0 h1
  have hread := ran_memRead (selectPage page s).2 a
  rw [if_neg (by rw [selectPage_busAhead]; simp [h1])] at hread
  exact ⟨_, _, Prod.ext hreply rfl, hlog, (ran_pagedAccess h0 hread).tx⟩

/-- Settles O44: the failed read ends the timing step (`andThen_err`) once the page is restored. -/
theorem timingReadFailureWritesNothing : Obligations.TimingReadFailureWritesNothing := by
  intro s q b mode e took hq hb h0 h1
  obtain ⟨qs, t, hrun, hlog, htx⟩ := pagedRead_failed (page := b.page) (a := b.reg) h0 h1
  have hbody : timingBody q mode s = (.err e, t) := by
    rw [timingBody_of_binding mode s hb, timingSteps, andThen_err (by rw [hrun]), hrun]
  refine ⟨_, exec_configTiming hq mode, ?_⟩
  rw [hbody]
  exact ⟨logged_finish (i := .configTiming mode) hlog, htx.core, htx.regs⟩

end Sys2Proof.Machine


/-! # CONFIG_LED and INIT (43_bound_operations.md R181 to R187)

The LED step is the derivation of the pair, which touches no device register, and then the LED sequence. INIT is the
timing step and the LED step, each of whose parts is said by `BodyDone`, which composes. -/

namespace Sys2Proof.Machine

/-! ## The LED step by the pair it uses -/

theorem ledBody_of_zero {q : Profile} {l : LedBinding} {s : State} (hl : q.init.bind InitBinding.led = some l)
    (hzero : s.ledPair = (0x0000, 0x0000)) : ledBody q s = (.ok (), (ledProfile s).2) := by
  simp only [ledBody, hl]
  rw [(ledProfile_eq s).1, hzero]
  rfl

theorem ledBody_of_pair {q : Profile} {l : LedBinding} {s : State} (hl : q.init.bind InitBinding.led = some l)
    (hne : s.ledPair ≠ (0x0000, 0x0000)) : ledBody q s = ledSteps l s.ledPair (ledProfile s).2 := by
  simp only [ledBody, hl]
  rw [(ledProfile_eq s).1]
  exact if_neg fun h => hne ((pair_iff _).mp h)

/-! ## What a body that succeeded did to the device -/

theorem SameRegsBut.of_dev_eq {s t : State} (h : t.dev = s.dev) : SameRegsBut [] s t :=
  ⟨fun p a _ => by rw [State.bankCell, State.bankCell, h], fun a _ => by rw [State.flatCell, State.flatCell, h]⟩

theorem PendingOnlySet.of_dev_eq {s t : State} (h : t.dev = s.dev) : PendingOnlySet [] 0 s t := by
  intro p a v _ hv
  have hcell : t.pendingCell p a = s.pendingCell p a := by rw [State.pendingCell, State.pendingCell, h]
  simp [hcell, hv]

theorem cellAt_of_dev_eq {s t : State} (hdev : t.dev = s.dev) (hcfg : t.cfg = s.cfg) (p a : Reg) :
    t.cellAt p a = s.cellAt p a := by
  unfold State.cellAt State.bankCell State.flatCell
  rw [hdev, hcfg]

/-- From `s` to `t` a body logged `l`, left page 0 if it made a transaction, and touched no register and no pending bits
but those at `locs`. -/
structure BodyDone (l : List Ev) (locs : List (Reg × Reg)) (s t : State) : Prop where
  log : t.log = s.log ++ l
  cfg : t.cfg = s.cfg
  commands : t.commands = s.commands
  chip : t.draws.chip = s.draws.chip
  index : t.index = s.index
  ps : t.dev.ps = if busCount l = 0 then s.dev.ps else 0x0000
  bus : ∀ k, t.busAhead k = s.busAhead (busCount l + k)
  events : ∀ k, t.eventAhead k = s.eventAhead (busCount l + k)
  regs : SameRegsBut locs s t
  pending : PendingOnlySet locs (busCount l) s t

theorem BodyDone.refl (s : State) : BodyDone [] [] s s where
  log := by simp
  cfg := rfl
  commands := rfl
  chip := rfl
  index := rfl
  ps := rfl
  bus k := by rw [show busCount [] = 0 from rfl, Nat.zero_add]
  events k := by rw [show busCount [] = 0 from rfl, Nat.zero_add]
  regs := .of_dev_eq rfl
  pending := .of_dev_eq rfl

theorem BodyDone.trans {l l' : List Ev} {locs locs' : List (Reg × Reg)} {s t u : State} (h : BodyDone l locs s t)
    (h' : BodyDone l' locs' t u) : BodyDone (l ++ l') (locs ++ locs') s u where
  log := by rw [h'.log, h.log, List.append_assoc]
  cfg := h'.cfg.trans h.cfg
  commands := h'.commands.trans h.commands
  chip := h'.chip.trans h.chip
  index := h'.index.trans h.index
  ps := by
    rw [h'.ps, h.ps, busCount_append]
    by_cases hl : busCount l = 0 <;> simp [hl]
  bus k := by rw [h'.bus, h.bus, busCount_append, Nat.add_assoc]
  events k := by rw [h'.events, h.events, busCount_append, Nat.add_assoc]
  regs := h.regs.trans h.cfg h'.regs
  pending := by
    rw [busCount_append]
    exact h.pending.trans h.cfg h.events h'.pending

/-- Transactions that end with the restore. -/
theorem Tx.bodyDone {n : Nat} {locs : List (Reg × Reg)} {l : List Ev} {s t : State} (h : Tx n locs locs s t)
    (hlog : t.log = s.log ++ l) (hn : busCount l = n) (hpos : n ≠ 0) (hps : t.dev.ps = 0x0000) :
    BodyDone l locs s t := by
  subst hn
  exact {
    log := hlog, cfg := h.cfg, commands := h.commands, chip := h.chip, index := h.index
    ps := by rw [hps, if_neg hpos]
    bus := h.bus, events := h.events, regs := h.regs, pending := h.pending }

theorem BodyDone.commandFrame {l : List Ev} {locs : List (Reg × Reg)} {s t : State} {r : Result} {w : Word}
    (h : BodyDone l locs s t) : CommandFrame s (finish w (r, t)) :=
  commandFrame_finish h.cfg h.commands h.chip h.index

/-- Deriving the pair makes no transaction. -/
theorem ledProfile_bodyDone (s : State) : BodyDone (platformEvs s) [] s (ledProfile s).2 := by
  obtain ⟨-, -, hlog, hdev, hcfg, hcommands, hindex, hchip, hbus, hevents⟩ := ledProfile_eq s
  have hcount := busCount_platformEvs s
  exact {
    log := hlog, cfg := hcfg, commands := hcommands, chip := hchip, index := hindex
    ps := by rw [hcount, hdev, if_pos rfl]
    bus := fun k => by rw [hcount, hbus, Nat.zero_add]
    events := fun k => by rw [hcount, hevents, Nat.zero_add]
    regs := .of_dev_eq hdev
    pending := hcount ▸ .of_dev_eq hdev }

/-! ## CONFIG_LED (R185, R186) -/

theorem ledEvs_of_zero (c : Cfg) (l : LedBinding) : ledEvs c l (0x0000, 0x0000) = [] := if_pos rfl

theorem ledEvs_of_pair (c : Cfg) (l : LedBinding) {pair : Reg × Reg} (h : pair ≠ (0x0000, 0x0000)) :
    ledEvs c l pair = (ledWrites c l pair).map okWrite ++ [okWrite (c.pageSel, 0x0000)] := if_neg h

theorem busCount_okWrites (ws : List (Reg × Reg)) : busCount (ws.map okWrite) = ws.length := by
  rw [busCount_eq_length, List.length_map]
  intro e he
  obtain ⟨x, -, rfl⟩ := List.mem_map.mp he
  rfl

theorem busCount_ledEvs (c : Cfg) (l : LedBinding) {pair : Reg × Reg} (h : pair ≠ (0x0000, 0x0000)) :
    busCount (ledEvs c l pair) = (ledWrites c l pair).length + 1 := by
  rw [ledEvs_of_pair c l h, busCount_append, busCount_okWrites]
  rfl

/-- The LED step that writes the pair. -/
theorem ledBody_written {q : Profile} {l : LedBinding} {s : State} (hl : q.init.bind InitBinding.led = some l)
    (hne : s.ledPair ≠ (0x0000, 0x0000)) (hledReg : l.ledReg ≠ s.cfg.pageSel) (heeeReg : l.eeeReg ≠ s.cfg.pageSel)
    (hok : BusOk s 0 ((ledWrites s.cfg l s.ledPair).length + 1)) :
    ∃ t, ledBody q s = (.ok (), t) ∧ t.core = { s.core with led := some s.ledPair }
      ∧ BodyDone (platformEvs s ++ ledEvs s.cfg l s.ledPair) (ledLocs s.cfg l) s t
      ∧ (storesAt s.cfg (ledPage s.cfg l.select) l.eeeReg = true →
          t.cellAt (ledPage s.cfg l.select) l.eeeReg = some s.ledPair.2)
      ∧ (storesAt s.cfg (ledPage s.cfg l.select) l.ledReg = true → l.ledReg ≠ l.eeeReg →
          t.cellAt (ledPage s.cfg l.select) l.ledReg = some s.ledPair.1)
      ∧ (∀ p1 x p2, l.select = .twoStep p1 x p2 → storesAt s.cfg p1 x = true → x ≠ s.cfg.pageSel → x ≠ l.ledReg →
          x ≠ l.eeeReg → t.cellAt p1 x = some p2) := by
  obtain ⟨-, hcore, -, -, hcfg, -, -, -, hbus, -⟩ := ledProfile_eq s
  have hok' : BusOk (ledProfile s).2 0 ((ledWrites (ledProfile s).2.cfg l s.ledPair).length + 1) := by
    rw [hcfg]
    exact fun i hi => (hbus _).trans (hok i hi)
  obtain ⟨t, hrun, hlog, hps, htx, hcells⟩ := ledSteps_ok (by rwa [hcfg]) (by rwa [hcfg]) hok'
  rw [hcfg] at hlog htx hcells
  rw [← ledEvs_of_pair s.cfg l hne] at hlog
  have hdone := (ledProfile_bodyDone s).trans (htx.bodyDone hlog (busCount_ledEvs s.cfg l hne) (Nat.succ_ne_zero _) hps)
  exact ⟨t, (ledBody_of_pair hl hne).trans hrun, htx.core.trans hcore, hdone, hcells⟩

/-- Settles O46: no binding, no pair to write, or the whole sequence (`ledBody_written`). -/
theorem configLedWritesThePair : Obligations.ConfigLedWritesThePair := by
  intro s q hq ha
  refine ⟨fun hl => ⟨_, exec_configLed hq, ?_⟩, fun l hl hzero => ⟨_, exec_configLed hq, ?_⟩, fun l hl hne hok => ?_⟩
  · rw [ledBody_of_no_binding s hl]
    exact ⟨logged_finish (i := .configLed) (by simp), (Tx.refl s).commandFrame, rfl, rfl⟩
  · obtain ⟨-, hcore, hlog, hdev, -⟩ := ledProfile_eq s
    rw [ledBody_of_zero hl hzero]
    exact ⟨logged_finish (i := .configLed) hlog, (ledProfile_bodyDone s).commandFrame, hzero ▸ hcore, hdev⟩
  · obtain ⟨hledReg, heeeReg⟩ := ledRegs_ne hq ha hl
    obtain ⟨t, hrun, hcore, hdone, heee, hled, htwo⟩ := ledBody_written hl hne hledReg heeeReg hok
    have hcount : busCount (platformEvs s ++ ledEvs s.cfg l s.ledPair) = (ledWrites s.cfg l s.ledPair).length + 1 := by
      rw [busCount_append, busCount_platformEvs, busCount_ledEvs _ _ hne, Nat.zero_add]
    have hps := hdone.ps
    have hpending := hdone.pending
    rw [hcount] at hps hpending
    refine ⟨_, exec_configLed hq, ?_⟩
    rw [hrun]
    exact ⟨logged_finish (i := .configLed) hdone.log, hdone.commandFrame, hcore, hps, heee, hled, htwo, hdone.regs,
      hpending⟩

/-- The LED sequence whose write number `k` is the first that fails. -/
theorem ledSteps_failed {s : State} {l : LedBinding} {pair w : Reg × Reg} {k : Nat} {e : BusErr} {took : Bool}
    (hw : (ledWrites s.cfg l pair)[k]? = some w) (hok : BusOk s 0 k) (hk : s.busAhead k = .err e took) :
    ∃ t, ledSteps l pair s = (.err e, t) ∧ t.core = s.core
      ∧ t.log = s.log ++ (((ledWrites s.cfg l pair).take k).map okWrite
          ++ [.busW w.1 w.2 (.err e), .busW s.cfg.pageSel 0x0000 (answerReply (s.busAhead (k + 1)))]) := by
  obtain ⟨ls, hwrites, hreply⟩ := writeAll_err (ledWrites s.cfg l pair) hw hok hk
  have hrun := hwrites.tryFinally (ran_restorePage _)
  have hlen : (((ledWrites s.cfg l pair).take k).map okWrite ++ [Ev.busW w.1 w.2 (.err e)]).length = k + 1 := by
    have := (List.getElem?_eq_some_iff.mp hw).1
    simp
    omega
  have hlog := hrun.log
  rw [hwrites.tx.cfg, hwrites.tx.bus, hlen] at hlog
  exact ⟨_, Prod.ext (tryFinally_fst_err _ hreply) rfl, hrun.tx.core, hlog.trans (by simp)⟩

/-- Settles O48: the failed write ends the sequence, and its restore follows (`ledSteps_failed`). -/
theorem ledFailureStopsAndRestores : Obligations.LedFailureStopsAndRestores := by
  intro s q l k w e took hq hl hne hw hok hk
  obtain ⟨-, hcore, hlog, -, hcfg, -, -, -, hbus, -⟩ := ledProfile_eq s
  obtain ⟨t, hrun, htcore, htlog⟩ := ledSteps_failed (s := (ledProfile s).2) (by rwa [hcfg])
    (fun i hi => (hbus _).trans (hok i hi)) ((hbus k).trans hk)
  rw [hcfg, hbus, hlog] at htlog
  refine ⟨_, exec_configLed hq, ?_⟩
  rw [ledBody_of_pair hl hne, hrun]
  refine ⟨?_, logged_finish (i := .configLed) (by simpa using htlog)⟩
  exact (congrArg CoreState.led (htcore.trans hcore)).trans rfl

/-! ## INIT (R187) -/

/-- The events of INIT's timing step, for the value read. -/
def initTimingEvs (c : Cfg) (mode : IfMode) (old : Reg) : Option TimingBinding → List Ev
  | none => []
  | some d => timingEvs c d old (timingValue c d mode old)

/-- The location of INIT's timing step. -/
def initTimingLocs : Option TimingBinding → List (Reg × Reg)
  | none => []
  | some d => [(d.page, d.reg)]

/-- The events of INIT's LED step. -/
def initLedEvs (s : State) : Option LedBinding → List Ev
  | none => []
  | some l => platformEvs s ++ ledEvs s.cfg l s.ledPair

/-- The locations of INIT's LED step. -/
def initLedLocs (s : State) : Option LedBinding → List (Reg × Reg)
  | none => []
  | some l => if s.ledPair = (0x0000, 0x0000) then [] else ledLocs s.cfg l

/-- The core state after INIT's LED step. -/
def initLedCore (s : State) : Option LedBinding → CoreState
  | none => s.core
  | some _ => { s.core with led := some s.ledPair }

/-- From `s` to `t` nothing moved that the LED step draws its pair from. -/
structure SamePair (s t : State) : Prop where
  core : t.core = s.core
  pair : t.ledPair = s.ledPair
  plat : platformEvs t = platformEvs s

theorem Tx.samePair {n : Nat} {rs qs : List (Reg × Reg)} {s t : State} (h : Tx n rs qs s t) : SamePair s t := by
  have hplat : t.platformAhead = s.platformAhead := by rw [State.platformAhead, State.platformAhead, h.platform, h.chip]
  exact ⟨h.core, by rw [State.ledPair, State.ledPair, h.core, h.cfg, hplat],
    by rw [platformEvs, platformEvs, h.core, hplat]⟩

theorem busCount_timingEvs (c : Cfg) (d : TimingBinding) (old new : Reg) : busCount (timingEvs c d old new) = 6 := rfl

/-- INIT's timing step, all of whose transactions succeed. -/
theorem initTiming_ok {s : State} {q : Profile} {b : InitBinding} (mode : IfMode) (hb : q.init = some b)
    (hok : BusOk s 0 6) :
    ∃ t old, timingBody q mode s = (.ok (), t) ∧ SamePair s t
      ∧ BodyDone (initTimingEvs s.cfg mode old b.timing) (initTimingLocs b.timing) s t
      ∧ busCount (initTimingEvs s.cfg mode old b.timing) ≤ 6
      ∧ ∀ d, b.timing = some d → storesAt s.cfg d.page d.reg = true →
        (∀ w, s.cellAt d.page d.reg = some w → old = w)
          ∧ t.cellAt d.page d.reg = some (timingValue s.cfg d mode old) := by
  have hbind : q.init.bind InitBinding.timing = b.timing := by rw [hb, Option.bind_some]
  cases hd : b.timing with
  | none =>
    exact ⟨s, 0, timingBody_of_no_binding mode s (hbind.trans hd), (Tx.refl s).samePair, .refl s, Nat.zero_le 6,
      by simp⟩
  | some d =>
    obtain ⟨t, old, hrun, hlog, hps, htx, hold, hcell⟩ := timing_ok (mode := mode) (b := d) hok
    have hcount := busCount_timingEvs s.cfg d old (timingValue s.cfg d mode old)
    refine ⟨t, old, (timingBody_of_binding mode s (hbind.trans hd)).trans hrun, htx.samePair,
      htx.bodyDone hlog hcount (by omega) hps, hcount.le, ?_⟩
    rintro d' ⟨⟩ hs
    exact ⟨hold hs, hcell.cellAt htx.cfg hs⟩

theorem ledWrites_length_le (c : Cfg) (l : LedBinding) (pair : Reg × Reg) : (ledWrites c l pair).length ≤ 4 := by
  unfold ledWrites selectSeq
  cases l.select <;> simp

/-- INIT's LED step, all of whose transactions succeed. -/
theorem initLed_ok {s : State} {q : Profile} {b : InitBinding} (hb : q.init = some b)
    (hregs : ∀ l, q.init.bind InitBinding.led = some l → l.ledReg ≠ s.cfg.pageSel ∧ l.eeeReg ≠ s.cfg.pageSel)
    (hok : BusOk s 0 5) :
    ∃ t, ledBody q s = (.ok (), t) ∧ t.core = initLedCore s b.led
      ∧ BodyDone (initLedEvs s b.led) (initLedLocs s b.led) s t
      ∧ (b.led = none ∨ s.ledPair = (0x0000, 0x0000) → t.dev = s.dev) := by
  have hbind : q.init.bind InitBinding.led = b.led := by rw [hb, Option.bind_some]
  cases hled : b.led with
  | none => exact ⟨s, ledBody_of_no_binding s (hbind.trans hled), rfl, .refl s, fun _ => rfl⟩
  | some l =>
    have hl := hbind.trans hled
    by_cases hzero : s.ledPair = (0x0000, 0x0000)
    · obtain ⟨-, hcore, -, hdev, -⟩ := ledProfile_eq s
      refine ⟨_, ledBody_of_zero hl hzero, hcore, ?_, fun _ => hdev⟩
      rw [initLedEvs, initLedLocs, if_pos hzero, hzero, ledEvs_of_zero, List.append_nil]
      exact ledProfile_bodyDone s
    · have hlen := ledWrites_length_le s.cfg l s.ledPair
      obtain ⟨t, hrun, hcore, hdone, -⟩ := ledBody_written hl hzero (hregs l hl).1 (hregs l hl).2
        fun i hi => hok i (by omega)
      refine ⟨t, hrun, hcore, ?_, ?_⟩
      · rw [initLedEvs, initLedLocs, if_neg hzero]
        exact hdone
      · rintro (hnone | hpair)
        · cases hnone
        · exact absurd hpair hzero

theorem initRule_of_no_binding {q : Profile} (mode : IfMode) (s : State) (h : q.init = none) :
    initRule mode q s = (.okLed .ok, s) := by
  simp only [initRule, h]

theorem initRule_of_timing_err {q : Profile} {b : InitBinding} {mode : IfMode} {s t : State} {e : BusErr}
    (hb : q.init = some b) (h : timingBody q mode s = (.err e, t)) : initRule mode q s = (.busError e, t) := by
  simp only [initRule, hb, h]

theorem initRule_of_timing_ok {q : Profile} {b : InitBinding} {mode : IfMode} {s t : State}
    (hb : q.init = some b) (h : timingBody q mode s = (.ok (), t)) :
    initRule mode q s = (.okLed (ledBody q t).1.ledStatus, (ledBody q t).2) := by
  simp only [initRule, hb, h]

/-- What the LED step does depends on its start only by what the timing step keeps. -/
theorem SamePair.ledParts {s t : State} (h : SamePair s t) (hcfg : t.cfg = s.cfg) (o : Option LedBinding) :
    initLedEvs t o = initLedEvs s o ∧ initLedLocs t o = initLedLocs s o ∧ initLedCore t o = initLedCore s o := by
  cases o with
  | none => exact ⟨rfl, rfl, h.core⟩
  | some l => simp only [initLedEvs, initLedLocs, initLedCore, h.core, h.pair, h.plat, hcfg, and_self]

/-- Settles O50: the timing step (`initTiming_ok`) and then the LED step (`initLed_ok`), put together by
`BodyDone.trans`. -/
theorem initRunsTimingThenLed : Obligations.InitRunsTimingThenLed := by
  intro s q mode hq ha
  refine ⟨fun hb => ⟨_, exec_init hq mode, ?_⟩, fun b hb hok => ?_⟩
  · rw [initRule_of_no_binding mode s hb]
    exact ⟨logged_finish (i := .init mode) (by simp), (Tx.refl s).commandFrame, rfl, rfl⟩
  · obtain ⟨t, old, htiming, hsame, hdone, hcount, hcell⟩ := initTiming_ok mode hb (busOk_sub (j := 0) hok (by omega))
    have hregs : ∀ l, q.init.bind InitBinding.led = some l → l.ledReg ≠ t.cfg.pageSel ∧ l.eeeReg ≠ t.cfg.pageSel := by
      rw [hdone.cfg]
      exact fun l => ledRegs_ne hq ha
    have hok' : BusOk t 0 5 := fun i hi => (hdone.bus _).trans (by simpa using hok _ (by omega))
    obtain ⟨u, hled, hcore, hdone', hdev⟩ := initLed_ok hb hregs hok'
    obtain ⟨hevs, hlocs, hcore'⟩ := hsame.ledParts hdone.cfg b.led
    rw [hevs, hlocs] at hdone'
    rw [hcore'] at hcore
    have hall := hdone.trans hdone'
    refine ⟨_, old, exec_init hq mode, ?_⟩
    rw [initRule_of_timing_ok hb htiming, hled]
    simp only [← timingValue_eq]
    refine ⟨logged_finish (i := .init mode) hall.log, hall.commandFrame, hcore, hall.ps, fun d hd hkept hs => ?_,
      hall.regs, hall.pending⟩
    obtain ⟨hold, hnew⟩ := hcell d hd hs
    exact ⟨hold, (cellAt_of_dev_eq (hdev (hsame.pair ▸ hkept)) hdone'.cfg d.page d.reg).trans hnew⟩

/-! ## INIT as the two commands (R187) -/

theorem ledProfile_relog (s : State) (L : List Ev) (k : Nat) :
    ledProfile (s.relog L k) = (s.ledPair, (ledProfile s).2.relog (L ++ platformEvs s) k) := by
  cases h : s.core.led with
  | some pair => simp [ledProfile, h, State.ledPair, platformEvs]
  | none =>
    rw [ledProfile_none h, ledProfile_none (s := s.relog L k) h]
    simp only [State.ledPair, platformEvs, h, if_true]
    rfl

/-- The LED step neither reads nor needs the log. -/
theorem ledBody_relog (q : Profile) (s : State) :
    ∃ l, (ledBody q s).2.log = s.log ++ l
      ∧ ∀ L k, ledBody q (s.relog L k) = ((ledBody q s).1, (ledBody q s).2.relog (L ++ l) k) := by
  cases hl : q.init.bind InitBinding.led with
  | none =>
    refine ⟨[], by simp [ledBody_of_no_binding s hl], fun L k => ?_⟩
    rw [ledBody_of_no_binding s hl, ledBody_of_no_binding _ hl, List.append_nil]
  | some b =>
    obtain ⟨-, -, hlog, -⟩ := ledProfile_eq s
    have hpair : ∀ L k, (s.relog L k).ledPair = s.ledPair := fun _ _ => rfl
    by_cases hzero : s.ledPair = (0x0000, 0x0000)
    · refine ⟨platformEvs s, by rw [ledBody_of_zero hl hzero, hlog], fun L k => ?_⟩
      rw [ledBody_of_zero hl hzero, ledBody_of_zero hl ((hpair L k).trans hzero), ledProfile_relog]
    · obtain ⟨ls, evs, hran, -⟩ := ran_ledSteps b s.ledPair (ledProfile s).2
      refine ⟨platformEvs s ++ evs, ?_, fun L k => ?_⟩
      · rw [ledBody_of_pair hl hzero, hran.log, hlog, List.append_assoc]
      · rw [ledBody_of_pair hl hzero, ledBody_of_pair hl (by rw [hpair]; exact hzero), ledProfile_relog, hpair,
          hran.relog, List.append_assoc]

theorem Reply.result_eq_busError {r : Reply Unit} {e : BusErr} (h : r.result = .busError e) : r = .err e := by
  cases r with
  | ok => cases h
  | err e' =>
    cases h
    rfl

/-- After the end of a command, which is another log and another index, the LED step does as it did before it. -/
theorem ledBody_finish (q : Profile) (w : Word) (r : Result) (s : State) :
    ∃ l, (ledBody q s).2.log = s.log ++ l ∧ (ledBody q (finish w (r, s))).1 = (ledBody q s).1
      ∧ (ledBody q (finish w (r, s))).2.log = (finish w (r, s)).log ++ l
      ∧ (ledBody q (finish w (r, s))).2.core = (ledBody q s).2.core
      ∧ (ledBody q (finish w (r, s))).2.dev = (ledBody q s).2.dev
      ∧ (ledBody q (finish w (r, s))).2.draws = (ledBody q s).2.draws := by
  obtain ⟨l, hlog, hrelog⟩ := ledBody_relog q s
  have hfin : finish w (r, s) = s.relog (s.log ++ [.cmd w r]) (s.index + 1) := rfl
  rw [hfin, hrelog]
  exact ⟨l, hlog, rfl, rfl, rfl, rfl, rfl⟩

/-- Settles O51: CONFIG_TIMING leaves the state that INIT's timing step leaves, with another log, and the LED step
does the same from both (`ledBody_finish`). -/
theorem initIsTimingThenLed : Obligations.InitIsTimingThenLed := by
  intro s t q b mode l r hq hb ht hlogged
  obtain ⟨rs, qs, l', hran, -⟩ := runs_timingBody q mode s
  have hlog := hran.log
  have hcore := hran.tx.core
  have hcfg := hran.tx.cfg
  have hexec := exec_configTiming hq mode
  rcases hrun : timingBody q mode s with ⟨x, t₁⟩
  rw [hrun] at hlog hcore hcfg hexec
  cases x with
  | err e =>
    rw [Reply.result] at hexec
    cases hexec.symm.trans ht
    obtain ⟨rfl, rfl⟩ := logged_finish_unique hlog hlogged
    refine ⟨?_, by simp⟩
    rintro e ⟨⟩
    refine ⟨_, exec_init hq mode, ?_⟩
    rw [initRule_of_timing_err hb hrun]
    exact ⟨logged_finish (i := .init mode) hlog, rfl, rfl, rfl⟩
  | ok =>
    rw [Reply.result] at hexec
    cases hexec.symm.trans ht
    obtain ⟨rfl, rfl⟩ := logged_finish_unique hlog hlogged
    refine ⟨by simp, fun _ u led r' hu hled => ?_⟩
    have hq' : (finish (encode (.configTiming mode)) (.ok, t₁)).profile? = some q :=
      (profile?_congr (congrArg CoreState.bound hcore) hcfg).trans hq
    obtain ⟨led', hledLog, hreply, hlog', hcore', hdev', hdraws'⟩ :=
      ledBody_finish q (encode (.configTiming mode)) .ok t₁
    cases (exec_configLed hq').symm.trans hu
    obtain ⟨rfl, rfl⟩ := logged_finish_unique hlog' hled
    have hall : (ledBody q t₁).2.log = s.log ++ (l ++ led) := by rw [hledLog, hlog, List.append_assoc]
    refine ⟨_, exec_init hq mode, ?_⟩
    rw [initRule_of_timing_ok hb hrun]
    refine ⟨hcore'.symm, hdev'.symm, hdraws'.symm, fun h => ?_, fun e h => ?_⟩
    · rw [hreply.symm.trans (Reply.result_eq_ok h)]
      exact logged_finish (i := .init mode) hall
    · rw [hreply.symm.trans (Reply.result_eq_busError h)]
      exact logged_finish (i := .init mode) hall

end Sys2Proof.Machine


/-! # SUSPEND and RESUME (43_bound_operations.md R188 to R190, 20_memory.md R74, 60_exceptions.md R219)

A generic call changes storage registers of the default page and flat registers alone (`CallDone`). SUSPEND is the
assist write and then the call, RESUME the call and then the assist write; each step is made once and composed. -/

namespace Sys2Proof.Machine

/-! ## The generic call -/

/-- The call's reply as the command's result (R190). -/
def callResult : Reply Unit → Result
  | .ok _ => .ok
  | .err e => .genericError e

theorem genericReply_of_none {g : GenericAnswer} (h : g.error = none) : genericReply g = .ok () := by
  rw [genericReply, h]

theorem genericReply_of_some {g : GenericAnswer} {e : BusErr} (h : g.error = some e) : genericReply g = .err e := by
  rw [genericReply, h]

theorem genericCall_fst (kind : GenKind) (s : State) : (genericCall kind s).1 = genericReply s.genericAhead := by
  rw [genericCall_eq]

/-- From `s` to `t` one generic call was made (R74): what it logs, and what it keeps. -/
structure CallDone (kind : GenKind) (s t : State) : Prop where
  log : t.log = s.log ++ [.gen kind (genericReply s.genericAhead)]
  core : t.core = s.core
  keeps : RuleKeeps s t
  ps : t.dev.ps = s.dev.ps
  pending : t.dev.pending = s.dev.pending
  busDraws : t.draws.bus = s.draws.bus
  eventDraws : t.draws.events = s.draws.events
  bank : ∀ p a, p ≠ 0x0000 ∨ s.cfg.isStorage p a = false → t.bankCell p a = s.bankCell p a
  left : ∀ a, s.cfg.isBanked a = true → s.cfg.isStorage 0x0000 a = true →
    t.bankCell 0x0000 a = genericCell s.genericAhead a
  flat : ∀ a, s.cfg.isBanked a = false → a ≠ s.cfg.pageSel → t.flatCell a = genericCell s.genericAhead a

theorem genericCall_done (kind : GenKind) (s : State) : CallDone kind s (genericCall kind s).2 := by
  have hkeeps := genericCall_ruleKeeps kind s
  have hframe := afterGeneric_frame s
  rw [genericCall_eq] at hkeeps ⊢
  exact {
    log := by rw [State.addEv_log, hframe.log]
    core := hframe.core
    keeps := hkeeps
    ps := hframe.ps
    pending := hframe.pending
    busDraws := hframe.bus
    eventDraws := hframe.events
    bank := fun p a h => by
      have hnot : ¬ (p = 0x0000 ∧ s.cfg.isStorage p a = true) := by
        rintro ⟨hp, hs⟩
        exact h.elim (fun hne => hne hp) (fun hf => by simp [hs] at hf)
      exact (afterGeneric_bank s p a).trans (if_neg hnot)
    left := fun a hb hs => (afterGeneric_bank s _ a).trans ((if_pos ⟨rfl, hs⟩).trans (if_pos hb))
    flat := fun a hb ha => (afterGeneric_flat s a).trans (if_pos ⟨hb, ha⟩) }

theorem CallDone.busAhead {kind : GenKind} {s t : State} (h : CallDone kind s t) (n : Nat) :
    t.busAhead n = s.busAhead n := by
  rw [State.busAhead, State.busAhead, h.busDraws, h.keeps.chip]

theorem CallDone.eventAhead {kind : GenKind} {s t : State} (h : CallDone kind s t) (n : Nat) :
    t.eventAhead n = s.eventAhead n := by
  rw [State.eventAhead, State.eventAhead, h.eventDraws, h.keeps.chip]

/-- Pending bits over a call: none changed. -/
theorem CallDone.pendingOnlySet {kind : GenKind} {s t : State} (h : CallDone kind s t) : PendingOnlySet [] 0 s t := by
  intro p a v _ hv
  have hcell : t.pendingCell p a = s.pendingCell p a := by rw [State.pendingCell, State.pendingCell, h.pending]
  simp [hcell, hv]

/-- The registers over a call, with transactions before it and after it. -/
theorem CallDone.afterGeneric {kind : GenKind} {n m : Nat} {rs qs rs' qs' : List (Reg × Reg)} {s s₁ s₂ t : State}
    (h : CallDone kind s₁ s₂) (hbefore : Tx n rs qs s s₁) (hafter : Tx m rs' qs' s₂ t) :
    AfterGeneric s.genericAhead rs rs' s t := by
  have hg : s₁.genericAhead = s.genericAhead := by
    rw [State.genericAhead, State.genericAhead, hbefore.generic, hbefore.chip]
  have hcfg : s₂.cfg = s.cfg := h.keeps.cfg.trans hbefore.cfg
  obtain ⟨hbank, hflat⟩ := hafter.regs
  rw [hcfg] at hbank hflat
  rw [← hg, AfterGeneric, ← hbefore.cfg]
  rw [← hbefore.cfg] at hbank hflat
  refine ⟨fun a hb hs hne => (hbank _ a hne).trans (h.left a hb hs), fun p a hpa hne => ?_,
    fun a hb ha hne => (hflat a hne).trans (h.flat a hb ha)⟩
  rw [hbank p a fun l hl => hne l (List.mem_append_right _ hl), h.bank p a hpa]
  refine hbefore.regs.1 p a fun l hl => ?_
  rw [← hbefore.cfg]
  exact hne l (List.mem_append_left _ hl)

/-- Settles O52: `CallDone`, with no transactions about the call. -/
theorem genericCallChangesOnlyTheDefaultPage : Obligations.GenericCallChangesOnlyTheDefaultPage := by
  intro s k t
  have h := genericCall_done k s
  exact ⟨h.afterGeneric (Tx.refl s) (Tx.refl t), h.ps, h.pending, h.core, genericCall_fst k s, h.log⟩

/-! ## The assist write -/

/-- A write touches no more than the location it reaches. -/
theorem memWrite_tx_loc (s : State) (a v : Reg) : Tx 1 [(s.dev.ps, a)] [(s.dev.ps, a)] s (memWrite a v s).2 :=
  (memWrite_tx s a v).mono (fun l hl => by simp [wroteAt_sub _ _ _ l hl]) fun l hl => by simp [ackedAt_sub _ _ _ l hl]

/-- A write that is not to the page-select address keeps PS. -/
theorem memWrite_ps_of_ne {s : State} {a : Reg} (v : Reg) (h : a ≠ s.cfg.pageSel) :
    (memWrite a v s).2.dev.ps = s.dev.ps := by
  rw [memWrite_ps, if_neg fun hps => h hps.2]

theorem memWrite_failed {s : State} (a v : Reg) {e : BusErr} {took : Bool} (h : s.busAhead 0 = .err e took) :
    (memWrite a v s).1 = .err e ∧ (memWrite a v s).2.log = s.log ++ [.busW a v (.err e)] :=
  ⟨by rw [memWrite_fst, h]; rfl, by rw [memWrite_log, h]; rfl⟩

/-! ## SUSPEND (R188) -/

theorem suspendRule_of_assist_err {q : Profile} {s t : State} {e : BusErr} (h : assistWrite q.suspend s = (.err e, t)) :
    suspendRule q s = (.busError e, t) := by
  rw [suspendRule, h]

theorem suspendRule_of_assist_ok {q : Profile} {s t : State} (h : assistWrite q.suspend s = (.ok (), t)) :
    suspendRule q s = (callResult (genericReply t.genericAhead), (genericCall .suspend t).2) := by
  rw [suspendRule, h, ← genericCall_fst .suspend]
  dsimp only
  rcases genericCall .suspend t with ⟨_ | _, _⟩ <;> rfl

/-- SUSPEND past its assist write: the write's transactions `l`, the call, and the end. -/
theorem exec_suspend_calls {s t : State} {q : Profile} {n : Nat} {locs : List (Reg × Reg)} {l : List Ev}
    (hq : s.profile? = some q) (hrun : assistWrite q.suspend s = (.ok (), t)) (htx : Tx n locs locs s t)
    (hlog : t.log = s.log ++ l) :
    ∃ u, exec .suspend s = .next u
      ∧ Logged .suspend (l ++ [.gen .suspend (genericReply s.genericAhead)])
        (callResult (genericReply s.genericAhead)) s u
      ∧ CommandFrame s u ∧ u.core = s.core ∧ u.dev.ps = t.dev.ps ∧ u.dev.pending = t.dev.pending
      ∧ AfterGeneric s.genericAhead locs [] s u
      ∧ ∀ p a, p ≠ 0x0000 → u.bankCell p a = t.bankCell p a := by
  have hg : t.genericAhead = s.genericAhead := by
    rw [State.genericAhead, State.genericAhead, htx.generic, htx.chip]
  have hcall := genericCall_done .suspend t
  have hkeeps := htx.ruleKeeps.trans hcall.keeps
  have hregs := hcall.afterGeneric htx (Tx.refl _)
  refine ⟨_, exec_suspend hq, ?_⟩
  rw [suspendRule_of_assist_ok hrun, hg]
  refine ⟨logged_finish (i := .suspend) ?_, commandFrame_finish hkeeps.cfg hkeeps.commands hkeeps.chip hkeeps.index,
    hcall.core.trans htx.core, hcall.ps, hcall.pending, hregs,
    fun p a hp => hcall.bank p a (.inl hp)⟩
  rw [hcall.log, hlog, hg, List.append_assoc]

/-- Pending bits are a fact about the pending store. -/
theorem PendingOnlySet.of_pending_eq {n : Nat} {locs : List (Reg × Reg)} {s t u : State} (h : PendingOnlySet locs n s t)
    (hp : u.dev.pending = t.dev.pending) : PendingOnlySet locs n s u := by
  unfold PendingOnlySet State.pendingCell at *
  rw [hp]
  exact h

/-- Settles O53: the assist write, if there is one, and then the call (`exec_suspend_calls`). -/
theorem suspendWritesThenCalls : Obligations.SuspendWritesThenCalls := by
  intro s q hq ha hgen
  have hreply := genericReply_of_none hgen
  refine ⟨fun hd => ?_, fun d hd hok => ?_⟩
  · obtain ⟨u, hu, hlog, hframe, hcore, hps, hpending, hregs, -⟩ :=
      exec_suspend_calls hq (by rw [hd]; rfl) (Tx.refl s) (List.append_nil _).symm
    rw [hreply] at hlog
    exact ⟨u, hu, hlog, hframe, hcore, hps, hregs, hpending⟩
  · obtain ⟨hv, hwlog, -⟩ := memWrite_done d.reg d.value hok
    have htx := memWrite_tx_loc s d.reg d.value
    have hcell := memWrite_cell (s := s) d.reg d.value (by simp [hok])
    obtain ⟨u, hu, hlog, hframe, hcore, hps, hpending, hregs, hbank⟩ :=
      exec_suspend_calls hq (by rw [hd]; exact Prod.ext hv rfl) htx hwlog
    rw [hreply] at hlog
    refine ⟨u, hu, hlog, hframe, hcore, hps.trans (memWrite_ps_of_ne _ (suspendReg_ne hq ha hd)), hregs,
      fun p a hl hp hs => ?_, htx.pending.of_pending_eq hpending⟩
    rw [hbank p a hp]
    have hcellAt := hcell.cellAt htx.cfg (by simp [storesAt, hl, hs])
    simpa [State.cellAt, htx.cfg, hl] using hcellAt

/-! ## RESUME (R189) -/

theorem resumeRule_of_call_err {q : Profile} {s : State} {e : BusErr} (h : genericReply s.genericAhead = .err e) :
    resumeRule q s = (.genericError e, (genericCall .resume s).2) := by
  rw [resumeRule, genericCall_eq, h]

theorem resumeRule_of_call_ok {q : Profile} {s t : State} {r : Reply Unit} (h : genericReply s.genericAhead = .ok ())
    (hrun : assistWrite q.resume (genericCall .resume s).2 = (r, t)) : resumeRule q s = (r.result, t) := by
  have hcall : genericCall .resume s = (.ok (), (genericCall .resume s).2) := by
    rw [← h, ← genericCall_fst .resume]
  rw [resumeRule, hcall]
  dsimp only
  rw [hrun]

/-- RESUME past its call: the call, the assist write's transactions `l`, and the end. -/
theorem exec_resume_writes {s t : State} {q : Profile} {n : Nat} {locs : List (Reg × Reg)} {l : List Ev}
    {r : Reply Unit} (hq : s.profile? = some q) (hgen : s.genericAhead.error = none)
    (hrun : assistWrite q.resume (genericCall .resume s).2 = (r, t)) (htx : Tx n locs locs (genericCall .resume s).2 t)
    (hlog : t.log = (genericCall .resume s).2.log ++ l) :
    ∃ u, exec .resume s = .next u ∧ Logged .resume (.gen .resume (.ok ()) :: l) r.result s u ∧ CommandFrame s u
      ∧ u.core = s.core ∧ u.dev = t.dev ∧ u.cfg = t.cfg ∧ AfterGeneric s.genericAhead [] locs s u
      ∧ PendingOnlySet locs n s u := by
  have hreply := genericReply_of_none hgen
  have hcall := genericCall_done .resume s
  have hkeeps := hcall.keeps.trans htx.ruleKeeps
  have hregs := hcall.afterGeneric (Tx.refl s) htx
  have hevents : ∀ k, (genericCall .resume s).2.eventAhead k = s.eventAhead (0 + k) := fun k => by
    rw [hcall.eventAhead, Nat.zero_add]
  have hpending := hcall.pendingOnlySet.trans hcall.keeps.cfg hevents htx.pending
  rw [List.nil_append, Nat.zero_add] at hpending
  refine ⟨_, exec_resume hq, ?_⟩
  rw [resumeRule_of_call_ok hreply hrun]
  refine ⟨logged_finish (i := .resume) ?_, commandFrame_finish hkeeps.cfg hkeeps.commands hkeeps.chip hkeeps.index,
    htx.core.trans hcall.core, rfl, rfl, hregs, hpending⟩
  rw [hlog, hcall.log, hreply, List.append_assoc]
  rfl

/-- Settles O54: the call, and then the assist write, if there is one (`exec_resume_writes`). -/
theorem resumeCallsThenWrites : Obligations.ResumeCallsThenWrites := by
  intro s q hq ha hgen
  have hcall := genericCall_done .resume s
  refine ⟨fun hd => ?_, fun d hd hok => ?_⟩
  · obtain ⟨u, hu, hlog, hframe, hcore, hdev, -, hregs, -⟩ :=
      exec_resume_writes hq hgen (by rw [hd]; rfl) (Tx.refl _) (List.append_nil _).symm
    exact ⟨u, hu, hlog, hframe, hcore, by rw [hdev, hcall.ps], hregs, by rw [hdev, hcall.pending]⟩
  · have hok' := (hcall.busAhead 0).trans hok
    have hne : d.reg ≠ (genericCall .resume s).2.cfg.pageSel := by
      rw [hcall.keeps.cfg]
      exact resumeReg_ne hq ha hd
    obtain ⟨hv, hwlog, -⟩ := memWrite_done d.reg d.value hok'
    have htx := memWrite_tx_loc (genericCall .resume s).2 d.reg d.value
    have hcell := memWrite_cell (s := (genericCall .resume s).2) d.reg d.value (by simp [hok'])
    rw [hcall.ps] at htx hcell
    obtain ⟨u, hu, hlog, hframe, hcore, hdev, hcfg, hregs, hpending⟩ :=
      exec_resume_writes hq hgen (by rw [hd]; exact Prod.ext hv rfl) htx hwlog
    refine ⟨u, hu, hlog, hframe, hcore, ?_, hregs, fun hs => ?_, hpending⟩
    · rw [hdev, memWrite_ps_of_ne _ hne, hcall.ps]
    · rw [cellAt_of_dev_eq hdev hcfg]
      exact hcell.cellAt htx.cfg (hcall.keeps.cfg ▸ hs)

/-! ## The steps that fail (R219) -/

/-- Settles O55: a failed assist write ends SUSPEND before the call; a failed call is the result of either command, and
ends RESUME before its write; a failed write after the call is RESUME's result. -/
theorem suspendAndResumeStopAtTheFirstFailure : Obligations.SuspendAndResumeStopAtTheFirstFailure := by
  intro s q e hq
  refine ⟨fun d took hd herr => ?_, fun hd hgen => ?_, fun d hd hok hgen => ?_, fun hgen => ?_,
    fun d took hd hgen herr => ?_⟩
  · obtain ⟨hv, hlog⟩ := memWrite_failed d.reg d.value herr
    have htx := memWrite_tx_loc s d.reg d.value
    have hrun : assistWrite q.suspend s = (.err e, (memWrite d.reg d.value s).2) := by
      rw [hd]
      exact Prod.ext hv rfl
    refine ⟨_, exec_suspend hq, ?_⟩
    rw [suspendRule_of_assist_err hrun]
    exact ⟨logged_finish (i := .suspend) hlog, htx.commandFrame, htx.core,
      fun ha => memWrite_ps_of_ne _ (suspendReg_ne hq ha hd), htx.generic, htx.regs⟩
  · obtain ⟨u, hu, hlog, hframe, hcore, hps, -, hregs, -⟩ :=
      exec_suspend_calls hq (by rw [hd]; rfl) (Tx.refl s) (List.append_nil _).symm
    rw [genericReply_of_some hgen] at hlog
    exact ⟨u, hu, hlog, hframe, hcore, hps, hregs⟩
  · obtain ⟨hv, hwlog, -⟩ := memWrite_done d.reg d.value hok
    obtain ⟨u, hu, hlog, hframe, hcore, hps, -, hregs, -⟩ :=
      exec_suspend_calls hq (by rw [hd]; exact Prod.ext hv rfl) (memWrite_tx_loc s d.reg d.value) hwlog
    rw [genericReply_of_some hgen] at hlog
    exact ⟨u, hu, hlog, hframe, hcore, fun ha => hps.trans (memWrite_ps_of_ne _ (suspendReg_ne hq ha hd)), hregs⟩
  · have hcall := genericCall_done .resume s
    have hreply := genericReply_of_some hgen
    have hregs := hcall.afterGeneric (Tx.refl s) (Tx.refl _)
    refine ⟨_, exec_resume hq, ?_⟩
    rw [resumeRule_of_call_err hreply]
    exact ⟨logged_finish (i := .resume) (hreply ▸ hcall.log), commandFrame_finish hcall.keeps.cfg hcall.keeps.commands
      hcall.keeps.chip hcall.keeps.index, hcall.core, hcall.ps, hcall.busDraws, hregs⟩
  · have hcall := genericCall_done .resume s
    obtain ⟨hv, hwlog⟩ := memWrite_failed d.reg d.value ((hcall.busAhead 0).trans herr)
    have htx := memWrite_tx_loc (genericCall .resume s).2 d.reg d.value
    rw [hcall.ps] at htx
    obtain ⟨u, hu, hlog, hframe, hcore, hdev, -, hregs, -⟩ :=
      exec_resume_writes hq hgen (by rw [hd]; exact Prod.ext hv rfl) htx hwlog
    refine ⟨u, hu, hlog, hframe, hcore, fun ha => ?_, hregs⟩
    rw [hdev, memWrite_ps_of_ne, hcall.ps]
    rw [hcall.keeps.cfg]
    exact resumeReg_ne hq ha hd

end Sys2Proof.Machine
